-- ==== Sys2Proof/Word.lean ====
section
/-! DEFINITION. The word types of the BitCursor block, at the widths of spec/00_scope.md R11. -/

namespace Sys2Proof

/-- One source item's data and the lookahead buffer: 8 bits (R6, R11). -/
abbrev Byte := BitVec 8

/-- A command word `cmd[15:0]` (R60, R61). -/
abbrev CmdWord := BitVec 16

/-- Response data `rsp_data[63:0]` and the accumulator ACC (R11, R68). -/
abbrev Data := BitVec 64

end Sys2Proof
end

