-- ==== Sys2Proof/Syntax.lean ====
section
/-! DEFINITION. The twelve commands (spec/30_encoding.md R62), one constructor per row of
spec/opcode_table.json, and their assembler spelling (R70). -/

namespace Sys2Proof

/-- A command. The operand of READ_BITS and READ_CHAR is the 8-bit field `w`, every value of which
the decoder accepts (R63). -/
inductive Instr where
  /-- IS_AT_END, `0x0000` (R90). -/
  | isAtEnd
  /-- READ_BIT, `0x1000` (R93). -/
  | readBit
  /-- READ_BITS w, `0x2000 | w` (R94). -/
  | readBits (w : BitVec 8)
  /-- READ_BYTE, `0x3000` (R103). -/
  | readByte
  /-- READ_CHAR w, `0x4000 | w` (R104). -/
  | readChar (w : BitVec 8)
  /-- READ_SHORT, `0x5000` (R111). -/
  | readShort
  /-- READ_INT, `0x6000` (R112). -/
  | readInt
  /-- READ_LONG, `0x7000` (R113). -/
  | readLong
  /-- READ_FLOAT, `0x8000` (R115). -/
  | readFloat
  /-- READ_DOUBLE, `0x9000` (R116). -/
  | readDouble
  /-- READ_TEXT, `0xA000` (R120). -/
  | readText
  /-- CLOSE, `0xB000` (R124). -/
  | close
deriving DecidableEq, Repr

namespace Instr

/-- The mnemonic of R62. -/
def mnemonic : Instr → String
  | .isAtEnd => "IS_AT_END"
  | .readBit => "READ_BIT"
  | .readBits _ => "READ_BITS"
  | .readByte => "READ_BYTE"
  | .readChar _ => "READ_CHAR"
  | .readShort => "READ_SHORT"
  | .readInt => "READ_INT"
  | .readLong => "READ_LONG"
  | .readFloat => "READ_FLOAT"
  | .readDouble => "READ_DOUBLE"
  | .readText => "READ_TEXT"
  | .close => "CLOSE"

/-- The assembler line of R70: the mnemonic, followed for READ_BITS and READ_CHAR by the width in
decimal. -/
def asm : Instr → String
  | .readBits w => "READ_BITS " ++ toString w.toNat
  | .readChar w => "READ_CHAR " ++ toString w.toNat
  | .isAtEnd => mnemonic .isAtEnd
  | .readBit => mnemonic .readBit
  | .readByte => mnemonic .readByte
  | .readShort => mnemonic .readShort
  | .readInt => mnemonic .readInt
  | .readLong => mnemonic .readLong
  | .readFloat => mnemonic .readFloat
  | .readDouble => mnemonic .readDouble
  | .readText => mnemonic .readText
  | .close => mnemonic .close

end Instr

end Sys2Proof
end

