-- ==== Sys2Proof/Decode.lean ====
section
/-! DEFINITION. Decoding (spec/30_encoding.md R61 to R67): total on 16-bit words, reserved words
rejected by name; the encoder; the table of R62 as data; the listing of R70. -/

namespace Sys2Proof

/-- Why a word is reserved (R65). -/
inductive Reserved where
  /-- `op ∈ {0xC, 0xD, 0xE, 0xF}`. -/
  | unusedOp
  /-- `rsv ≠ 0` (R61). -/
  | rsvNotZero
  /-- `w ≠ 0` in a command without an operand (R64). -/
  | strayOperand
deriving DecidableEq, Repr

/-- The fields of the one format `oooo0000wwwwwwww` (R61). -/
def opField (c : CmdWord) : BitVec 4 := c.extractLsb' 12 4
/-- Bits 11:8 (R61). -/
def rsvField (c : CmdWord) : BitVec 4 := c.extractLsb' 8 4
/-- Bits 7:0 (R61). -/
def wField (c : CmdWord) : BitVec 8 := c.extractLsb' 0 8

/-- A command that takes no operand must carry `w = 0x00` (R64). -/
def noOperand (w : BitVec 8) (i : Instr) : Except Reserved Instr :=
  if w = 0 then .ok i else .error .strayOperand

/-- R62, R65: the decoder, total on 16-bit words. -/
def decode (c : CmdWord) : Except Reserved Instr :=
  let w := wField c
  if rsvField c ≠ 0 then .error .rsvNotZero
  else
    match (opField c).toNat with
    | 0x0 => noOperand w .isAtEnd
    | 0x1 => noOperand w .readBit
    | 0x2 => .ok (.readBits w)
    | 0x3 => noOperand w .readByte
    | 0x4 => .ok (.readChar w)
    | 0x5 => noOperand w .readShort
    | 0x6 => noOperand w .readInt
    | 0x7 => noOperand w .readLong
    | 0x8 => noOperand w .readFloat
    | 0x9 => noOperand w .readDouble
    | 0xA => noOperand w .readText
    | 0xB => noOperand w .close
    | _ => .error .unusedOp

/-- A word of the one format, from its `op` and `w` fields, with `rsv = 0000` (R61). -/
def formatWord (op : BitVec 4) (w : BitVec 8) : CmdWord := op ++ 0#4 ++ w

/-- The encoder, from the `op` column of R62. -/
def encode : Instr → CmdWord
  | .isAtEnd => formatWord 0x0#4 0
  | .readBit => formatWord 0x1#4 0
  | .readBits w => formatWord 0x2#4 w
  | .readByte => formatWord 0x3#4 0
  | .readChar w => formatWord 0x4#4 w
  | .readShort => formatWord 0x5#4 0
  | .readInt => formatWord 0x6#4 0
  | .readLong => formatWord 0x7#4 0
  | .readFloat => formatWord 0x8#4 0
  | .readDouble => formatWord 0x9#4 0
  | .readText => formatWord 0xA#4 0
  | .close => formatWord 0xB#4 0

/-- One row of the table of R62. -/
structure OpcodeRow where
  mnemonic : String
  pattern : CmdWord
  mask : CmdWord
deriving DecidableEq, Repr

/-- The `match` and `mask` columns of R62, row by row. -/
def opcodeRows : List OpcodeRow :=
  [⟨"IS_AT_END", 0x0000#16, 0xFFFF#16⟩, ⟨"READ_BIT", 0x1000#16, 0xFFFF#16⟩,
   ⟨"READ_BITS", 0x2000#16, 0xFF00#16⟩, ⟨"READ_BYTE", 0x3000#16, 0xFFFF#16⟩,
   ⟨"READ_CHAR", 0x4000#16, 0xFF00#16⟩, ⟨"READ_SHORT", 0x5000#16, 0xFFFF#16⟩,
   ⟨"READ_INT", 0x6000#16, 0xFFFF#16⟩, ⟨"READ_LONG", 0x7000#16, 0xFFFF#16⟩,
   ⟨"READ_FLOAT", 0x8000#16, 0xFFFF#16⟩, ⟨"READ_DOUBLE", 0x9000#16, 0xFFFF#16⟩,
   ⟨"READ_TEXT", 0xA000#16, 0xFFFF#16⟩, ⟨"CLOSE", 0xB000#16, 0xFFFF#16⟩]

/-- A word `c` selects a row iff `c & mask = match` (R62). -/
def OpcodeRow.selects (r : OpcodeRow) (c : CmdWord) : Bool := c &&& r.mask = r.pattern

/-- The instruction the decoder reads from a table row's word of `nbits` bits. -/
def decodeTableWord (nbits w : Nat) : Option Instr :=
  match decode (BitVec.ofNat 16 (w % 2 ^ nbits)) with
  | .ok i => some i
  | .error _ => none

/-- One hexadecimal digit, capital. -/
def hexDigit (d : BitVec 4) : String :=
  match d.toNat with
  | 0 => "0" | 1 => "1" | 2 => "2" | 3 => "3" | 4 => "4" | 5 => "5" | 6 => "6" | 7 => "7"
  | 8 => "8" | 9 => "9" | 10 => "A" | 11 => "B" | 12 => "C" | 13 => "D" | 14 => "E" | _ => "F"

/-- `.word 0xC000`: any word in hexadecimal (R70). -/
def wordDirective (c : CmdWord) : String :=
  ".word 0x" ++ hexDigit (c.extractLsb' 12 4) ++ hexDigit (c.extractLsb' 8 4)
    ++ hexDigit (c.extractLsb' 4 4) ++ hexDigit (c.extractLsb' 0 4)

/-- The listing line of a word: its command in assembler syntax, or `.word` for a word that has no
mnemonic (R70). -/
def disassemble (c : CmdWord) : String :=
  match decode c with
  | .ok i => i.asm
  | .error _ => wordDirective c

/-- A line of a program (R70): a command, or a raw word. -/
inductive AsmLine where
  | command (i : Instr)
  | word (c : CmdWord)
deriving DecidableEq, Repr

/-- The one word of a line; there are no pseudo-instructions (R71). -/
def AsmLine.assemble : AsmLine → CmdWord
  | .command i => encode i
  | .word c => c

/-- A program is a list of lines, one command word per line, executed top to bottom (R70). -/
def assemble (p : List AsmLine) : List CmdWord := p.map AsmLine.assemble

end Sys2Proof
end

