-- ==== Sys2Proof/Config.lean ====
section
/-! DEFINITION. The parameters of the block (spec/00_scope.md R6, R7) and the one value the spec
leaves open, the sequence SRC of source items (spec/20_memory.md R41). -/

namespace Sys2Proof

/-- One answer of the source (R41): a byte, or the end-of-stream marker. An I/O failure of the
source is `endOfStream` (R43); there is no third kind. -/
inductive SrcItem where
  | byte (v : Byte)
  | endOfStream
deriving DecidableEq, Repr, Inhabited

namespace Config

/-- `BITS_MAX`, the largest legal width of READ_BITS (R6). -/
def bitsMax : Nat := 32

/-- `CHAR_MAX`, the largest legal width of READ_CHAR (R6). -/
def charMax : Nat := 16

/-- `W_MIN`, the smallest legal width of both (R6). -/
def widthMin : Nat := 1

/-- `SHORT_BYTES` (R6). -/
def shortBytes : Nat := 2

/-- `INT_BYTES` (R6). -/
def intBytes : Nat := 4

/-- `LONG_BYTES` (R6). -/
def longBytes : Nat := 8

/-- FREE VALUE: the item of SRC at an index the state lists no item for. SRC is the spec's one
open parameter (R7, R41: "nothing about the items is fixed by the block"), so nothing is known
of it. DESIGN CHOICE, safe; log entry 1. -/
opaque srcItem : Nat → SrcItem

end Config

end Sys2Proof
end

