-- ==== Sys2Proof/Machine/State.lean ====
section
/-! DEFINITION. The state of the block (spec/10_state.md R20 to R34) with the parameters of the step
(the source, the command stream, the response record) as plain data beside it, the two model
faults, and the state after reset (R33, R170). -/

namespace Sys2Proof.Machine

/-- PHASE, the block's one control register (R27). -/
inductive Phase where
  /-- UNOPENED: nothing has been fetched from the source. -/
  | unopened
  /-- OPEN. -/
  | opened
  /-- CLOSED: the source has been released. -/
  | closed
deriving DecidableEq, Repr

/-- `rsp_status` (R68). The code `11` is never produced, so it has no constructor. -/
inductive Status where
  | ok
  | exhaustedInput
  | invalidArgument
deriving DecidableEq, Repr

/-- The two error kinds of R150. -/
inductive ErrorKind where
  /-- `raise Exhausted` (R151). -/
  | exhausted
  /-- `raise Invalid` (R152, R153). -/
  | invalid
deriving DecidableEq, Repr

/-- One beat of the response channel (R68). -/
structure Beat where
  status : Status
  last : Bool
  data : Data
deriving DecidableEq, Repr

/-- Why a step has no next state (R161). Both are the spec's own model faults. -/
inductive Fault where
  /-- Raised by every meaning but CLOSE's, and by a reserved word, in PHASE = CLOSED (R125 (b)).
  The spec gives no response and no next state, so stopping is safe. -/
  | useAfterClose
  /-- Raised by CLOSE in PHASE = UNOPENED (R126). The spec gives no response and no next state, so
  stopping is safe. -/
  | closeBeforeUse
deriving DecidableEq, Repr

/-- Why an instruction has no meaning. -/
inductive Refusal where
  /-- Raised by `exec` alone, for a command without a meaning; every command of this model has one,
  so no step raises it. Safe. -/
  | notModelled (mnemonic : String)
deriving DecidableEq, Repr

/-- The whole state. The first six fields are the block's registers; `inText` is the progress of a
READ_TEXT between its beats; the rest are the spec's parameters of the step, held as data. -/
structure State where
  /-- BUF, the lookahead byte (R21). -/
  buf : Byte
  /-- CNT, the count of unconsumed bits of BUF, `0..8` in 4 bits (R22). -/
  cnt : BitVec 4
  /-- EOS, the end-of-stream marker (R25). -/
  eos : Bool
  /-- PHASE (R27). -/
  phase : Phase
  /-- ACC, the working value; meaningless between commands (R28). Log entry 3. -/
  acc : Data
  /-- The output register `src_close` (R42, R124). -/
  srcClose : Bool
  /-- A READ_TEXT is running: accepted, its last beat not yet produced (R69). Log entry 4. -/
  inText : Bool
  /-- The listed items of SRC, from the source's own beginning (R41). Log entry 1. -/
  src : List SrcItem
  /-- How many items the source had yielded at the last reset (R172). Log entry 8. -/
  origin : Nat
  /-- `F`, the number of items taken since reset (R31). -/
  taken : Nat
  /-- The command words the requester has still to present, in order (R60). Log entry 6. -/
  cmds : List CmdWord
  /-- The response beats produced since the last reset, oldest first (R68, R69). Log entry 7. -/
  beats : List Beat
  /-- The beats produced before each reset, one list per reset, oldest first: a reset ends the response
  it falls into (R171). Log entry 8. -/
  past : List (List Beat)
deriving DecidableEq, Repr

/-- The state right after reset (R33, R170). The values of the model's own fields (`inText`, `src`,
`origin`, `cmds`, `beats`, `past`) are DESIGN CHOICE; log entries 1, 4, 6, 7, 8. -/
def State.reset : State where
  buf := 0x00#8
  cnt := 0#4
  eos := false
  phase := .unopened
  acc := 0#64
  srcClose := false
  inText := false
  src := []
  origin := 0
  taken := 0
  cmds := []
  beats := []
  past := []

end Sys2Proof.Machine
end

