-- ==== Sys2Proof/Machine/Flags.lean ====
section
/-! DEFINITION. The quantities the spec derives from the registers: bitsRemaining, ALIGNED, NB, POS
(spec/10_state.md R22, R24, R26), and the number a flag is delivered as (R68). -/

namespace Sys2Proof.Machine

/-- `bitsRemaining` of R22: −1 at end of stream, else CNT. -/
def State.bitsRemaining (s : State) : Int :=
  if s.eos then -1 else (s.cnt.toNat : Int)

/-- ALIGNED (R26): the cursor sits on a fresh byte boundary. -/
def State.aligned (s : State) : Bool := !s.eos && s.cnt = 8#4

/-- NB (R24): the number of `Byte` items fetched since reset; the `End` item is not one. -/
def State.byteCount (s : State) : Nat := s.taken - (if s.eos then 1 else 0)

/-- POS (R24): the number of tape bits consumed so far, `8 · NB − CNT`. -/
def State.pos (s : State) : Nat := 8 * s.byteCount - s.cnt.toNat

/-- A flag delivered as a number: bit 0 is the flag, bits 63:1 are 0 (R68). -/
def flagData (b : Bool) : Data := (BitVec.ofBool b).setWidth 64

end Sys2Proof.Machine
end

