-- ==== Sys2Proof/WellFormed.lean ====
section
/-! DEFINITION. Which commands carry a legal operand (spec/30_encoding.md R63). A command with an
illegal width is still a valid word: the decoder accepts it and executing it answers
INVALID_ARGUMENT (R152), so nothing below is a premise of decoding. -/

namespace Sys2Proof

/-- R63: the legal widths of READ_BITS, `1 ≤ width ≤ 32`, with `width = zext(w)`. -/
def legalBitsWidth (w : BitVec 8) : Bool :=
  Config.widthMin ≤ w.toNat && w.toNat ≤ Config.bitsMax

/-- R63: the legal widths of READ_CHAR, `1 ≤ width ≤ 16`. -/
def legalCharWidth (w : BitVec 8) : Bool :=
  Config.widthMin ≤ w.toNat && w.toNat ≤ Config.charMax

/-- R63: the command carries a legal operand. -/
def Instr.wellFormed : Instr → Bool
  | .isAtEnd => true
  | .readBit => true
  | .readBits w => legalBitsWidth w
  | .readByte => true
  | .readChar w => legalCharWidth w
  | .readShort => true
  | .readInt => true
  | .readLong => true
  | .readFloat => true
  | .readDouble => true
  | .readText => true
  | .close => true

end Sys2Proof
end

