-- ==== Sys2Proof/Machine/Operands.lean ====
section
/-! DEFINITION. The operand and result forms: the width operand (spec/30_encoding.md R63), bits and
bit fields of BUF (spec/00_scope.md R8, spec/10_state.md R23), zero extension and packing of
results and beats (R68). -/

namespace Sys2Proof.Machine

/-- `width = zext(w)` (R63): unsigned, not scaled, not shifted, not biased. -/
def widthOf (w : BitVec 8) : Nat := w.toNat

/-- `v[i]` (R8). -/
def bitOf (v : Byte) (i : Nat) : Bool := v.getLsbD i

/-- `v[n−1:0]` as an unsigned 8-bit value (R8). -/
def lowBits (v : Byte) (n : Nat) : Byte := (v.setWidth n).setWidth 8

/-- The byte composed on the unaligned path (R100): `(hi << (8 − n)) | (BUF >> n)`. -/
def joinByte (hi : Byte) (n : Nat) (next : Byte) : Byte := (hi <<< (8 - n)) ||| (next >>> n)

/-- `(ACC << 1) | bit` (R28). -/
def shiftInBit (acc : Data) (b : Bool) : Data := (acc <<< 1) ||| (BitVec.ofBool b).setWidth 64

/-- `(ACC << 8) | byte` (R28, R110). -/
def shiftInByte (acc : Data) (x : Byte) : Data := (acc <<< 8) ||| x.setWidth 64

/-- A byte delivered as a number, `zext_64(x)` (R68). -/
def byteData (x : Byte) : Data := x.setWidth 64

/-- The code of a status (R68). -/
def Status.code : Status → BitVec 2
  | .ok => 0b00#2
  | .exhaustedInput => 0b01#2
  | .invalidArgument => 0b10#2

/-- The status of a code; `11` is never produced and names none (R68). -/
def Status.ofCode (c : BitVec 2) : Option Status :=
  match c.toNat with
  | 0 => some .ok
  | 1 => some .exhaustedInput
  | 2 => some .invalidArgument
  | _ => none

/-- The status an error kind is reported as (R151, R152). -/
def ErrorKind.status : ErrorKind → Status
  | .exhausted => .exhaustedInput
  | .invalid => .invalidArgument

/-- A beat as the wires carry it: `{rsp_status[1:0], rsp_last, rsp_data[63:0]}` (R68). -/
def Beat.bits (b : Beat) : BitVec 67 := b.status.code ++ BitVec.ofBool b.last ++ b.data

end Sys2Proof.Machine
end

