-- ==== Sys2Proof/Machine/Ops.lean ====
section
/-! DEFINITION. The micro-operations every command is made of: SrcNext (spec/20_memory.md R41),
Refill and LazyInit (spec/40_refill_and_init.md R80, R83), respond (R68), raising an error (R10,
R157), Bit1 (R92), Byte1 (R100), the accumulating loops (R94, R110), reset (R170 to R172), and
taking the next command word (R60). -/

namespace Sys2Proof.Machine

/-- What a micro-operation that may `raise Exhausted` answers (R10). -/
inductive Got (α : Type) where
  | got (a : α)
  | exhausted
deriving DecidableEq, Repr

/-- The item of the source with index `k` from the source's own beginning: the listed one, or the
free item of an index that is not listed (R41). -/
def srcAt (src : List SrcItem) (k : Nat) : SrcItem :=
  match src[k]? with
  | some item => item
  | none => Config.srcItem k

/-- `s_k` of R41: the answer to the `k`-th call of SrcNext since reset. -/
def State.item (s : State) (k : Nat) : SrcItem := srcAt s.src (s.origin + k)

/-- The item the next call of SrcNext returns. -/
def State.nextItem (s : State) : SrcItem := s.item s.taken

/-- The register writes of Refill for the item it received (R80). -/
def State.latch (s : State) (item : SrcItem) : State :=
  match item with
  | .byte v => { s with buf := v, cnt := 8#4, eos := false }
  | .endOfStream => { s with buf := 0x00#8, cnt := 0#4, eos := true }

/-- `Refill()` (R80): takes exactly one item. -/
def refill (s : State) : State :=
  { s with taken := s.taken + 1 }.latch s.nextItem

/-- `LazyInit()` (R83). -/
def lazyInit (s : State) : State :=
  if s.phase = .unopened then { refill s with phase := .opened } else s

/-- One beat on the response channel (R68). -/
def State.emit (s : State) (b : Beat) : State := { s with beats := s.beats ++ [b] }

/-- `respond(status, data)`: the one, last beat of a command (R68). -/
def State.respond (s : State) (st : Status) (data : Data) : State := s.emit ⟨st, true, data⟩

/-- TAKING AN ERROR (R157, R158): the state is kept as it is at that point, the response carries the
kind's status and data 0, nothing is saved, no mode changes, and the block is idle again. There is
nothing to return from (R159). -/
def raiseError (k : ErrorKind) (s : State) : State := s.respond k.status 0

/-- The response of a command that delivers one number, or its `raise Exhausted`. -/
def finish (r : Got Data × State) : State :=
  match r with
  | (.got v, t) => t.respond .ok v
  | (.exhausted, t) => raiseError .exhausted t

/-- `Bit1()` (R92). -/
def bit1 (s : State) : Got Bool × State :=
  if s.eos then (.exhausted, s)
  else
    let c := s.cnt - 1
    let b := bitOf s.buf c.toNat
    let t := { s with cnt := c }
    (.got b, if c = 0 then refill t else t)

/-- `Byte1()` (R100): the aligned fast path and the unaligned path. -/
def byte1 (s : State) : Got Byte × State :=
  if s.eos then (.exhausted, s)
  else if s.cnt = 8#4 then (.got s.buf, refill s)
  else
    let n := s.cnt
    let hi := lowBits s.buf n.toNat
    let t := refill s
    if t.eos then (.exhausted, t)
    else (.got (joinByte hi n.toNat t.buf), { t with cnt := n })

/-- `repeat k times: ACC <- (ACC << 1) | Bit1()`, then deliver ACC (R94). -/
def shiftBits : Nat → State → Got Data × State
  | 0, s => (.got s.acc, s)
  | k + 1, s =>
    match bit1 s with
    | (.got b, t) => shiftBits k { t with acc := shiftInBit t.acc b }
    | (.exhausted, t) => (.exhausted, t)

/-- `repeat k times: ACC <- (ACC << 8) | Byte1()`, then deliver ACC (R110). -/
def shiftBytes : Nat → State → Got Data × State
  | 0, s => (.got s.acc, s)
  | k + 1, s =>
    match byte1 s with
    | (.got x, t) => shiftBytes k { t with acc := shiftInByte t.acc x }
    | (.exhausted, t) => (.exhausted, t)

/-- A read of `k` bits, bit by bit, with ACC cleared first (R28, R94). -/
def readBitsOp (k : Nat) (s : State) : State := finish (shiftBits k { s with acc := 0 })

/-- A read of `k` bytes, byte by byte, with ACC cleared first (R28, R110). -/
def readBytesOp (k : Nat) (s : State) : State := finish (shiftBytes k { s with acc := 0 })

/-- Whether a READ_TEXT is still running (R69). -/
def State.withText (s : State) (running : Bool) : State := { s with inText := running }

/-- One turn of READ_TEXT's loop (R120): a unit, delivered in a beat of its own that is the last iff
it left the cursor at end (R69); or the raise, whose beat is the last (R122). -/
def textBeat (s : State) : State :=
  match byte1 s with
  | (.got u, t) => (t.emit ⟨.ok, t.eos, byteData u⟩).withText (!t.eos)
  | (.exhausted, t) => (raiseError .exhausted t).withText false

/-- A command's body where PHASE is not CLOSED, and the fault of R125 (b) where it is (R156). -/
def unlessClosed (s : State) (body : State → State) : Host.Outcome State Fault Refusal :=
  match s.phase with
  | .closed => .fault .useAfterClose
  | .unopened => .next (body s)
  | .opened => .next (body s)

/-- A reserved word (R65, R153), in the order of R72: the closed phase first. -/
def execReserved (s : State) : Host.Outcome State Fault Refusal :=
  unlessClosed s (raiseError .invalid)

/-- Accepting a command word: the requester presents the next one (R60). -/
def nextCommand (s : State) : Option (CmdWord × State) :=
  match s.cmds with
  | [] => none
  | c :: rest => some (c, { s with cmds := rest })

/-- Reset between commands or beats (R170 to R172): the registers take their reset values, a running
READ_TEXT is abandoned, the source is not rewound, the requester keeps its words, and the record of
beats starts anew, so that no beat after the reset continues a response of before it. An event from
outside: `step` never does it. Log entry 8. -/
def State.applyReset (s : State) : State :=
  { State.reset with
    src := s.src, origin := s.origin + s.taken, cmds := s.cmds, past := s.past ++ [s.beats] }

/-- A block just reset, with a source that lists `src` and a requester that will present `cmds`. -/
def State.start (src : List SrcItem) (cmds : List CmdWord) : State :=
  { State.reset with src := src, cmds := cmds }

/-- The answer to a command at the transaction level (R5, R122): a status and the values delivered,
one for a command that delivers a number, the units for READ_TEXT, none on an error. -/
structure Response where
  status : Status
  values : List Data
deriving DecidableEq, Repr

/-- The responses that a sequence of beats makes up (R69): units are gathered up to the last beat,
and an error voids the units already transferred. `units` are those gathered so far; a response
whose last beat has not come is not listed. -/
def gather : List Data → List Beat → List Response
  | _, [] => []
  | units, b :: rest =>
    match b.last, b.status with
    | false, _ => gather (units ++ [b.data]) rest
    | true, .ok => ⟨.ok, units ++ [b.data]⟩ :: gather [] rest
    | true, .exhaustedInput => ⟨.exhaustedInput, []⟩ :: gather [] rest
    | true, .invalidArgument => ⟨.invalidArgument, []⟩ :: gather [] rest

/-- The responses given so far, over all resets: a response that a reset cut off gives none, and its
units are in no other (R122, R171). -/
def State.responses (s : State) : List Response := (s.past ++ [s.beats]).flatMap (gather [])

end Sys2Proof.Machine
end

