-- ==== Sys2Proof/Machine/BitReads.lean ====
section
/-! DEFINITION. IS_AT_END, READ_BIT, READ_BITS (spec/41_query_and_bit_reads.md). -/

namespace Sys2Proof.Machine

/-- IS_AT_END (R90): delivers EOS; writes nothing after the initialisation. -/
def execIsAtEnd (s : State) : Host.Outcome State Fault Refusal :=
  unlessClosed s fun s =>
    let t := lazyInit s
    t.respond .ok (flagData t.eos)

/-- READ_BIT (R93). -/
def execReadBit (s : State) : Host.Outcome State Fault Refusal :=
  unlessClosed s fun s => readBitsOp 1 (lazyInit s)

/-- READ_BITS w (R94): the width is checked before the initialisation (R72, R152). -/
def execReadBits (w : BitVec 8) (s : State) : Host.Outcome State Fault Refusal :=
  unlessClosed s fun s =>
    if legalBitsWidth w then readBitsOp (widthOf w) (lazyInit s) else raiseError .invalid s

end Sys2Proof.Machine
end

