-- ==== Sys2Proof/Machine/ByteReads.lean ====
section
/-! DEFINITION. READ_BYTE, READ_CHAR (spec/42_byte_and_char_reads.md) and the composites READ_SHORT,
READ_INT, READ_LONG, READ_FLOAT, READ_DOUBLE (spec/43_composite_reads.md). -/

namespace Sys2Proof.Machine

/-- READ_BYTE (R103). -/
def execReadByte (s : State) : Host.Outcome State Fault Refusal :=
  unlessClosed s fun s => readBytesOp 1 (lazyInit s)

/-- READ_CHAR w (R104): the byte path when `w = 8`, else bit by bit. -/
def execReadChar (w : BitVec 8) (s : State) : Host.Outcome State Fault Refusal :=
  unlessClosed s fun s =>
    if legalCharWidth w then
      if widthOf w = 8 then readBytesOp 1 (lazyInit s) else readBitsOp (widthOf w) (lazyInit s)
    else raiseError .invalid s

/-- READ_SHORT (R111): ByteN(2). -/
def execReadShort (s : State) : Host.Outcome State Fault Refusal :=
  unlessClosed s fun s => readBytesOp Config.shortBytes (lazyInit s)

/-- READ_INT (R112): ByteN(4), zero-extended. -/
def execReadInt (s : State) : Host.Outcome State Fault Refusal :=
  unlessClosed s fun s => readBytesOp Config.intBytes (lazyInit s)

/-- READ_LONG (R113): ByteN(8). -/
def execReadLong (s : State) : Host.Outcome State Fault Refusal :=
  unlessClosed s fun s => readBytesOp Config.longBytes (lazyInit s)

/-- READ_FLOAT (R115): the binary32 pattern, unchanged (R114). -/
def execReadFloat (s : State) : Host.Outcome State Fault Refusal :=
  unlessClosed s fun s => readBytesOp Config.intBytes (lazyInit s)

/-- READ_DOUBLE (R116): the binary64 pattern, unchanged (R114). -/
def execReadDouble (s : State) : Host.Outcome State Fault Refusal :=
  unlessClosed s fun s => readBytesOp Config.longBytes (lazyInit s)

end Sys2Proof.Machine
end

