-- ==== Sys2Proof/Machine/TextClose.lean ====
section
/-! DEFINITION. READ_TEXT and CLOSE (spec/44_text_and_close.md). -/

namespace Sys2Proof.Machine

/-- READ_TEXT (R120 to R123): the entry test and the first turn of the loop. While units remain
`inText` is set and each further step is one more turn (log entry 4). -/
def execReadText (s : State) : Host.Outcome State Fault Refusal :=
  unlessClosed s fun s =>
    let t := lazyInit s
    if t.eos then raiseError .exhausted t else textBeat t

/-- CLOSE: R124 in OPEN, R125 (a) in CLOSED, the fault of R126 in UNOPENED. -/
def execClose (s : State) : Host.Outcome State Fault Refusal :=
  match s.phase with
  | .unopened => .fault .closeBeforeUse
  | .opened => .next ({ s with phase := .closed, srcClose := true }.respond .ok 0)
  | .closed => .next (s.respond .ok 0)

end Sys2Proof.Machine
end

