-- ==== Sys2Proof/Machine/Dispatch.lean ====
section
/-! DEFINITION. One arm per command of spec/30_encoding.md R62. -/

namespace Sys2Proof.Machine

/-- The meaning of a command. -/
def exec (i : Instr) (s : State) : Host.Outcome State Fault Refusal :=
  match i with
  | .isAtEnd => Sys2Proof.Machine.execIsAtEnd s
  | .readBit => Sys2Proof.Machine.execReadBit s
  | .readBits w => Sys2Proof.Machine.execReadBits w s
  | .readByte => Sys2Proof.Machine.execReadByte s
  | .readChar w => Sys2Proof.Machine.execReadChar w s
  | .readShort => Sys2Proof.Machine.execReadShort s
  | .readInt => Sys2Proof.Machine.execReadInt s
  | .readLong => Sys2Proof.Machine.execReadLong s
  | .readFloat => Sys2Proof.Machine.execReadFloat s
  | .readDouble => Sys2Proof.Machine.execReadDouble s
  | .readText => Sys2Proof.Machine.execReadText s
  | .close => Sys2Proof.Machine.execClose s

end Sys2Proof.Machine
end

