-- ==== Sys2Proof/Machine/Step.lean ====
section
/-! DEFINITION. One step of the block at the transaction level (spec/00_scope.md R5): the next turn
of a running READ_TEXT, or the next command word, decoded in the order of R72 and executed. -/

namespace Sys2Proof.Machine

/-- One step. With READ_TEXT running no command is accepted (R60); with no word presented the block
stays idle (log entry 6). -/
def step (s : State) : Host.Outcome State Fault Refusal :=
  if s.inText then .next (textBeat s)
  else
    match nextCommand s with
    | none => .next s
    | some (c, t) =>
      match decode c with
      | .ok i => exec i t
      | .error _ => execReserved t

/-- `s` with a command word as the one the requester presents next, and the block idle, so that the
next step accepts it (log entry 6). -/
def State.withFetchWord (s : State) (nbits w : Nat) : State :=
  { s with cmds := BitVec.ofNat 16 (w % 2 ^ nbits) :: s.cmds.tail, inText := false }

end Sys2Proof.Machine
end

