-- ==== Sys2Proof/Machine/Signal.lean ====
section
/-! DEFINITION. The signal level (spec/45_sequencing_and_arithmetic.md R136 to R139): the ports, the
reference FSM clocked once per rising edge, and the closed system of block, source, requester and
consumer with arbitrary delays. Illustrative hardware below the transaction level (R5, R140); log
entries 11 and 12. -/

namespace Sys2Proof.Machine.Signal

/-- The input ports of R136, sampled at the rising edge. -/
structure Inputs where
  rst : Bool
  cmdValid : Bool
  cmd : CmdWord
  rspReady : Bool
  srcValid : Bool
  srcData : Byte
  srcEos : Bool
  srcErr : Bool
deriving DecidableEq, Repr

/-- The output ports of R136. -/
structure Outputs where
  cmdReady : Bool
  rspValid : Bool
  rspStatus : BitVec 2
  rspLast : Bool
  rspData : Data
  srcReady : Bool
  srcClose : Bool
deriving DecidableEq, Repr

/-- The six sequencer states of R137. -/
inductive Seq where
  | idle
  | decode
  | step
  | fill
  | resp
  | dead
deriving DecidableEq, Repr

/-- Who asked for the refill, with what it needs to finish its step (R138). -/
inductive Pending where
  /-- No refill is due. -/
  | nothing
  /-- `LazyInit()`, from S_DECODE. -/
  | initial
  /-- `Bit1()`. -/
  | bit
  /-- `Byte1()`, fast path: the byte already taken. -/
  | wholeByte (x : Byte)
  /-- `Byte1()`, unaligned path: `n` and `hi` of R100. -/
  | splitByte (n : BitVec 4) (hi : Byte)
deriving DecidableEq, Repr

/-- The registers of the reference design (R137). -/
structure Block where
  seq : Seq
  buf : Byte
  cnt : BitVec 4
  eos : Bool
  phase : Phase
  acc : Data
  srcClose : Bool
  /-- OPC, the accepted command word. -/
  opc : CmdWord
  /-- ITER, the steps left. -/
  iter : BitVec 6
  pending : Pending
  /-- The beat offered in S_RESP. -/
  beat : Beat
  /-- `rst` was 1 at the last edge (R170). -/
  inReset : Bool
deriving DecidableEq, Repr

/-- The registers after an edge with `rst = 1` (R170). -/
def Block.reset : Block where
  seq := .idle
  buf := 0x00#8
  cnt := 0#4
  eos := false
  phase := .unopened
  acc := 0
  srcClose := false
  opc := 0
  iter := 0
  pending := .nothing
  beat := ⟨.ok, false, 0⟩
  inReset := true

/-- Whether the steps of a command are bits or bytes (R134). -/
inductive StepKind where
  | bits
  | bytes
deriving DecidableEq, Repr

/-- The kind and the number of steps of a read (R134); none for IS_AT_END and CLOSE. READ_TEXT counts
one byte step per turn (log entry 12). -/
def stepsOf : Instr → Option (StepKind × Nat)
  | .isAtEnd => none
  | .readBit => some (.bits, 1)
  | .readBits w => some (.bits, widthOf w)
  | .readByte => some (.bytes, 1)
  | .readChar w => if widthOf w = 8 then some (.bytes, 1) else some (.bits, widthOf w)
  | .readShort => some (.bytes, Config.shortBytes)
  | .readInt => some (.bytes, Config.intBytes)
  | .readLong => some (.bytes, Config.longBytes)
  | .readFloat => some (.bytes, Config.intBytes)
  | .readDouble => some (.bytes, Config.longBytes)
  | .readText => some (.bytes, 1)
  | .close => none

/-- OPC holds READ_TEXT. -/
def Block.isText (b : Block) : Bool :=
  match decode b.opc with
  | .ok .readText => true
  | .ok _ => false
  | .error _ => false

/-- OPC holds a command whose steps are bytes. -/
def Block.stepsAreBytes (b : Block) : Bool :=
  match decode b.opc with
  | .ok i =>
    match stepsOf i with
    | some (.bytes, _) => true
    | some (.bits, _) => false
    | none => false
  | .error _ => false

/-- Offer a beat (S_RESP). -/
def Block.offer (b : Block) (beat : Beat) : Block :=
  { b with seq := .resp, pending := .nothing, beat := beat }

/-- Offer the one beat of an error (R68). -/
def Block.offerError (b : Block) (k : ErrorKind) : Block := b.offer ⟨k.status, true, 0⟩

/-- Go to S_FILL on behalf of `p`. -/
def Block.fillFor (b : Block) (p : Pending) : Block := { b with seq := .fill, pending := p }

/-- Count a finished step of a numeric read: ITER goes down, and at 0 the value is offered (R138). -/
def Block.countStep (b : Block) : Block :=
  let left := b.iter - 1
  let c := { b with seq := .step, pending := .nothing, iter := left }
  if left = 0 then c.offer ⟨.ok, true, c.acc⟩ else c

/-- A finished byte step: READ_TEXT offers the unit with `rsp_last = EOS`; a numeric read accumulates
and counts (R138). -/
def Block.finishByte (b : Block) (x : Byte) : Block :=
  if b.isText then b.offer ⟨.ok, b.eos, byteData x⟩
  else { b with acc := shiftInByte b.acc x }.countStep

/-- S_DECODE (R138): R72 on OPC. -/
def Block.onDecode (b : Block) : Block :=
  match b.phase, decode b.opc with
  | .closed, .ok .close => b.offer ⟨.ok, true, 0⟩
  | .closed, _ => { b with seq := .dead }
  | _, .error _ => b.offerError .invalid
  | .unopened, .ok .close => { b with seq := .dead }
  | .opened, .ok .close => { b with phase := .closed, srcClose := true }.offer ⟨.ok, true, 0⟩
  | .unopened, .ok i => if i.wellFormed then b.fillFor .initial else b.offerError .invalid
  | .opened, .ok i =>
    if i.wellFormed then
      match stepsOf i with
      | none => b.offer ⟨.ok, true, flagData b.eos⟩
      | some (_, k) =>
        if b.eos then b.offerError .exhausted
        else { b with seq := .step, iter := BitVec.ofNat 6 k, acc := 0 }
    else b.offerError .invalid

/-- A fresh bit step up to its refill (R92). -/
def Block.bitStep (b : Block) : Block :=
  if b.eos then b.offerError .exhausted
  else
    let c := b.cnt - 1
    let t := { b with cnt := c, acc := shiftInBit b.acc (bitOf b.buf c.toNat) }
    if c = 0 then t.fillFor .bit else t.countStep

/-- A fresh byte step up to its refill (R100). -/
def Block.byteStep (b : Block) : Block :=
  if b.eos then b.offerError .exhausted
  else if b.cnt = 8#4 then b.fillFor (.wholeByte b.buf)
  else b.fillFor (.splitByte b.cnt (lowBits b.buf b.cnt.toNat))

/-- S_STEP (R138): finish the step that waited for a refill, or start the next one. -/
def Block.onStep (b : Block) : Block :=
  match b.pending with
  | .bit => b.countStep
  | .wholeByte x => b.finishByte x
  | .splitByte n hi =>
    if b.eos then b.offerError .exhausted
    else { b with cnt := n }.finishByte (joinByte hi n.toNat b.buf)
  | .nothing => if b.stepsAreBytes then b.byteStep else b.bitStep
  | .initial => if b.stepsAreBytes then b.byteStep else b.bitStep

/-- The item on the source channel: an I/O failure is an `End` (R42, R43). -/
def Inputs.item (i : Inputs) : SrcItem :=
  if i.srcEos || i.srcErr then .endOfStream else .byte i.srcData

/-- The register writes of Refill (R80), and the return to the state that asked (R138). -/
def Block.onItem (b : Block) (item : SrcItem) : Block :=
  let t := match item with
    | .byte v => { b with buf := v, cnt := 8#4, eos := false }
    | .endOfStream => { b with buf := 0x00#8, cnt := 0#4, eos := true }
  match b.pending with
  | .initial => { t with seq := .decode, pending := .nothing, phase := .opened }
  | .nothing => { t with seq := .step }
  | .bit => { t with seq := .step }
  | .wholeByte _ => { t with seq := .step }
  | .splitByte _ _ => { t with seq := .step }

/-- S_RESP when the beat is taken (R138): idle after the last beat, else the next turn of
READ_TEXT. -/
def Block.onTaken (b : Block) : Block :=
  if b.beat.last then { b with seq := .idle } else { b with seq := .step, iter := 1 }

/-- S_IDLE when a command is transferred (R60, R138). -/
def Block.accept (b : Block) (c : CmdWord) : Block :=
  { b with seq := .decode, opc := c, pending := .nothing }

/-- The outputs: those R137 lists for the state, 0 otherwise; `cmd_ready` is 0 during reset (R170);
`src_close` is a register (R42, R124), not one of the per-state outputs (log entry 12). -/
def Block.outputs (b : Block) : Outputs where
  cmdReady := b.seq = .idle && !b.inReset
  rspValid := b.seq = .resp
  rspStatus := if b.seq = .resp then b.beat.status.code else 0
  rspLast := b.seq = .resp && b.beat.last
  rspData := if b.seq = .resp then b.beat.data else 0
  srcReady := b.seq = .fill
  srcClose := b.srcClose

/-- One rising edge of `clk` (R136 to R138). -/
def Block.clock (b : Block) (i : Inputs) : Block :=
  if i.rst then Block.reset
  else
    let c := { b with inReset := false }
    match b.seq with
    | .idle => if b.outputs.cmdReady && i.cmdValid then c.accept i.cmd else c
    | .decode => c.onDecode
    | .step => c.onStep
    | .fill => if i.srcValid then c.onItem i.item else c
    | .resp => if i.rspReady then c.onTaken else c
    | .dead => c

/-- What the wires carry that no rule reads: `cmd` while `cmd_valid = 0`, `src_data` while
`src_valid = 0` or with an `End`, the end flags while `src_valid = 0`. The spec allows any value (93
V3), so it is the environment's, at every edge anew. Log entry 13. -/
structure Noise where
  cmd : CmdWord
  data : Byte
  eos : Bool
  err : Bool
deriving DecidableEq, Repr

/-- Which end wires a source raises for an `End`: R42 makes each of the three an `End`, and the source
chooses one at every edge anew. Log entry 13. -/
inductive EndWires where
  /-- `src_eos = 1` alone. -/
  | eos
  /-- `src_err = 1` alone: an I/O failure (R43). -/
  | err
  /-- Both. -/
  | both
deriving DecidableEq, Repr

/-- The value of `src_eos` with an `End`. -/
def EndWires.srcEos : EndWires → Bool
  | .eos => true
  | .err => false
  | .both => true

/-- The value of `src_err` with an `End`. -/
def EndWires.srcErr : EndWires → Bool
  | .eos => false
  | .err => true
  | .both => true

/-- The environment's choices at one edge: whether reset is asserted, who is ready, which wires show an
`End`, and the values of the wires no rule reads. Every delay of R185 is a
sequence of such choices. An offer may be withdrawn before it is taken, which the duties of R185
forbid: one more behaviour than the spec's. Log entry 13. -/
structure Choice where
  rst : Bool
  offerCmd : Bool
  offerItem : Bool
  takeBeat : Bool
  endWires : EndWires
  noise : Noise
deriving DecidableEq, Repr

/-- The block with its source, requester and consumer. -/
structure System where
  block : Block
  src : List SrcItem
  origin : Nat
  taken : Nat
  cmds : List CmdWord
  beats : List Beat
  past : List (List Beat)
deriving DecidableEq, Repr

/-- A system whose block has been reset and released from reset. -/
def System.start (src : List SrcItem) (cmds : List CmdWord) : System where
  block := { Block.reset with inReset := false }
  src := src
  origin := 0
  taken := 0
  cmds := cmds
  beats := []
  past := []

/-- The item the source will answer with next. -/
def System.nextItem (y : System) : SrcItem := srcAt y.src (y.origin + y.taken)

/-- The word on `cmd`, where the requester offers one. -/
def System.offeredCmd (y : System) (e : Choice) : Option CmdWord :=
  if e.offerCmd then y.cmds.head? else none

/-- The block's inputs under the environment's choices: what an offer makes of the wires, and noise on
the rest (93 V3; log entry 13). -/
def System.inputs (y : System) (e : Choice) : Inputs where
  rst := e.rst
  cmdValid := (y.offeredCmd e).isSome
  cmd := (y.offeredCmd e).getD e.noise.cmd
  rspReady := e.takeBeat
  srcValid := e.offerItem
  srcData := match e.offerItem, y.nextItem with
    | true, .byte v => v
    | true, .endOfStream => e.noise.data
    | false, _ => e.noise.data
  srcEos := match e.offerItem, y.nextItem with
    | true, .byte _ => false
    | true, .endOfStream => e.endWires.srcEos
    | false, _ => e.noise.eos
  srcErr := match e.offerItem, y.nextItem with
    | true, .byte _ => false
    | true, .endOfStream => e.endWires.srcErr
    | false, _ => e.noise.err

/-- One edge of the closed system: on each channel a transfer happens iff both sides are ready (R42,
R60, R68). A reset starts a new count of the items taken and a new record of beats and does not rewind
the source (R171, R172); log entry 8. -/
def System.tick (y : System) (e : Choice) : System :=
  let i := y.inputs e
  let o := y.block.outputs
  let taken := if o.srcReady && i.srcValid then y.taken + 1 else y.taken
  let beats := if o.rspValid && i.rspReady then y.beats ++ [y.block.beat] else y.beats
  { y with
    block := y.block.clock i
    origin := if e.rst then y.origin + taken else y.origin
    taken := if e.rst then 0 else taken
    cmds := if o.cmdReady && i.cmdValid then y.cmds.tail else y.cmds
    beats := if e.rst then [] else beats
    past := if e.rst then y.past ++ [beats] else y.past }

/-- Edges under a schedule of choices. -/
def System.ticks (y : System) : List Choice → System
  | [] => y
  | e :: rest => (y.tick e).ticks rest

/-- The system after `k` edges of an unbounded schedule. -/
def System.run (y : System) (sched : Nat → Choice) : Nat → System
  | 0 => y
  | k + 1 => (y.run sched k).tick (sched k)

/-- The fairness of R183 and R139, and nothing stronger: no reset; a word is offered at some time after
the block became idle with one to come; every request of the block is answered at some time; every
beat it offers is taken at some time. Every delay is finite and none is bounded. -/
structure System.Fair (y : System) (sched : Nat → Choice) : Prop where
  noReset : ∀ k, (sched k).rst = false
  presents : ∀ k, (y.run sched k).block.seq = .idle → (y.run sched k).cmds ≠ [] →
    ∃ m ≥ k, (sched m).offerCmd = true
  answers : ∀ k, (y.run sched k).block.seq = .fill → ∃ m ≥ k, (sched m).offerItem = true
  takes : ∀ k, (y.run sched k).block.seq = .resp → ∃ m ≥ k, (sched m).takeBeat = true

/-- Noise that is 0 on every wire. -/
def Noise.quiet : Noise := ⟨0, 0, false, false⟩

/-- Everyone is ready, no reset; an `End` shown as `src_eos` alone and 0 on the unread wires, one choice
among the spec's (log entry 13). -/
def promptChoice : Choice := ⟨false, true, true, true, .eos, .quiet⟩

/-- `k` edges with everyone ready. -/
def System.prompt (y : System) (k : Nat) : System := y.ticks (List.replicate k promptChoice)

/-- The system's block agrees with a transaction-level state between commands (R140): the registers
but ACC, which is meaningless then (R28), the items taken, the words not yet presented and the beats
delivered since the last reset and before each. -/
def System.Agrees (y : System) (s : State) : Prop :=
  y.block.buf = s.buf ∧ y.block.cnt = s.cnt ∧ y.block.eos = s.eos ∧ y.block.phase = s.phase ∧
  y.block.srcClose = s.srcClose ∧ y.src = s.src ∧ y.origin = s.origin ∧ y.taken = s.taken ∧
  y.cmds = s.cmds ∧ y.beats = s.beats ∧ y.past = s.past ∧ s.inText = false

end Sys2Proof.Machine.Signal
end

