-- ==== Sys2Proof/Machine/Tape.lean ====
section
/-! DEFINITION. The tape of spec/00_scope.md R9 and the quantities the laws over it are stated with:
the length N of the stream (R41), the bits that remain, the value of a field, the width of a read
(spec/45_sequencing_and_arithmetic.md R132), and where the registers stand for a tape position. -/

namespace Sys2Proof.Machine

/-- The item is a byte. -/
def isByte : SrcItem → Bool
  | .byte _ => true
  | .endOfStream => false

/-- The data of an item, 0 for `End`. -/
def itemByte : SrcItem → Byte
  | .byte v => v
  | .endOfStream => 0x00#8

/-- `N = n`: item `n` is the first that is not a byte (R41). -/
def State.StreamLength (s : State) (n : Nat) : Prop :=
  s.item n = .endOfStream ∧ ∀ k < n, isByte (s.item k) = true

/-- `b_k` (R41). -/
def State.streamByte (s : State) (k : Nat) : Byte := itemByte (s.item k)

/-- `T[p]`, with `T[8k + j] = b_k[7 − j]` (R9). -/
def State.tapeBit (s : State) (p : Nat) : Bool := bitOf (s.streamByte (p / 8)) (7 - p % 8)

/-- The field of `w` bits at tape index `p`: `Σ_{i<w} T[p+i] · 2^(w−1−i)` (R9). -/
def State.tapeField (s : State) (p w : Nat) : Nat :=
  ∑ i ∈ Finset.range w, (s.tapeBit (p + i)).toNat * 2 ^ (w - 1 - i)

/-- At least `w` bits remain, `POS + w ≤ 8N` (R132): every byte the next `w` bits touch is there. -/
def State.BitsRemain (s : State) (w : Nat) : Prop :=
  ∀ k < (s.pos + w + 7) / 8, isByte (s.item k) = true

/-- The width of a read with a legal operand (R132); none for IS_AT_END, READ_TEXT, CLOSE and for an
illegal width. -/
def readWidth : Instr → Option Nat
  | .isAtEnd => none
  | .readBit => some 1
  | .readBits w => if legalBitsWidth w then some w.toNat else none
  | .readByte => some 8
  | .readChar w => if legalCharWidth w then some w.toNat else none
  | .readShort => some 16
  | .readInt => some 32
  | .readLong => some 64
  | .readFloat => some 32
  | .readDouble => some 64
  | .readText => none
  | .close => none

/-- The end state (R157): EOS = 1, CNT = 0, BUF = 0x00. -/
def State.AtEnd (s : State) : Prop := s.eos = true ∧ s.cnt = 0#4 ∧ s.buf = 0x00#8

/-- The registers and the item count of an initialised block at tape position `p` (R132, R31): on a
byte, EOS = 0, CNT = 8 − (p mod 8), BUF = that byte; at the end of the tape, the end state. -/
def State.AtTape (s : State) (p : Nat) : Prop :=
  s.taken = p / 8 + 1 ∧ (∀ k < p / 8, isByte (s.item k) = true) ∧
  (∀ v, s.item (p / 8) = .byte v → s.eos = false ∧ s.buf = v ∧ s.cnt.toNat = 8 - p % 8) ∧
  (s.item (p / 8) = .endOfStream → p % 8 = 0 ∧ s.AtEnd)

/-- The same state but for ACC, which is meaningless between commands (R28). -/
def State.forgetAcc (s : State) : State := { s with acc := 0 }

/-- `t` is `s` with at most the cursor moved on: BUF, CNT, EOS, ACC and the item count may differ, and
items are only ever taken, never given back (R47). -/
def SameButCursor (s t : State) : Prop :=
  t.phase = s.phase ∧ t.srcClose = s.srcClose ∧ t.inText = s.inText ∧ t.src = s.src ∧
  t.origin = s.origin ∧ t.cmds = s.cmds ∧ t.beats = s.beats ∧ t.past = s.past ∧
  s.taken ≤ t.taken

end Sys2Proof.Machine
end

