-- ==== Sys2Proof/Safety.lean ====
section
/-! DEFINITION. What counts as a good state and a good run: the invariant of spec/10_state.md R27,
the agreement of the registers with the stream (R31, R132), the requester's lifecycle duty
(spec/70_reset_and_hazards.md R178), and runs that meet no model fault
(spec/60_exceptions.md R161). -/

namespace Sys2Proof.Machine

/-- R27, R34: outside UNOPENED either the end state or a byte with 1 to 8 unconsumed bits; in
UNOPENED the reset values stand, and no READ_TEXT runs outside OPEN. -/
def State.RegistersLegal (s : State) : Prop :=
  (s.phase ≠ .unopened →
    s.AtEnd ∨ (s.eos = false ∧ 1 ≤ s.cnt.toNat ∧ s.cnt.toNat ≤ 8)) ∧
  (s.phase = .unopened → s.eos = false ∧ s.cnt = 0#4 ∧ s.buf = 0x00#8) ∧
  (s.inText = true → s.phase = .opened)

/-- The registers agree with the stream: outside UNOPENED they stand at the tape position POS, in
UNOPENED nothing has been taken (R31, R33, R132); `src_close` is 1 exactly in CLOSED (R42, R124); a
READ_TEXT runs only in OPEN and not at end (R120). -/
structure State.Coherent (s : State) : Prop where
  opened : s.phase ≠ .unopened → s.AtTape s.pos
  unopened : s.phase = .unopened → s.taken = 0 ∧ s.eos = false ∧ s.cnt = 0#4 ∧ s.buf = 0x00#8
  closeWire : s.srcClose = true ↔ s.phase = .closed
  text : s.inText = true → s.phase = .opened ∧ s.eos = false

/-- R31 as the law of the item count alone, with nothing said of BUF: nothing taken in UNOPENED;
outside it `F = min(⌊POS / 8⌋, N) + 1`, where `N` may lie anywhere beyond POS or nowhere, and EOS tells
whether the item taken last was `End` (R25). -/
structure State.OneItemAhead (s : State) : Prop where
  unopened : s.phase = .unopened → s.taken = 0
  finite : s.phase ≠ .unopened → ∀ n, s.StreamLength n → s.taken = min (s.pos / 8) n + 1
  goesOn : s.phase ≠ .unopened → (∀ k ≤ s.pos / 8, isByte (s.item k) = true) →
    s.taken = s.pos / 8 + 1
  ended : s.phase ≠ .unopened → (s.eos = true ↔ s.item (s.taken - 1) = .endOfStream)

/-- Exactly when a READ_TEXT runs is the last beat produced since reset not flagged `rsp_last` (R60,
R69). -/
def State.BeatsInStep (s : State) : Prop :=
  match s.beats.getLast? with
  | none => s.inText = false
  | some b => s.inText = !b.last

/-- `t` is `s` after a command other than CLOSE that answered with the beat `b`: the channels, the
source and `src_close` are as they were, and items are only ever taken. -/
def Answered (s t : State) (b : Beat) : Prop :=
  t.beats = s.beats ++ [b] ∧ t.past = s.past ∧ t.cmds = s.cmds ∧ t.src = s.src ∧
  t.origin = s.origin ∧
  t.srcClose = s.srcClose ∧ s.taken ≤ t.taken

/-- The state without what the requester was told and without ACC, to compare two ways of reading the
same bits. -/
def State.forgetAnswers (s : State) : State := { s with acc := 0, beats := [] }

/-- The phase a command word leaves the block in, or none where it is a model fault (R72, R125,
R126). -/
def phaseAfter (p : Phase) (c : CmdWord) : Option Phase :=
  match p, decode c with
  | .closed, .ok .close => some .closed
  | .closed, _ => none
  | .opened, .ok .close => some .closed
  | .opened, _ => some .opened
  | .unopened, .ok .close => none
  | .unopened, .ok i => if i.wellFormed then some .opened else some .unopened
  | .unopened, .error _ => some .unopened

/-- The requester's lifecycle duty (R178): CLOSE is not the first valid command, and nothing but
CLOSE follows CLOSE. -/
def lawful : Phase → List CmdWord → Bool
  | _, [] => true
  | p, c :: rest =>
    match phaseAfter p c with
    | some q => lawful q rest
    | none => false

/-- `k` steps of the machine. -/
def runSteps (k : Nat) (s : State) : Host.Outcome State Fault Refusal := Sys2Proof.core.run k s

/-- A run that meets no fault within `k` steps (R161). -/
def State.GoodFor (s : State) (k : Nat) : Prop := ∃ t, runSteps k s = .next t

/-- The block is idle with nothing to do: the end of a run of a program (R174). -/
def State.Finished (s : State) : Prop := s.inText = false ∧ s.cmds = []

end Sys2Proof.Machine
end

