-- ==== Sys2Proof/Certificates/Slice0/Obligations.lean ====
section
/-! DEFINITION. The statements for the provers. Each docstring names the rules of spec/ it rests on.
What the spec marks as its own inference, `[derived: …]` (R25, R26, R31, R34, R44, R47, R91, R95, R97,
R102, the equality of R104, R121, R123, R132, R133, R158, R159), is stated here with basis 'derived'
in OBLIGATIONS.json and cites no rule. -/

open Sys2Proof Sys2Proof.Machine

-- Reset, registers, flags ------------------------------------------------------------------------

/-- R33: what reset sets, with the derived counts. -/
def Obligations.ResetSetsTheRegisters : Prop :=
  State.reset.phase = .unopened ∧ State.reset.buf = 0x00#8 ∧ State.reset.cnt = 0#4 ∧
  State.reset.eos = false ∧ State.reset.acc = 0#64 ∧ State.reset.pos = 0 ∧
  State.reset.byteCount = 0 ∧ State.reset.taken = 0

/-- R170 to R172 at the transaction level: whatever the block was doing, the registers and
`src_close` take their reset values, a running READ_TEXT is abandoned, the first item after reset is
the next one the source yields, and the result is coherent. The responses complete before the reset
stay, a response that the reset cuts off gives none, and whatever is answered afterwards
(`t`) makes up its responses from the beats since the reset alone. That the requester's pending words
stay, and the record of beats, is the model's choice (log entry 8). -/
def Obligations.ResetAbandonsAndDoesNotRewind : Prop :=
  ∀ s : State,
    s.applyReset.phase = .unopened ∧ s.applyReset.buf = 0x00#8 ∧ s.applyReset.cnt = 0#4 ∧
    s.applyReset.eos = false ∧ s.applyReset.acc = 0#64 ∧ s.applyReset.srcClose = false ∧
    s.applyReset.inText = false ∧ s.applyReset.taken = 0 ∧
    (∀ k, s.applyReset.item k = s.item (s.taken + k)) ∧
    s.applyReset.cmds = s.cmds ∧ s.applyReset.beats = [] ∧
    s.applyReset.past = s.past ++ [s.beats] ∧ s.applyReset.responses = s.responses ∧
    (∀ t : State, t.past = s.applyReset.past → t.responses = s.responses ++ gather [] t.beats) ∧
    s.applyReset.Coherent ∧ s.applyReset.RegistersLegal ∧ s.applyReset.OneItemAhead ∧
    s.applyReset.BeatsInStep

/-- Reset, with any source listed and any words to come, satisfies every invariant of the model. -/
def Obligations.StartIsCoherentAndInStep : Prop :=
  ∀ src cmds, (State.start src cmds).Coherent ∧ (State.start src cmds).RegistersLegal ∧
    (State.start src cmds).OneItemAhead ∧ (State.start src cmds).BeatsInStep ∧
    State.reset.Coherent ∧ State.reset.RegistersLegal ∧ State.reset.OneItemAhead ∧
    State.reset.BeatsInStep

/-- R22: `bitsRemaining` is −1 when EOS = 1, and then CNT = 0, and CNT when EOS = 0; CNT is never
9..15, and 0 with EOS = 0 only in UNOPENED. -/
def Obligations.BitsRemainingReadsCntAndEos : Prop :=
  ∀ s : State, s.RegistersLegal →
    (s.eos = true → s.bitsRemaining = -1 ∧ s.cnt = 0#4) ∧
    (s.eos = false → s.bitsRemaining = s.cnt.toNat) ∧ s.cnt.toNat ≤ 8 ∧
    (s.phase ≠ .unopened → s.eos = false → s.cnt ≠ 0#4)

/-- R26: ALIGNED is POS on a byte boundary and not at end. -/
def Obligations.AlignedIsByteBoundary : Prop :=
  ∀ s : State, s.Coherent → s.phase ≠ .unopened →
    (s.aligned = true ↔ s.eos = false ∧ s.pos % 8 = 0)

/-- R31: the law of the item count is kept by every step, and POS is what has been delivered: a read of
`w` bits that answers OK moves it by `w`. -/
def Obligations.ItemsTakenIsOneAheadOfDelivered : Prop :=
  ∀ s t : State, s.RegistersLegal → s.OneItemAhead → step s = .next t →
    t.OneItemAhead ∧
    (∀ (i : Instr) (w : Nat) (rest : List CmdWord) (v : Data), s.inText = false →
      s.cmds = encode i :: rest → readWidth i = some w → t.beats = s.beats ++ [⟨.ok, true, v⟩] →
      t.pos = s.pos + w)

/-- R68: the status codes, `11` names none, and how a beat lies on the wires. -/
def Obligations.StatusCodesAndBeatLayout : Prop :=
  Status.ok.code = 0b00#2 ∧ Status.exhaustedInput.code = 0b01#2 ∧
  Status.invalidArgument.code = 0b10#2 ∧ Status.ofCode 0b11#2 = none ∧
  (∀ st : Status, Status.ofCode st.code = some st) ∧
  (∀ b : Beat, b.bits.extractLsb' 65 2 = b.status.code ∧
    b.bits.extractLsb' 64 1 = BitVec.ofBool b.last ∧ b.bits.extractLsb' 0 64 = b.data)

-- Decoding ---------------------------------------------------------------------------------------

/-- R62: for every command, with every operand, decode and encode agree, and no other word decodes
to it. -/
def Obligations.DecodeInvertsEncode : Prop :=
  ∀ (c : CmdWord) (i : Instr), decode c = .ok i ↔ c = encode i

/-- R62: a word decodes to a command iff it selects that command's row of the table, and it selects
no second row; a word is reserved iff it selects none (R65). -/
def Obligations.DecodeAgreesWithTheTable : Prop :=
  (∀ (c : CmdWord) (i : Instr), decode c = .ok i →
    (opcodeRows.filter fun r => r.selects c).map (·.mnemonic) = [i.mnemonic]) ∧
  (∀ c : CmdWord, (∃ e, decode c = .error e) ↔ ∀ r ∈ opcodeRows, r.selects c = false)

/-- R65: why a word is reserved, by name. The three grounds are R65's and stand there without an order;
that `rsv ≠ 0` is named first for a word with two grounds (0xF100) is the model's choice (log
entry 10), which no response shows. -/
def Obligations.ReservedWordsAreNamed : Prop :=
  ∀ c : CmdWord,
    (decode c = .error .rsvNotZero ↔ rsvField c ≠ 0) ∧
    (decode c = .error .unusedOp ↔ rsvField c = 0 ∧ 0xC ≤ (opField c).toNat) ∧
    (decode c = .error .strayOperand ↔ rsvField c = 0 ∧ (opField c).toNat < 0xC ∧
      opField c ≠ 0x2#4 ∧ opField c ≠ 0x4#4 ∧ wField c ≠ 0)

/-- R65: of the 65 536 words 522 select a command. -/
def Obligations.FiveHundredTwentyTwoWordsSelectACommand : Prop :=
  (Finset.univ.filter fun c : BitVec 16 => (decode c).toOption.isSome = true).card = 522

/-- Words written out from the table of R62 and the format of R61, one or more of every family,
decode to their commands, and reserved words to none. -/
def Obligations.SampleWordsDecode : Prop :=
  decode 0b0000000000000000#16 = .ok .isAtEnd ∧ decode 0b0001000000000000#16 = .ok .readBit ∧
  decode 0b0010000000100000#16 = .ok (.readBits 32) ∧ decode 0b0011000000000000#16 = .ok .readByte ∧
  decode 0b0100000000010000#16 = .ok (.readChar 16) ∧
  decode 0b0101000000000000#16 = .ok .readShort ∧ decode 0b0110000000000000#16 = .ok .readInt ∧
  decode 0b0111000000000000#16 = .ok .readLong ∧ decode 0b1000000000000000#16 = .ok .readFloat ∧
  decode 0b1001000000000000#16 = .ok .readDouble ∧ decode 0b1010000000000000#16 = .ok .readText ∧
  decode 0b1011000000000000#16 = .ok .close ∧ decode 0x3001#16 = .error .strayOperand ∧
  decode 0x2104#16 = .error .rsvNotZero ∧ decode 0xC000#16 = .error .unusedOp

-- The step ---------------------------------------------------------------------------------------

/-- R60, R72: with no READ_TEXT running, a step takes the word the requester presents and executes
the command it decodes to, in the state with that word taken. -/
def Obligations.StepExecutesTheDecodedCommand : Prop :=
  ∀ (s : State) (c : CmdWord) (rest : List CmdWord) (i : Instr),
    s.inText = false → s.cmds = c :: rest → decode c = .ok i →
    step s = exec i { s with cmds := rest }

/-- R72: the order in which a word is dealt with. (1) In CLOSED the word decides between OK with no
effect and the fault. (2) A reserved word and (3) an illegal width answer INVALID_ARGUMENT, nothing
else changing. (4) CLOSE in UNOPENED faults; every other valid command runs LazyInit and then its own
rule. -/
def Obligations.WordsAreDealtWithInOrder : Prop :=
  ∀ (s : State) (c : CmdWord) (rest : List CmdWord), s.inText = false → s.cmds = c :: rest →
    (s.phase = .closed → c = encode .close →
      step s = .next ({ s with cmds := rest }.respond .ok 0)) ∧
    (s.phase = .closed → c ≠ encode .close → step s = .fault .useAfterClose) ∧
    (s.phase ≠ .closed → (∃ e, decode c = .error e) →
      step s = .next ({ s with cmds := rest }.respond .invalidArgument 0)) ∧
    (s.phase ≠ .closed → (∃ i, decode c = .ok i ∧ i.wellFormed = false) →
      step s = .next ({ s with cmds := rest }.respond .invalidArgument 0)) ∧
    (s.phase = .unopened → c = encode .close → step s = .fault .closeBeforeUse) ∧
    (∀ i, s.phase ≠ .closed → decode c = .ok i → i.wellFormed = true → i ≠ .close →
      step s = exec i (lazyInit { s with cmds := rest }))

/-- A step of a running READ_TEXT is one more turn of its loop: no word is taken (R60, R69). -/
def Obligations.RunningTextTakesNoCommand : Prop :=
  ∀ s : State, s.inText = true →
    ∃ t, step s = .next t ∧ t.cmds = s.cmds ∧ t.phase = s.phase ∧ t.src = s.src ∧
      t.past = s.past ∧ t.origin = s.origin ∧ t.srcClose = s.srcClose ∧ s.taken ≤ t.taken ∧
      ∃ b, t.beats = s.beats ++ [b] ∧ t.inText = !b.last

/-- With no word presented and no READ_TEXT running the block stays as it is (R174; log entry 6). -/
def Obligations.IdleBlockStaysAsItIs : Prop :=
  ∀ s : State, s.Finished → step s = .next s

-- Micro-operations -------------------------------------------------------------------------------

/-- R80: Refill takes exactly one item and writes BUF, CNT and EOS from it, and nothing else. -/
def Obligations.RefillTakesOneItem : Prop :=
  ∀ s : State,
    (∀ v, s.nextItem = .byte v →
      refill s = { s with taken := s.taken + 1, buf := v, cnt := 8#4, eos := false }) ∧
    (s.nextItem = .endOfStream →
      refill s = { s with taken := s.taken + 1, buf := 0x00#8, cnt := 0#4, eos := true })

/-- R83: LazyInit refills and opens in UNOPENED and does nothing otherwise; after it the block stands
at tape position 0; it is the first step of every valid command but CLOSE. -/
def Obligations.LazyInitOpensOnce : Prop :=
  ∀ s : State,
    (s.phase = .unopened → lazyInit s = { refill s with phase := .opened }) ∧
    (s.phase ≠ .unopened → lazyInit s = s) ∧
    (s.Coherent → s.phase = .unopened → (lazyInit s).AtTape 0) ∧
    (∀ i : Instr, s.phase ≠ .closed → i.wellFormed = true → i ≠ .close →
      exec i s = exec i (lazyInit s))

/-- R92: Bit1 raises at end with nothing written; else it takes `BUF[CNT − 1]`, decrements CNT, and
refills exactly when CNT becomes 0. -/
def Obligations.BitStepTakesTheTopUnconsumedBit : Prop :=
  ∀ s : State,
    (s.eos = true → bit1 s = (.exhausted, s)) ∧
    (∀ c, s.eos = false → s.cnt.toNat = c + 1 →
      bit1 s = (.got (bitOf s.buf c),
        if c = 0 then refill { s with cnt := 0#4 } else { s with cnt := BitVec.ofNat 4 c }))

/-- R100, R101: Byte1 raises at end with nothing written; aligned, it takes the whole byte and
refills; unaligned with `n` bits left, it refills and either raises in the end state or composes
`{BUF_old[n−1:0], BUF_new[7:n]}` and leaves CNT = n. -/
def Obligations.ByteStepJoinsOldAndNewBits : Prop :=
  ∀ s : State,
    (s.eos = true → byte1 s = (.exhausted, s)) ∧
    (s.eos = false → s.cnt = 8#4 → byte1 s = (.got s.buf, refill s)) ∧
    (∀ n, s.eos = false → s.cnt.toNat = n → 1 ≤ n → n ≤ 7 →
      (s.nextItem = .endOfStream → byte1 s = (.exhausted, refill s) ∧ (refill s).AtEnd) ∧
      (∀ v, s.nextItem = .byte v →
        ∃ x, byte1 s = (.got x, { refill s with cnt := s.cnt }) ∧
          ∀ i < 8, bitOf x i = if i < 8 - n then bitOf v (i + n) else bitOf s.buf (i - (8 - n))))

/-- R102: Byte1 and eight Bit1 have the same outcome, value, final registers and item count, from
every open state. -/
def Obligations.ByteStepIsEightBitSteps : Prop :=
  ∀ s : State, s.RegistersLegal → s.phase = .opened →
    (∀ x t, byte1 s = (.got x, t) →
      ∃ u, shiftBits 8 { s with acc := 0 } = (.got (byteData x), u) ∧ u.forgetAcc = t.forgetAcc) ∧
    (∀ t, byte1 s = (.exhausted, t) →
      ∃ u, shiftBits 8 { s with acc := 0 } = (.exhausted, u) ∧ u.forgetAcc = t.forgetAcc)

-- The commands -----------------------------------------------------------------------------------

/-- R132, for every read of a fixed width: with `w` bits left it answers OK with the next `w` tape
bits, zero-extended, and stands `w` bits further on; with fewer it answers EXHAUSTED_INPUT with data
0 and stands at the end of the tape. -/
def Obligations.ReadsFollowTheTapeLaw : Prop :=
  ∀ (i : Instr) (w : Nat) (s : State), readWidth i = some w → s.Coherent → s.phase ≠ .closed →
    (s.BitsRemain w →
      ∃ t, exec i s = .next t ∧
        Answered s t ⟨.ok, true, BitVec.ofNat 64 (s.tapeField s.pos w)⟩ ∧ t.phase = .opened ∧
        t.inText = s.inText ∧ t.pos = s.pos + w ∧ t.AtTape (s.pos + w)) ∧
    (∀ n, s.StreamLength n → 8 * n < s.pos + w →
      ∃ t, exec i s = .next t ∧ Answered s t ⟨.exhaustedInput, true, 0⟩ ∧ t.phase = .opened ∧
        t.inText = s.inText ∧ t.pos = 8 * n ∧ t.AtTape (8 * n) ∧ t.AtEnd)

/-- R132: IS_AT_END answers 1 exactly at the end of the tape, does not move POS, and leaves ACC
alone. -/
def Obligations.IsAtEndTellsTheEndOfTheTape : Prop :=
  ∀ s : State, s.Coherent → s.phase ≠ .closed →
    ∃ t d, exec .isAtEnd s = .next t ∧ Answered s t ⟨.ok, true, d⟩ ∧ t.phase = .opened ∧
      t.inText = s.inText ∧ t.acc = s.acc ∧ t.pos = s.pos ∧ t.AtTape s.pos ∧
      (d = 1 ∧ s.pos % 8 = 0 ∧ s.StreamLength (s.pos / 8) ∨
        d = 0 ∧ isByte (s.item (s.pos / 8)) = true)

/-- R90: IS_AT_END runs LazyInit, which does nothing in OPEN, and answers OK with EOS in bit 0; it
writes nothing else, at end and not at end alike. -/
def Obligations.IsAtEndDeliversEos : Prop :=
  ∀ s : State, s.phase ≠ .closed →
    exec .isAtEnd s = .next
      { lazyInit s with beats := s.beats ++ [⟨.ok, true, if (lazyInit s).eos then 1 else 0⟩] } ∧
    (s.phase = .opened → lazyInit s = s)

/-- R94: READ_BITS with a legal width, READ_BIT being its width 1, is that many bit steps with ACC
cleared first: OK with ACC, or EXHAUSTED_INPUT with data 0 in the state the raise left. -/
def Obligations.BitReadsAccumulateBitSteps : Prop :=
  ∀ (s t : State), s.phase ≠ .closed →
    (∀ (w : BitVec 8) v, 1 ≤ w.toNat → w.toNat ≤ 32 →
      shiftBits w.toNat { lazyInit s with acc := 0 } = (.got v, t) →
      t.acc = v ∧ exec (.readBits w) s = .next { t with beats := s.beats ++ [⟨.ok, true, v⟩] }) ∧
    (∀ w : BitVec 8, 1 ≤ w.toNat → w.toNat ≤ 32 →
      shiftBits w.toNat { lazyInit s with acc := 0 } = (.exhausted, t) →
      t.eos = true ∧
        exec (.readBits w) s = .next { t with beats := s.beats ++ [⟨.exhaustedInput, true, 0⟩] }) ∧
    exec .readBit s = exec (.readBits 1) s

/-- R110 to R113, R103: the byte reads are one, two, four and eight byte steps, accumulated most
significant byte first from ACC cleared. -/
def Obligations.ByteReadsAccumulateByteSteps : Prop :=
  ∀ (i : Instr) (k : Nat) (s t : State),
    (i, k) ∈ [(Instr.readByte, 1), (.readShort, 2), (.readInt, 4), (.readLong, 8),
      (.readFloat, 4), (.readDouble, 8)] → s.phase ≠ .closed →
    (∀ v, shiftBytes k { lazyInit s with acc := 0 } = (.got v, t) →
      t.acc = v ∧ exec i s = .next { t with beats := s.beats ++ [⟨.ok, true, v⟩] }) ∧
    (shiftBytes k { lazyInit s with acc := 0 } = (.exhausted, t) →
      t.eos = true ∧ exec i s = .next { t with beats := s.beats ++ [⟨.exhaustedInput, true, 0⟩] })

/-- R115, R116: READ_FLOAT and READ_DOUBLE do what READ_INT and READ_LONG do, in every state. -/
def Obligations.FloatReadsAreIntegerReads : Prop :=
  ∀ s : State, exec .readFloat s = exec .readInt s ∧ exec .readDouble s = exec .readLong s

/-- R152, R63: an illegal width answers INVALID_ARGUMENT with data 0 and changes nothing else, also
at end and in UNOPENED; READ_CHAR 17 to 32 are illegal though READ_BITS of them is not. -/
def Obligations.IllegalWidthChangesNothing : Prop :=
  ∀ (s : State) (w : BitVec 8), s.phase ≠ .closed →
    (w.toNat = 0 ∨ 33 ≤ w.toNat →
      exec (.readBits w) s =
        .next { s with beats := s.beats ++ [⟨.invalidArgument, true, 0⟩] }) ∧
    (w.toNat = 0 ∨ 17 ≤ w.toNat →
      exec (.readChar w) s =
        .next { s with beats := s.beats ++ [⟨.invalidArgument, true, 0⟩] })

/-- R104: for every legal width READ_CHAR has the outcome of READ_BITS, ACC apart. -/
def Obligations.ReadCharIsReadBits : Prop :=
  ∀ (s : State) (w : BitVec 8), s.RegistersLegal → s.phase ≠ .closed →
    1 ≤ w.toNat → w.toNat ≤ 16 →
    ∃ t u, exec (.readChar w) s = .next t ∧ exec (.readBits w) s = .next u ∧
      t.forgetAcc = u.forgetAcc

/-- R96, R111: the widths 8, 16 and 32 of READ_BITS have the outcome of READ_BYTE, READ_SHORT and
READ_INT, ACC apart. -/
def Obligations.ShortCircuitWidthsAgree : Prop :=
  ∀ s : State, s.RegistersLegal → s.phase ≠ .closed →
    (∃ t u, exec (.readBits 8) s = .next t ∧ exec .readByte s = .next u ∧
      t.forgetAcc = u.forgetAcc) ∧
    (∃ t u, exec (.readBits 16) s = .next t ∧ exec .readShort s = .next u ∧
      t.forgetAcc = u.forgetAcc) ∧
    (∃ t u, exec (.readBits 32) s = .next t ∧ exec .readInt s = .next u ∧
      t.forgetAcc = u.forgetAcc)

/-- R97: READ_BITS w against `w` READ_BIT issued one after another. With the bits there, all answer
OK and the bits compose to READ_BITS's value; when they run out after `8N − POS` bits, READ_BITS
answers EXHAUSTED_INPUT and so does every READ_BIT from there on. The final states agree. -/
def Obligations.ReadBitsIsReadBitRepeated : Prop :=
  ∀ (s : State) (w : BitVec 8), s.Coherent → s.phase ≠ .closed → s.inText = false →
    1 ≤ w.toNat → w.toNat ≤ 32 →
    (s.BitsRemain w.toNat →
      ∃ (t u : State) (bits : List Bool), exec (.readBits w) s = .next t ∧
        runSteps w.toNat { s with cmds := List.replicate w.toNat (encode .readBit) ++ s.cmds } =
          .next u ∧
        bits.length = w.toNat ∧
        t.beats = s.beats ++ [⟨.ok, true, bits.foldl shiftInBit 0⟩] ∧
        u.beats = s.beats ++ bits.map (fun b => ⟨.ok, true, if b then 1 else 0⟩) ∧
        t.forgetAnswers = u.forgetAnswers) ∧
    (∀ n, s.StreamLength n → 8 * n < s.pos + w.toNat →
      ∃ (t u : State) (bits : List Bool), exec (.readBits w) s = .next t ∧
        runSteps w.toNat { s with cmds := List.replicate w.toNat (encode .readBit) ++ s.cmds } =
          .next u ∧
        bits.length = 8 * n - s.pos ∧
        t.beats = s.beats ++ [⟨.exhaustedInput, true, 0⟩] ∧
        u.beats = s.beats ++ bits.map (fun b => ⟨.ok, true, if b then 1 else 0⟩) ++
          List.replicate (w.toNat - bits.length) ⟨.exhaustedInput, true, 0⟩ ∧
        t.forgetAnswers = u.forgetAnswers)

/-- R133: two successful reads in a row deliver what the one read of the summed width delivers, the
first one's value the high part, and leave the same state. -/
def Obligations.ConsecutiveReadsConcatenate : Prop :=
  ∀ (s : State) (i j m : Instr) (a b : Nat), s.Coherent → s.phase ≠ .closed →
    readWidth i = some a → readWidth j = some b → readWidth m = some (a + b) →
    s.BitsRemain (a + b) →
    ∃ t u x v1 v2 v, exec i s = .next t ∧ exec j t = .next u ∧ exec m s = .next x ∧
      u.beats = s.beats ++ [⟨.ok, true, v1⟩, ⟨.ok, true, v2⟩] ∧
      x.beats = s.beats ++ [⟨.ok, true, v⟩] ∧
      v.toNat = v1.toNat * 2 ^ b + v2.toNat ∧ u.forgetAnswers = x.forgetAnswers

/-- R11, R130: a read of `w` bits that answers OK delivers a value below `2^w`: nothing is
sign-extended and nothing overflows. -/
def Obligations.ResultsFitTheirWidth : Prop :=
  ∀ (i : Instr) (w : Nat) (s t : State) (b : Beat), readWidth i = some w →
    exec i s = .next t → t.beats = s.beats ++ [b] → b.status = .ok → b.data.toNat < 2 ^ w

/-- R47: a read that starts with CNT = c, EOS = 0 and delivers `w` bits takes ⌊(w + 8 − c)/8⌋
items. -/
def Obligations.SuccessfulReadsTakeTheStatedItems : Prop :=
  ∀ (i : Instr) (w : Nat) (s t : State) (b : Beat), readWidth i = some w → s.RegistersLegal →
    s.phase = .opened → s.eos = false → exec i s = .next t → t.beats = s.beats ++ [b] →
    b.status = .ok → t.taken = s.taken + (w + 8 - s.cnt.toNat) / 8

-- READ_TEXT --------------------------------------------------------------------------------------

/-- The first turn of READ_TEXT with a unit left (R120): it completes with a beat that carries the
next eight tape bits and is the last iff the cursor is then at end; with no bit left it answers
EXHAUSTED_INPUT and nothing changes but the initialisation. -/
def Obligations.ReadTextDeliversItsFirstUnit : Prop :=
  ∀ s : State, s.Coherent → s.phase ≠ .closed → s.inText = false →
    (s.BitsRemain 8 →
      ∃ t, exec .readText s = .next t ∧
        Answered s t ⟨.ok, t.eos, BitVec.ofNat 64 (s.tapeField s.pos 8)⟩ ∧
        t.inText = !t.eos ∧ t.phase = .opened ∧ t.pos = s.pos + 8 ∧ t.AtTape (s.pos + 8)) ∧
    (s.StreamLength (s.pos / 8) → s.pos % 8 = 0 →
      exec .readText s = .next ((lazyInit s).respond .exhaustedInput 0) ∧ (lazyInit s).AtEnd)

/-- R120, R132, R69: READ_TEXT entered aligned with bytes left on a stream of `n` bytes answers OK
with every remaining byte in order, one beat each, the last flagged, and ends at the end of the
tape; as a response it is one OK with those units. -/
def Obligations.AlignedReadTextDeliversTheRest : Prop :=
  ∀ (s : State) (rest : List CmdWord) (n : Nat), s.Coherent → s.BeatsInStep → s.inText = false →
    s.phase ≠ .closed → s.cmds = encode .readText :: rest → s.StreamLength n → s.pos % 8 = 0 →
    s.pos < 8 * n →
    ∃ t, runSteps (n - s.pos / 8) s = .next t ∧ t.inText = false ∧ t.cmds = rest ∧
      t.phase = .opened ∧ t.AtTape (8 * n) ∧ t.AtEnd ∧
      t.beats = s.beats ++ (List.range (n - s.pos / 8)).map (fun j =>
        ⟨.ok, decide (j + 1 = n - s.pos / 8), byteData (s.streamByte (s.pos / 8 + j))⟩) ∧
      t.responses = s.responses ++ [⟨.ok, (List.range (n - s.pos / 8)).map fun j =>
        byteData (s.streamByte (s.pos / 8 + j))⟩]

/-- R121, R122: READ_TEXT entered unaligned on a stream of `n` bytes delivers `n − ⌈POS/8⌉` units and
then EXHAUSTED_INPUT, and leaves the end of the tape; as a response it is one failure with no
value. -/
def Obligations.UnalignedReadTextFails : Prop :=
  ∀ (s : State) (rest : List CmdWord) (n : Nat), s.Coherent → s.BeatsInStep → s.inText = false →
    s.phase ≠ .closed → s.cmds = encode .readText :: rest → s.StreamLength n → s.pos % 8 ≠ 0 →
    s.pos < 8 * n →
    ∃ t, runSteps (n - s.pos / 8) s = .next t ∧ t.inText = false ∧ t.cmds = rest ∧
      t.phase = .opened ∧ t.AtTape (8 * n) ∧ t.AtEnd ∧
      t.beats = s.beats ++ (List.range (n - (s.pos + 7) / 8)).map (fun j =>
        ⟨.ok, false, BitVec.ofNat 64 (s.tapeField (s.pos + 8 * j) 8)⟩) ++
        [⟨.exhaustedInput, true, 0⟩] ∧
      t.responses = s.responses ++ [⟨.exhaustedInput, []⟩]

/-- R123: as long as the stream goes on, READ_TEXT goes on: after `k` steps it has delivered `k`
units, none flagged last, and the block takes no other command. -/
def Obligations.ReadTextGoesOnWithTheStream : Prop :=
  ∀ (s : State) (rest : List CmdWord) (k : Nat), s.Coherent → s.inText = false →
    s.phase ≠ .closed → s.cmds = encode .readText :: rest → 1 ≤ k →
    (∀ j ≤ s.pos / 8 + k, isByte (s.item j) = true) →
    ∃ t, runSteps k s = .next t ∧ t.inText = true ∧ t.cmds = rest ∧
      t.beats = s.beats ++ (List.range k).map fun j =>
        ⟨.ok, false, BitVec.ofNat 64 (s.tapeField (s.pos + 8 * j) 8)⟩

-- CLOSE and the faults ---------------------------------------------------------------------------

/-- R124: CLOSE in OPEN enters CLOSED, raises `src_close`, answers OK 0, and keeps BUF, CNT, EOS and
the source as they are, at end and not at end alike. -/
def Obligations.CloseReleasesTheSource : Prop :=
  ∀ s : State, s.phase = .opened →
    exec .close s =
      .next { s with phase := .closed, srcClose := true, beats := s.beats ++ [⟨.ok, true, 0⟩] }

/-- R125: in CLOSED, CLOSE answers OK with no effect and every other word, valid or reserved, is the
fault UseAfterClose. -/
def Obligations.ClosedAcceptsCloseAlone : Prop :=
  ∀ s : State, s.phase = .closed →
    exec .close s = .next { s with beats := s.beats ++ [⟨.ok, true, 0⟩] } ∧
    (∀ i, i ≠ .close → exec i s = .fault .useAfterClose) ∧ execReserved s = .fault .useAfterClose

/-- R126: CLOSE in UNOPENED is the fault CloseBeforeUse. -/
def Obligations.CloseBeforeUseFaults : Prop :=
  ∀ s : State, s.phase = .unopened → exec .close s = .fault .closeBeforeUse

/-- R161: the two situations of R125 (b) and R126 are the only ones in which a step faults, and no
step is refused. -/
def Obligations.FaultsAreExactlyTheTwoMisuses : Prop :=
  ∀ s : State,
    (∀ r, step s = .fault r ↔ s.inText = false ∧ ∃ c rest, s.cmds = c :: rest ∧
      ((s.phase = .closed ∧ c ≠ encode .close ∧ r = .useAfterClose) ∨
       (s.phase = .unopened ∧ c = encode .close ∧ r = .closeBeforeUse))) ∧
    (∀ r, step s ≠ .refused r)

/-- R178: the lifecycle order with coherence is kept by every step and each such state has a step, so a
requester that keeps the order never meets a fault, whatever the source yields. -/
def Obligations.LawfulRequesterNeverFaults : Prop :=
  ∀ s : State, s.Coherent → lawful s.phase s.cmds = true →
    (∃ t, step s = .next t ∧ t.Coherent ∧ lawful t.phase t.cmds = true) ∧ ∀ k, s.GoodFor k

-- Frames and whole-machine rules -----------------------------------------------------------------

/-- The frame of every command but CLOSE (R47, R157, R158): exactly one beat is added; the source,
the pending words, `src_close` are unchanged; the phase only goes from UNOPENED to OPEN; BUF and EOS
change only with an item taken (R21, R25); only READ_TEXT may stay running; ACC is written by the
reads of a legal width alone (R28; log entry 3). -/
def Obligations.CommandsLeaveTheRestUnchanged : Prop :=
  ∀ (i : Instr) (s t : State), i ≠ .close → exec i s = .next t →
    (∃ b, Answered s t b) ∧
    (t.phase = s.phase ∨ s.phase = .unopened ∧ t.phase = .opened) ∧
    (i ≠ .readText → t.inText = s.inText) ∧
    (readWidth i = none → t.acc = s.acc) ∧
    (t.taken = s.taken → t.buf = s.buf ∧ t.eos = s.eos ∧ t.phase = s.phase)

/-- R68: a step adds at most one beat; on any status but OK the beat carries data 0 and is the last;
a command other than READ_TEXT answers with one last beat. -/
def Obligations.ErrorsCarryNoData : Prop :=
  ∀ s t : State, step s = .next t →
    t = s ∨ ∃ b, t.beats = s.beats ++ [b] ∧ (b.status ≠ .ok → b.data = 0 ∧ b.last = true) ∧
      (s.inText = false → (∃ rest, s.cmds = encode .readText :: rest) ∨ b.last = true)

/-- R157: INVALID_ARGUMENT leaves the state exactly as it was; EXHAUSTED_INPUT always leaves the end
state, in OPEN, at the end of the tape. -/
def Obligations.ErrorsLeaveTheStatedState : Prop :=
  ∀ (s t : State) (b : Beat), s.Coherent → step s = .next t → t.beats = s.beats ++ [b] →
    (b.status = .invalidArgument →
      t = { s with cmds := s.cmds.tail, beats := s.beats ++ [b] }) ∧
    (b.status = .exhaustedInput →
      t.AtEnd ∧ t.phase = .opened ∧ t.inText = false ∧
      ∃ n, s.StreamLength n ∧ t.pos = 8 * n ∧ t.taken = n + 1)

/-- R44, R159: once at end, no step takes an item or moves the registers, and every read and
READ_TEXT answers EXHAUSTED_INPUT. -/
def Obligations.NothingIsFetchedAfterTheEnd : Prop :=
  (∀ s t : State, s.phase ≠ .unopened → s.eos = true → step s = .next t →
    t.taken = s.taken ∧ t.buf = s.buf ∧ t.cnt = s.cnt ∧ t.eos = true) ∧
  (∀ (s : State) (i : Instr), s.phase = .opened → s.eos = true → s.inText = false →
    (i = .readText ∨ (readWidth i).isSome = true) →
    ∃ t, exec i s = .next t ∧
      t.forgetAcc = (s.respond .exhaustedInput 0).forgetAcc)

/-- R44: what SRC holds after its first End does not matter: two blocks whose sources agree up to
the End go through the same steps. -/
def Obligations.ItemsAfterTheEndDoNotMatter : Prop :=
  ∀ (s : State) (src : List SrcItem) (n : Nat), s.Coherent → s.StreamLength n →
    (∀ k ≤ n, srcAt src (s.origin + k) = s.item k) →
    (∀ t, step s = .next t → step { s with src := src } = .next { t with src := src }) ∧
    (∀ r, step s = .fault r → step { s with src := src } = .fault r)

/-- R24: POS never decreases. -/
def Obligations.PositionNeverDecreases : Prop :=
  ∀ s t : State, s.Coherent → step s = .next t → s.pos ≤ t.pos

/-- R34, R25: PHASE only moves UNOPENED → OPEN → CLOSED, EOS only from 0 to 1 once initialised, and
CNT is never 0 with EOS = 0 between commands. -/
def Obligations.PhaseAndEosOnlyMoveForward : Prop :=
  ∀ s t : State, s.RegistersLegal → step s = .next t →
    (t.phase = s.phase ∨ s.phase = .unopened ∧ t.phase = .opened ∨
      s.phase = .opened ∧ t.phase = .closed) ∧
    (s.phase ≠ .unopened → s.eos = true → t.eos = true) ∧
    (t.phase ≠ .unopened → t.eos = false → t.cnt ≠ 0#4)

/-- R27: the register invariant is kept by every step. -/
def Obligations.StepKeepsTheRegistersLegal : Prop :=
  ∀ s t : State, s.RegistersLegal → step s = .next t → t.RegistersLegal

/-- R31, R132: the agreement of the registers with the stream is kept by every step. -/
def Obligations.StepKeepsTheBlockCoherent : Prop :=
  ∀ s t : State, s.Coherent → step s = .next t → t.Coherent

/-- R60, R69: the last beat produced is flagged last exactly when the block is idle. -/
def Obligations.StepKeepsTheBeatsInStep : Prop :=
  ∀ s t : State, s.BeatsInStep → step s = .next t → t.BeatsInStep

-- The signal level -------------------------------------------------------------------------------

/-- R137, R42: what each sequencer state drives; the block asks the source for an item in S_FILL
alone, and `src_close` is held whatever the state. -/
def Obligations.OutputsFollowTheSequencerState : Prop :=
  ∀ b : Signal.Block,
    (b.outputs.cmdReady = true ↔ b.seq = .idle ∧ b.inReset = false) ∧
    (b.outputs.srcReady = true ↔ b.seq = .fill) ∧ (b.outputs.rspValid = true ↔ b.seq = .resp) ∧
    (b.seq = .resp → b.outputs.rspStatus = b.beat.status.code ∧ b.outputs.rspLast = b.beat.last ∧
      b.outputs.rspData = b.beat.data) ∧
    (b.seq ≠ .resp → b.outputs.rspStatus = 0 ∧ b.outputs.rspLast = false ∧ b.outputs.rspData = 0) ∧
    b.outputs.srcClose = b.srcClose

/-- R139, R53: in S_IDLE with no command offered, in S_RESP with the beat not taken, in S_FILL with no
item offered, and in S_DEAD, an edge without reset leaves every register as it is: nothing times
out. -/
def Obligations.TheBlockWaitsForEver : Prop :=
  ∀ (b : Signal.Block) (i : Signal.Inputs), i.rst = false → b.inReset = false →
    (b.seq = .idle ∧ i.cmdValid = false ∨ b.seq = .resp ∧ i.rspReady = false ∨
      b.seq = .fill ∧ i.srcValid = false ∨ b.seq = .dead) →
    b.clock i = b

/-- R42, R43: `src_err` has exactly the effect of `src_eos`, and the data of an `End` is ignored. -/
def Obligations.SourceErrorIsEndOfStream : Prop :=
  (∀ i : Signal.Inputs, i.srcEos = false → i.srcErr = false → i.item = .byte i.srcData) ∧
  (∀ i : Signal.Inputs, i.srcEos = true ∨ i.srcErr = true → i.item = .endOfStream) ∧
  (∀ (b : Signal.Block) (i : Signal.Inputs) (d : Byte), i.srcErr = true →
    b.clock i = b.clock { i with srcErr := false, srcEos := true, srcData := d })

/-- R170, R171: an edge with `rst = 1`, in whatever state, gives the reset registers with all outputs
0, and the next edge without reset raises `cmd_ready`; it is the one way out of S_DEAD. Unless an item
is transferred at that edge, the item the source would give next is the first one after reset (R171,
R172); a transferred one is lost, which is the model's choice (log entry 8). The system then agrees
with a block just reset. -/
def Obligations.ResetEdgeFromAnyState : Prop :=
  (∀ (b : Signal.Block) (i : Signal.Inputs), i.rst = true →
    b.clock i = Signal.Block.reset ∧ (b.clock i).phase = .unopened ∧ (b.clock i).buf = 0x00#8 ∧
    (b.clock i).cnt = 0#4 ∧ (b.clock i).eos = false ∧ (b.clock i).acc = 0 ∧
    (b.clock i).seq = .idle ∧ (b.clock i).outputs = ⟨false, false, 0, false, 0, false, false⟩ ∧
    (∀ j : Signal.Inputs, j.rst = false → ((b.clock i).clock j).outputs =
      ⟨true, false, 0, false, 0, false, false⟩)) ∧
  (∀ (b : Signal.Block) (i : Signal.Inputs), i.rst = false → b.seq = .dead →
    (b.clock i).seq = .dead) ∧
  (∀ (y : Signal.System) (e : Signal.Choice), e.rst = true →
    (¬(y.block.seq = .fill ∧ e.offerItem = true) → (y.tick e).nextItem = y.nextItem) ∧
    (y.block.seq = .fill ∧ e.offerItem = true →
      (y.tick e).nextItem = srcAt y.src (y.origin + y.taken + 1)) ∧
    (y.tick e).Agrees { State.start y.src (y.tick e).cmds with
      origin := (y.tick e).origin, past := (y.tick e).past })

/-- R140: under every schedule of delays, without reset, whenever the reference design is idle its
registers, the items taken, the words left and the beats delivered are those of some number of
transaction-level steps, and it is dead only where those steps meet a fault. -/
def Obligations.ReferenceDesignRefinesTheSteps : Prop :=
  ∀ (y : Signal.System) (s : State) (sched : List Signal.Choice), y.Agrees s →
    y.block.seq = .idle → (∀ e ∈ sched, e.rst = false) →
    ((y.ticks sched).block.seq = .idle →
      ∃ k t, runSteps k s = .next t ∧ (y.ticks sched).Agrees t) ∧
    ((y.ticks sched).block.seq = .dead → ∃ k r, runSteps k s = .fault r)

/-- R183: with requester, consumer and source ready, a command other than READ_TEXT is through, or has
met a fault, within 128 edges (the number is the model's own bound, no figure of the spec). -/
def Obligations.PromptEnvironmentMeansProgress : Prop :=
  ∀ (y : Signal.System) (c : CmdWord) (rest : List CmdWord), y.block.seq = .idle →
    y.cmds = c :: rest → c ≠ encode .readText →
    ∃ k ≤ 128, (y.prompt k).cmds = rest ∧
      ((y.prompt k).block.seq = .dead ∨
        (y.prompt k).block.seq = .idle ∧ ∃ b, (y.prompt k).beats = y.beats ++ [b])

/-- R183, R139: a command completes under fairness, and under nothing weaker. (1) With every request
answered, every beat taken and the word offered at some time, however late, a command is through or
has met a fault; READ_TEXT on a stream that ends, or entered at end. (2) A request that is never
answered and a beat that is never taken hold the block for ever, with no beat more. (3) READ_TEXT not
at end is not through after `k` edges if the stream goes on for `k` items more, under any schedule
without reset; so on an unbounded stream it is never through. -/
def Obligations.CommandsCompleteExactlyUnderFairness : Prop :=
  (∀ (y : Signal.System) (sched : Nat → Signal.Choice) (c : CmdWord) (rest : List CmdWord),
    y.Fair sched → y.block.seq = .idle → y.cmds = c :: rest →
    (c ≠ encode .readText ∨ y.block.phase ≠ .unopened ∧ y.block.eos = true ∨
      ∃ j, srcAt y.src (y.origin + y.taken + j) = .endOfStream) →
    ∃ k, (y.run sched k).cmds = rest ∧
      ((y.run sched k).block.seq = .dead ∨
        (y.run sched k).block.seq = .idle ∧
          ∃ bs b, (y.run sched k).beats = y.beats ++ bs ++ [b] ∧ b.last = true)) ∧
  (∀ (y : Signal.System) (sched : Nat → Signal.Choice), (∀ k, (sched k).rst = false) →
    (y.block.seq = .fill → (∀ k, (sched k).offerItem = false) →
      ∀ k, (y.run sched k).block.seq = .fill ∧ (y.run sched k).beats = y.beats) ∧
    (y.block.seq = .resp → (∀ k, (sched k).takeBeat = false) →
      ∀ k, (y.run sched k).block.seq = .resp ∧ (y.run sched k).beats = y.beats)) ∧
  (∀ (y : Signal.System) (sched : Nat → Signal.Choice) (rest : List CmdWord),
    (∀ k, (sched k).rst = false) → y.block.seq = .idle → y.cmds = encode .readText :: rest →
    y.block.phase ≠ .closed → (y.block.phase = .opened → y.block.eos = false) →
    ∀ k, (∀ j ≤ k, isByte (srcAt y.src (y.origin + y.taken + j)) = true) →
      (y.run sched k).cmds = y.cmds ∨
      (y.run sched k).cmds = rest ∧ (y.run sched k).block.seq ≠ .idle ∧
        (y.run sched k).block.seq ≠ .dead)
end

