-- ==== Sys2Proof/Laws/Decode.lean ====
section
/-! SUPPORT. The fields of the one format, and decoding in terms of them (spec/30_encoding.md R61 to
R65). -/

namespace Sys2Proof

@[simp] theorem opField_formatWord (op : BitVec 4) (w : BitVec 8) :
    opField (formatWord op w) = op := by
  ext i hi
  simp only [opField, formatWord, BitVec.getElem_extractLsb', BitVec.getLsbD_append]
  simp [show ¬ 12 + i < 8 by omega, show ¬ 12 + i - 8 < 4 by omega, show 12 + i - 8 - 4 = i by omega,
    BitVec.getLsbD_eq_getElem hi]

@[simp] theorem rsvField_formatWord (op : BitVec 4) (w : BitVec 8) :
    rsvField (formatWord op w) = 0#4 := by
  ext i hi
  simp only [rsvField, formatWord, BitVec.getElem_extractLsb', BitVec.getLsbD_append]
  simp [show 8 + i - 8 = i by omega, hi]

@[simp] theorem wField_formatWord (op : BitVec 4) (w : BitVec 8) :
    wField (formatWord op w) = w := by
  ext i hi
  simp only [wField, formatWord, BitVec.getElem_extractLsb', BitVec.getLsbD_append]
  simp [hi]

/-- A word with `rsv = 0000` is the format of its fields (R61). -/
theorem formatWord_fields {c : CmdWord} (h : rsvField c = 0#4) :
    formatWord (opField c) (wField c) = c := by
  have hb : ∀ j < 4, c.getLsbD (8 + j) = false := fun j hj => by
    have := congrArg (fun v : BitVec 4 => v.getLsbD j) h
    simpa [rsvField, hj] using this
  refine BitVec.eq_of_getLsbD_eq fun i hi => ?_
  simp only [formatWord, opField, wField, BitVec.getLsbD_append, BitVec.getLsbD_extractLsb']
  by_cases h8 : i < 8
  · simp [h8]
  · by_cases h12 : i - 8 < 4
    · have := hb (i - 8) h12
      rw [show 8 + (i - 8) = i by omega] at this
      simp [h8, h12, this]
    · simp [h8, h12, show 12 + (i - 8 - 4) = i by omega, show i - 8 - 4 < 4 by omega]

/-- Two words of the format are equal iff their fields are. -/
theorem formatWord_inj {o o' : BitVec 4} {w w' : BitVec 8} :
    formatWord o w = formatWord o' w' ↔ o = o' ∧ w = w' := by
  constructor
  · intro h
    exact ⟨by simpa using congrArg opField h, by simpa using congrArg wField h⟩
  · rintro ⟨rfl, rfl⟩
    rfl

/-- A decoded word has `rsv = 0000` (R65). -/
theorem rsvField_of_decode {c : CmdWord} {i : Instr} (h : decode c = .ok i) : rsvField c = 0#4 := by
  by_contra hne
  simp [decode, hne] at h

/-- `noOperand` accepts exactly `w = 0x00` (R64). -/
theorem noOperand_ok {w : BitVec 8} {i j : Instr} : noOperand w i = .ok j ↔ w = 0 ∧ i = j := by
  unfold noOperand
  split <;> simp_all

theorem decode_encode (i : Instr) : decode (encode i) = .ok i := by
  cases i <;> simp [encode, decode, noOperand]

end Sys2Proof
end

