-- ==== Sys2Proof/Laws/State.lean ====
section
/-! SUPPORT. One lemma per field for each state update the operations are made of, and what an item
of the source depends on. -/

namespace Sys2Proof.Machine.State

@[simp] theorem emit_buf (s : State) (b : Beat) : (s.emit b).buf = s.buf := rfl
@[simp] theorem emit_cnt (s : State) (b : Beat) : (s.emit b).cnt = s.cnt := rfl
@[simp] theorem emit_eos (s : State) (b : Beat) : (s.emit b).eos = s.eos := rfl
@[simp] theorem emit_phase (s : State) (b : Beat) : (s.emit b).phase = s.phase := rfl
@[simp] theorem emit_acc (s : State) (b : Beat) : (s.emit b).acc = s.acc := rfl
@[simp] theorem emit_srcClose (s : State) (b : Beat) : (s.emit b).srcClose = s.srcClose := rfl
@[simp] theorem emit_inText (s : State) (b : Beat) : (s.emit b).inText = s.inText := rfl
@[simp] theorem emit_src (s : State) (b : Beat) : (s.emit b).src = s.src := rfl
@[simp] theorem emit_origin (s : State) (b : Beat) : (s.emit b).origin = s.origin := rfl
@[simp] theorem emit_taken (s : State) (b : Beat) : (s.emit b).taken = s.taken := rfl
@[simp] theorem emit_cmds (s : State) (b : Beat) : (s.emit b).cmds = s.cmds := rfl
@[simp] theorem emit_beats (s : State) (b : Beat) : (s.emit b).beats = s.beats ++ [b] := rfl
@[simp] theorem emit_past (s : State) (b : Beat) : (s.emit b).past = s.past := rfl

@[simp] theorem respond_buf (s : State) (st : Status) (d : Data) : (s.respond st d).buf = s.buf := rfl
@[simp] theorem respond_cnt (s : State) (st : Status) (d : Data) : (s.respond st d).cnt = s.cnt := rfl
@[simp] theorem respond_eos (s : State) (st : Status) (d : Data) : (s.respond st d).eos = s.eos := rfl
@[simp] theorem respond_phase (s : State) (st : Status) (d : Data) : (s.respond st d).phase = s.phase := rfl
@[simp] theorem respond_acc (s : State) (st : Status) (d : Data) : (s.respond st d).acc = s.acc := rfl
@[simp] theorem respond_srcClose (s : State) (st : Status) (d : Data) : (s.respond st d).srcClose = s.srcClose := rfl
@[simp] theorem respond_inText (s : State) (st : Status) (d : Data) : (s.respond st d).inText = s.inText := rfl
@[simp] theorem respond_src (s : State) (st : Status) (d : Data) : (s.respond st d).src = s.src := rfl
@[simp] theorem respond_origin (s : State) (st : Status) (d : Data) : (s.respond st d).origin = s.origin := rfl
@[simp] theorem respond_taken (s : State) (st : Status) (d : Data) : (s.respond st d).taken = s.taken := rfl
@[simp] theorem respond_cmds (s : State) (st : Status) (d : Data) : (s.respond st d).cmds = s.cmds := rfl
@[simp] theorem respond_beats (s : State) (st : Status) (d : Data) : (s.respond st d).beats = s.beats ++ [⟨st, true, d⟩] := rfl
@[simp] theorem respond_past (s : State) (st : Status) (d : Data) : (s.respond st d).past = s.past := rfl

@[simp] theorem latch_byte_buf (s : State) (v : Byte) : (s.latch (.byte v)).buf = v := rfl
@[simp] theorem latch_byte_cnt (s : State) (v : Byte) : (s.latch (.byte v)).cnt = 8#4 := rfl
@[simp] theorem latch_byte_eos (s : State) (v : Byte) : (s.latch (.byte v)).eos = false := rfl
@[simp] theorem latch_end_buf (s : State) : (s.latch .endOfStream).buf = 0x00#8 := rfl
@[simp] theorem latch_end_cnt (s : State) : (s.latch .endOfStream).cnt = 0#4 := rfl
@[simp] theorem latch_end_eos (s : State) : (s.latch .endOfStream).eos = true := rfl

@[simp] theorem latch_phase (s : State) (i : SrcItem) : (s.latch i).phase = s.phase := by cases i <;> rfl
@[simp] theorem latch_acc (s : State) (i : SrcItem) : (s.latch i).acc = s.acc := by cases i <;> rfl
@[simp] theorem latch_srcClose (s : State) (i : SrcItem) : (s.latch i).srcClose = s.srcClose := by cases i <;> rfl
@[simp] theorem latch_inText (s : State) (i : SrcItem) : (s.latch i).inText = s.inText := by cases i <;> rfl
@[simp] theorem latch_src (s : State) (i : SrcItem) : (s.latch i).src = s.src := by cases i <;> rfl
@[simp] theorem latch_origin (s : State) (i : SrcItem) : (s.latch i).origin = s.origin := by cases i <;> rfl
@[simp] theorem latch_taken (s : State) (i : SrcItem) : (s.latch i).taken = s.taken := by cases i <;> rfl
@[simp] theorem latch_cmds (s : State) (i : SrcItem) : (s.latch i).cmds = s.cmds := by cases i <;> rfl
@[simp] theorem latch_beats (s : State) (i : SrcItem) : (s.latch i).beats = s.beats := by cases i <;> rfl
@[simp] theorem latch_past (s : State) (i : SrcItem) : (s.latch i).past = s.past := by cases i <;> rfl
@[simp] theorem withText_buf (s : State) (b : Bool) : (s.withText b).buf = s.buf := rfl
@[simp] theorem withText_cnt (s : State) (b : Bool) : (s.withText b).cnt = s.cnt := rfl
@[simp] theorem withText_eos (s : State) (b : Bool) : (s.withText b).eos = s.eos := rfl
@[simp] theorem withText_phase (s : State) (b : Bool) : (s.withText b).phase = s.phase := rfl
@[simp] theorem withText_acc (s : State) (b : Bool) : (s.withText b).acc = s.acc := rfl
@[simp] theorem withText_srcClose (s : State) (b : Bool) : (s.withText b).srcClose = s.srcClose := rfl
@[simp] theorem withText_inText (s : State) (b : Bool) : (s.withText b).inText = b := rfl
@[simp] theorem withText_src (s : State) (b : Bool) : (s.withText b).src = s.src := rfl
@[simp] theorem withText_origin (s : State) (b : Bool) : (s.withText b).origin = s.origin := rfl
@[simp] theorem withText_taken (s : State) (b : Bool) : (s.withText b).taken = s.taken := rfl
@[simp] theorem withText_cmds (s : State) (b : Bool) : (s.withText b).cmds = s.cmds := rfl
@[simp] theorem withText_beats (s : State) (b : Bool) : (s.withText b).beats = s.beats := rfl
@[simp] theorem withText_past (s : State) (b : Bool) : (s.withText b).past = s.past := rfl

/-- An item depends on the source and on where the source stood at reset alone. -/
theorem item_eq_of_source {s t : State} (hs : t.src = s.src) (ho : t.origin = s.origin) (k : Nat) :
    t.item k = s.item k := by
  simp [State.item, hs, ho]

end Sys2Proof.Machine.State

namespace Sys2Proof.Machine

@[simp] theorem raiseError_buf (k : ErrorKind) (s : State) : (raiseError k s).buf = s.buf := rfl
@[simp] theorem raiseError_cnt (k : ErrorKind) (s : State) : (raiseError k s).cnt = s.cnt := rfl
@[simp] theorem raiseError_eos (k : ErrorKind) (s : State) : (raiseError k s).eos = s.eos := rfl
@[simp] theorem raiseError_phase (k : ErrorKind) (s : State) : (raiseError k s).phase = s.phase := rfl
@[simp] theorem raiseError_acc (k : ErrorKind) (s : State) : (raiseError k s).acc = s.acc := rfl
@[simp] theorem raiseError_srcClose (k : ErrorKind) (s : State) : (raiseError k s).srcClose = s.srcClose := rfl
@[simp] theorem raiseError_inText (k : ErrorKind) (s : State) : (raiseError k s).inText = s.inText := rfl
@[simp] theorem raiseError_src (k : ErrorKind) (s : State) : (raiseError k s).src = s.src := rfl
@[simp] theorem raiseError_origin (k : ErrorKind) (s : State) : (raiseError k s).origin = s.origin := rfl
@[simp] theorem raiseError_taken (k : ErrorKind) (s : State) : (raiseError k s).taken = s.taken := rfl
@[simp] theorem raiseError_cmds (k : ErrorKind) (s : State) : (raiseError k s).cmds = s.cmds := rfl
@[simp] theorem raiseError_beats (k : ErrorKind) (s : State) : (raiseError k s).beats = s.beats ++ [⟨k.status, true, 0⟩] := rfl
@[simp] theorem raiseError_past (k : ErrorKind) (s : State) : (raiseError k s).past = s.past := rfl

@[simp] theorem refill_phase (s : State) : (refill s).phase = s.phase := by simp [refill]
@[simp] theorem refill_acc (s : State) : (refill s).acc = s.acc := by simp [refill]
@[simp] theorem refill_srcClose (s : State) : (refill s).srcClose = s.srcClose := by simp [refill]
@[simp] theorem refill_inText (s : State) : (refill s).inText = s.inText := by simp [refill]
@[simp] theorem refill_src (s : State) : (refill s).src = s.src := by simp [refill]
@[simp] theorem refill_origin (s : State) : (refill s).origin = s.origin := by simp [refill]
@[simp] theorem refill_cmds (s : State) : (refill s).cmds = s.cmds := by simp [refill]
@[simp] theorem refill_beats (s : State) : (refill s).beats = s.beats := by simp [refill]
@[simp] theorem refill_past (s : State) : (refill s).past = s.past := by simp [refill]
@[simp] theorem refill_taken (s : State) : (refill s).taken = s.taken + 1 := by simp [refill]
@[simp] theorem refill_item (s : State) (k : Nat) : (refill s).item k = s.item k := by simp [State.item]

@[simp] theorem lazyInit_acc (s : State) : (lazyInit s).acc = s.acc := by unfold lazyInit; split <;> simp
@[simp] theorem lazyInit_srcClose (s : State) : (lazyInit s).srcClose = s.srcClose := by unfold lazyInit; split <;> simp
@[simp] theorem lazyInit_inText (s : State) : (lazyInit s).inText = s.inText := by unfold lazyInit; split <;> simp
@[simp] theorem lazyInit_src (s : State) : (lazyInit s).src = s.src := by unfold lazyInit; split <;> simp
@[simp] theorem lazyInit_origin (s : State) : (lazyInit s).origin = s.origin := by unfold lazyInit; split <;> simp
@[simp] theorem lazyInit_cmds (s : State) : (lazyInit s).cmds = s.cmds := by unfold lazyInit; split <;> simp
@[simp] theorem lazyInit_beats (s : State) : (lazyInit s).beats = s.beats := by unfold lazyInit; split <;> simp
@[simp] theorem lazyInit_past (s : State) : (lazyInit s).past = s.past := by unfold lazyInit; split <;> simp
@[simp] theorem lazyInit_item (s : State) (k : Nat) : (lazyInit s).item k = s.item k := by simp [State.item]

end Sys2Proof.Machine
end

