-- ==== Sys2Proof/Laws/Ops.lean ====
section
/-! SUPPORT. For each micro-operation, once, everything it can do: its cases, and what it leaves as it
was. -/

namespace Sys2Proof.Machine

theorem SameButCursor.refl (s : State) : SameButCursor s s := by simp [SameButCursor]

theorem SameButCursor.trans {s t u : State} (h : SameButCursor s t) (k : SameButCursor t u) :
    SameButCursor s u := by
  obtain ⟨h1, h2, h3, h4, h5, h6, h7, h8, h9⟩ := h
  obtain ⟨k1, k2, k3, k4, k5, k6, k7, k8, k9⟩ := k
  exact ⟨k1.trans h1, k2.trans h2, k3.trans h3, k4.trans h4, k5.trans h5, k6.trans h6,
    k7.trans h7, k8.trans h8, h9.trans k9⟩

theorem SameButCursor.item {s t : State} (h : SameButCursor s t) (k : Nat) : t.item k = s.item k :=
  State.item_eq_of_source h.2.2.2.1 h.2.2.2.2.1 k

/-- Writing ACC moves nothing else. -/
theorem sameButCursor_acc (s : State) (a : Data) : SameButCursor s { s with acc := a } := by
  simp [SameButCursor]

theorem refill_sameButCursor (s : State) : SameButCursor s (refill s) := by simp [SameButCursor]

/-- Refill on a byte (R80). -/
theorem refill_byte {s : State} {v : Byte} (h : s.nextItem = .byte v) :
    refill s = { s with taken := s.taken + 1, buf := v, cnt := 8#4, eos := false } := by
  simp [refill, h, State.latch]

/-- Refill on `End` (R80). -/
theorem refill_end {s : State} (h : s.nextItem = .endOfStream) :
    refill s = { s with taken := s.taken + 1, buf := 0x00#8, cnt := 0#4, eos := true } := by
  simp [refill, h, State.latch]

/-- Refill leaves the end state or a whole unconsumed byte. -/
theorem refill_cases (s : State) :
    ((refill s).AtEnd ∧ s.nextItem = .endOfStream) ∨
    (∃ v, s.nextItem = .byte v ∧ (refill s).eos = false ∧ (refill s).cnt = 8#4 ∧
      (refill s).buf = v) := by
  cases h : s.nextItem with
  | byte v => exact .inr ⟨v, rfl, by simp [refill_byte h]⟩
  | endOfStream => exact .inl ⟨by simp [refill_end h, State.AtEnd], rfl⟩

/-- The phase after LazyInit (R83). -/
theorem lazyInit_phase (s : State) :
    (lazyInit s).phase = if s.phase = .unopened then .opened else s.phase := by
  unfold lazyInit
  split <;> simp_all

theorem lazyInit_of_initialised {s : State} (h : s.phase ≠ .unopened) : lazyInit s = s := by
  simp [lazyInit, h]

/-- `Bit1()` at end of stream raises and writes nothing. -/
theorem bit1_atEnd {s : State} (h : s.eos = true) : bit1 s = (.exhausted, s) := by simp [bit1, h]

/-- `Byte1()` at end of stream raises and writes nothing. -/
theorem byte1_atEnd {s : State} (h : s.eos = true) : byte1 s = (.exhausted, s) := by
  simp [byte1, h]

/-- Everything `Bit1()` can do (R92). -/
theorem bit1_cases (s : State) :
    (s.eos = true ∧ bit1 s = (.exhausted, s)) ∨
    (s.eos = false ∧ s.cnt ≠ 1#4 ∧
      bit1 s = (.got (bitOf s.buf (s.cnt - 1).toNat), { s with cnt := s.cnt - 1 })) ∨
    (s.eos = false ∧ s.cnt = 1#4 ∧
      bit1 s = (.got (bitOf s.buf 0), refill { s with cnt := 0#4 })) := by
  cases he : s.eos with
  | true => exact .inl ⟨rfl, bit1_atEnd he⟩
  | false =>
    by_cases hc : s.cnt = 1#4
    · exact .inr (.inr ⟨rfl, hc, by simp [bit1, he, hc]⟩)
    · have h0 : s.cnt - 1#4 ≠ 0#4 := fun h => hc (by bv_omega)
      exact .inr (.inl ⟨rfl, hc, by simp [bit1, he, h0]⟩)

/-- Everything `Byte1()` can do (R100, R101). -/
theorem byte1_cases (s : State) :
    (s.eos = true ∧ byte1 s = (.exhausted, s)) ∨
    (s.eos = false ∧ s.cnt = 8#4 ∧ byte1 s = (.got s.buf, refill s)) ∨
    (s.eos = false ∧ s.cnt ≠ 8#4 ∧ (refill s).eos = true ∧ byte1 s = (.exhausted, refill s)) ∨
    (s.eos = false ∧ s.cnt ≠ 8#4 ∧ (refill s).eos = false ∧
      byte1 s = (.got (joinByte (lowBits s.buf s.cnt.toNat) s.cnt.toNat (refill s).buf),
        { refill s with cnt := s.cnt })) := by
  cases he : s.eos with
  | true => exact .inl ⟨rfl, byte1_atEnd he⟩
  | false =>
    by_cases hc : s.cnt = 8#4
    · exact .inr (.inl ⟨rfl, hc, by simp [byte1, he, hc]⟩)
    · cases hr : (refill s).eos with
      | true => exact .inr (.inr (.inl ⟨rfl, hc, rfl, by simp [byte1, he, hc, hr]⟩))
      | false => exact .inr (.inr (.inr ⟨rfl, hc, rfl, by simp [byte1, he, hc, hr]⟩))

theorem bit1_sameButCursor (s : State) : SameButCursor s (bit1 s).2 := by
  obtain ⟨-, h⟩ | ⟨-, -, h⟩ | ⟨-, -, h⟩ := bit1_cases s <;> simp [h, SameButCursor]

theorem byte1_sameButCursor (s : State) : SameButCursor s (byte1 s).2 := by
  obtain ⟨-, h⟩ | ⟨-, -, h⟩ | ⟨-, -, -, h⟩ | ⟨-, -, -, h⟩ := byte1_cases s <;>
    simp [h, SameButCursor]

theorem bit1_acc (s : State) : (bit1 s).2.acc = s.acc := by
  obtain ⟨-, h⟩ | ⟨-, -, h⟩ | ⟨-, -, h⟩ := bit1_cases s <;> simp [h]

theorem byte1_acc (s : State) : (byte1 s).2.acc = s.acc := by
  obtain ⟨-, h⟩ | ⟨-, -, h⟩ | ⟨-, -, -, h⟩ | ⟨-, -, -, h⟩ := byte1_cases s <;> simp [h]

/-- `Bit1()` raises only with EOS = 1 (R157). -/
theorem bit1_exhausted_eos {s t : State} (h : bit1 s = (.exhausted, t)) : t.eos = true := by
  obtain ⟨he, k⟩ | ⟨-, -, k⟩ | ⟨-, -, k⟩ := bit1_cases s <;> rw [k] at h <;> simp_all

/-- `Byte1()` raises only with EOS = 1 (R110, R157). -/
theorem byte1_exhausted_eos {s t : State} (h : byte1 s = (.exhausted, t)) : t.eos = true := by
  obtain ⟨he, k⟩ | ⟨-, -, k⟩ | ⟨-, -, he, k⟩ | ⟨-, -, -, k⟩ := byte1_cases s <;> rw [k] at h <;>
    simp_all

theorem shiftBits_zero (s : State) : shiftBits 0 s = (.got s.acc, s) := rfl

theorem shiftBytes_zero (s : State) : shiftBytes 0 s = (.got s.acc, s) := rfl

theorem shiftBits_got {s t : State} {b : Bool} (h : bit1 s = (.got b, t)) (k : Nat) :
    shiftBits (k + 1) s = shiftBits k { t with acc := shiftInBit t.acc b } := by
  simp [shiftBits, h]

theorem shiftBits_exhausted {s t : State} (h : bit1 s = (.exhausted, t)) (k : Nat) :
    shiftBits (k + 1) s = (.exhausted, t) := by
  simp [shiftBits, h]

theorem shiftBytes_got {s t : State} {x : Byte} (h : byte1 s = (.got x, t)) (k : Nat) :
    shiftBytes (k + 1) s = shiftBytes k { t with acc := shiftInByte t.acc x } := by
  simp [shiftBytes, h]

theorem shiftBytes_exhausted {s t : State} (h : byte1 s = (.exhausted, t)) (k : Nat) :
    shiftBytes (k + 1) s = (.exhausted, t) := by
  simp [shiftBytes, h]

theorem shiftBits_sameButCursor (k : Nat) (s : State) : SameButCursor s (shiftBits k s).2 := by
  induction k generalizing s with
  | zero => exact SameButCursor.refl s
  | succ k ih =>
    have hb := bit1_sameButCursor s
    cases h : bit1 s with
    | mk r t =>
      rw [h] at hb
      cases r with
      | got b => rw [shiftBits_got h]; exact (hb.trans (sameButCursor_acc t _)).trans (ih _)
      | exhausted => rw [shiftBits_exhausted h]; exact hb

theorem shiftBytes_sameButCursor (k : Nat) (s : State) : SameButCursor s (shiftBytes k s).2 := by
  induction k generalizing s with
  | zero => exact SameButCursor.refl s
  | succ k ih =>
    have hb := byte1_sameButCursor s
    cases h : byte1 s with
    | mk r t =>
      rw [h] at hb
      cases r with
      | got b => rw [shiftBytes_got h]; exact (hb.trans (sameButCursor_acc t _)).trans (ih _)
      | exhausted => rw [shiftBytes_exhausted h]; exact hb

/-- What a numeric read's response can be: the accumulated value, or the error beat (R68). -/
theorem finish_cases (r : Got Data × State) :
    (∃ v, r.1 = .got v ∧ finish r = r.2.respond .ok v) ∨
    (r.1 = .exhausted ∧ finish r = raiseError .exhausted r.2) := by
  obtain ⟨r, t⟩ := r
  cases r with
  | got v => exact .inl ⟨v, rfl, rfl⟩
  | exhausted => exact .inr ⟨rfl, rfl⟩

/-- Everything one turn of READ_TEXT can do (R120, R122). -/
theorem textBeat_cases (s : State) :
    (∃ u t, byte1 s = (.got u, t) ∧
      textBeat s = (t.emit ⟨.ok, t.eos, byteData u⟩).withText (!t.eos)) ∨
    (∃ t, byte1 s = (.exhausted, t) ∧
      textBeat s = (raiseError .exhausted t).withText false) := by
  cases h : byte1 s with
  | mk r t =>
    cases r with
    | got u => exact .inl ⟨u, t, rfl, by simp [textBeat, h]⟩
    | exhausted => exact .inr ⟨t, rfl, by simp [textBeat, h]⟩

theorem unlessClosed_closed {s : State} (h : s.phase = .closed) (f : State → State) :
    unlessClosed s f = .fault .useAfterClose := by simp [unlessClosed, h]

theorem unlessClosed_next {s : State} (h : s.phase ≠ .closed) (f : State → State) :
    unlessClosed s f = .next (f s) := by
  cases hp : s.phase <;> simp_all [unlessClosed]

end Sys2Proof.Machine
end

