-- ==== Sys2Proof/Laws/Tape.lean ====
section
/-! SUPPORT. The tape's algebra, and what one bit step and one byte step do in terms of the tape
(spec/45_sequencing_and_arithmetic.md R131, R132). -/

namespace Sys2Proof.Machine

namespace State

variable {s t : State}

theorem tapeField_zero (s : State) (p : Nat) : s.tapeField p 0 = 0 := by simp [tapeField]

/-- The first bit consumed is the most significant bit of the field (R9). -/
theorem tapeField_succ (s : State) (p w : Nat) :
    s.tapeField p (w + 1) = (s.tapeBit p).toNat * 2 ^ w + s.tapeField (p + 1) w := by
  unfold tapeField
  rw [Finset.sum_range_succ']
  simp only [Nat.add_zero, Nat.sub_zero, Nat.add_sub_cancel]
  rw [Nat.add_comm]
  congr 1
  refine Finset.sum_congr rfl fun i _ => ?_
  rw [show p + (i + 1) = p + 1 + i by omega, show w - (i + 1) = w - 1 - i by omega]

/-- Concatenation of fields (R133). -/
theorem tapeField_add (s : State) (p a b : Nat) :
    s.tapeField p (a + b) = s.tapeField p a * 2 ^ b + s.tapeField (p + a) b := by
  induction a generalizing p with
  | zero => simp [tapeField_zero]
  | succ a ih =>
    rw [show a + 1 + b = (a + b) + 1 by omega, tapeField_succ, tapeField_succ, ih,
      show p + 1 + a = p + (a + 1) by omega]
    ring

/-- A field of `w` bits is below `2^w` (R11). -/
theorem tapeField_lt (s : State) (p w : Nat) : s.tapeField p w < 2 ^ w := by
  induction w generalizing p with
  | zero => simp [tapeField_zero]
  | succ w ih =>
    rw [tapeField_succ, pow_succ]
    have := ih (p + 1)
    cases s.tapeBit p <;> simp <;> omega

theorem tapeBit_congr (h : ∀ k, t.item k = s.item k) (p : Nat) : t.tapeBit p = s.tapeBit p := by
  simp [tapeBit, streamByte, h]

theorem tapeField_congr (h : ∀ k, t.item k = s.item k) (p w : Nat) :
    t.tapeField p w = s.tapeField p w := by
  simp [tapeField, tapeBit_congr h]

theorem streamByte_of_item {k : Nat} {v : Byte} (h : s.item k = .byte v) : s.streamByte k = v := by
  simp [streamByte, h, itemByte]

theorem isByte_iff {i : SrcItem} : isByte i = true ↔ ∃ v, i = .byte v := by
  cases i <;> simp [isByte]

theorem item_end_of_not_isByte {i : SrcItem} (h : isByte i = false) : i = .endOfStream := by
  cases i <;> simp_all [isByte]

/-- ACC plays no part in where the registers stand. -/
theorem AtTape.withAcc {p : Nat} (h : s.AtTape p) (a : Data) : ({ s with acc := a } : State).AtTape p :=
  h

/-- Where EOS = 0 the registers stand on a byte. -/
theorem AtTape.live {p : Nat} (h : s.AtTape p) (he : s.eos = false) :
    ∃ v, s.item (p / 8) = .byte v ∧ s.buf = v ∧ s.cnt.toNat = 8 - p % 8 := by
  obtain ⟨-, -, hb, hend⟩ := h
  cases hi : s.item (p / 8) with
  | byte v => exact ⟨v, rfl, (hb v hi).2⟩
  | endOfStream => simp [(hend hi).2.1] at he

/-- Where EOS = 1 the registers stand at the end of the tape. -/
theorem AtTape.ended {p : Nat} (h : s.AtTape p) (he : s.eos = true) :
    s.item (p / 8) = .endOfStream ∧ p % 8 = 0 ∧ s.AtEnd := by
  obtain ⟨-, -, hb, hend⟩ := h
  cases hi : s.item (p / 8) with
  | byte v => simp [(hb v hi).1] at he
  | endOfStream => exact ⟨rfl, (hend hi).1, (hend hi).2⟩

/-- EOS = 0 exactly on a byte. -/
theorem AtTape.eos_iff {p : Nat} (h : s.AtTape p) : s.eos = false ↔ isByte (s.item (p / 8)) = true := by
  cases he : s.eos with
  | false => obtain ⟨v, hv, -⟩ := h.live he; simp [hv, isByte]
  | true => simp [(h.ended he).1, isByte]

/-- The position the registers stand at is POS (R24). -/
theorem AtTape.pos_eq {p : Nat} (h : s.AtTape p) : s.pos = p := by
  have ht := h.1
  cases he : s.eos with
  | false =>
    obtain ⟨v, -, -, hc⟩ := h.live he
    simp [pos, byteCount, he]
    omega
  | true =>
    obtain ⟨-, hp, -, hc, -⟩ := h.ended he
    simp [pos, byteCount, he, hc]
    omega

/-- Refill at the last bit of byte `k` moves the registers to the start of item `k + 1`. -/
theorem atTape_refill {k : Nat} (ht : s.taken = k) (hb : ∀ j < k, isByte (s.item j) = true) :
    (refill s).AtTape (8 * k) := by
  have hn : s.nextItem = s.item k := by simp [nextItem, ht]
  have h8 : 8 * k / 8 = k := by omega
  refine ⟨by simp [ht], fun j hj => by simpa using hb j (by omega), fun v hv => ?_, fun he => ?_⟩
  · rw [refill_item, h8, ← hn] at hv
    simp [refill_byte hv]
  · rw [refill_item, h8, ← hn] at he
    simp [refill_end he, State.AtEnd]

end State

theorem bitOf_eq (v : Byte) (i : Nat) : bitOf v i = v.getLsbD i := rfl

/-- `Bit1()` on the tape: the bit at the position, which moves on by one (R92, R9). -/
theorem bit1_atTape {s : State} {p : Nat} (h : s.AtTape p) (hb : isByte (s.item (p / 8)) = true) :
    ∃ t, bit1 s = (.got (s.tapeBit p), t) ∧ t.AtTape (p + 1) := by
  have he := h.eos_iff.2 hb
  obtain ⟨v, hv, hbuf, hc⟩ := h.live he
  have htb : s.tapeBit p = bitOf s.buf (7 - p % 8) := by
    simp [State.tapeBit, State.streamByte_of_item hv, hbuf]
  obtain ⟨he', -⟩ | ⟨-, hne, k⟩ | ⟨-, h1, k⟩ := bit1_cases s
  · simp [he] at he'
  · have hn : s.cnt.toNat ≠ 1 := fun hh => hne (by bv_omega)
    have hsub : (s.cnt - 1).toNat = 7 - p % 8 := by
      have : s.cnt.toNat < 16 := s.cnt.isLt
      rw [BitVec.toNat_sub_of_le (by bv_omega)]
      simp
      omega
    refine ⟨_, by rw [k, htb, hsub], ?_⟩
    have hdiv : (p + 1) / 8 = p / 8 := by omega
    have hmod : (p + 1) % 8 = p % 8 + 1 := by omega
    refine ⟨by rw [hdiv]; exact h.1, by rw [hdiv]; exact h.2.1, fun v' hv' => ?_, fun hend => ?_⟩
    · rw [hdiv] at hv'
      have hvv : s.item (p / 8) = .byte v' := hv'
      refine ⟨he, (h.2.2.1 v' hvv).2.1, ?_⟩
      show (s.cnt - 1).toNat = _
      rw [hsub, hmod]
      omega
    · rw [hdiv] at hend
      have : s.item (p / 8) = .endOfStream := hend
      simp [this] at hv
  · have h1' : s.cnt.toNat = 1 := by simp [h1]
    have h7 : p % 8 = 7 := by omega
    refine ⟨_, by rw [k, htb, h7], ?_⟩
    have hp : p + 1 = 8 * (p / 8 + 1) := by omega
    rw [hp]
    refine State.atTape_refill (s := { s with cnt := 0#4 }) h.1 fun j hj => ?_
    show isByte (s.item j) = true
    rcases Nat.lt_succ_iff_lt_or_eq.1 hj with hj | hj
    · exact h.2.1 j hj
    · rw [hj]; exact hb

/-- One bit shifted into an accumulator that has room: `2 · ACC + b` (R131). -/
theorem shiftInBit_toNat (a : Data) (b : Bool) (h : a.toNat < 2 ^ 63) :
    (shiftInBit a b).toNat = 2 * a.toNat + b.toNat := by
  have : shiftInBit a b = a <<< 1 + (BitVec.ofBool b).setWidth 64 := by
    unfold shiftInBit
    rw [BitVec.add_eq_or_of_and_eq_zero]
    ext i hi
    cases b <;> simp
    omega
  rw [this, BitVec.toNat_add]
  simp [BitVec.toNat_shiftLeft, Nat.shiftLeft_eq]
  cases b <;> simp <;> omega

/-- One byte shifted into an accumulator that has room: `256 · ACC + x` (R131). -/
theorem shiftInByte_toNat (a : Data) (x : Byte) (h : a.toNat < 2 ^ 56) :
    (shiftInByte a x).toNat = 256 * a.toNat + x.toNat := by
  have : shiftInByte a x = a <<< 8 + x.setWidth 64 := by
    unfold shiftInByte
    rw [BitVec.add_eq_or_of_and_eq_zero]
    ext i hi
    simp [BitVec.getElem_setWidth]
    intro h1 h2
    exact BitVec.getLsbD_of_ge x i (by omega)
  rw [this, BitVec.toNat_add]
  have := x.isLt
  simp [BitVec.toNat_shiftLeft, Nat.shiftLeft_eq]
  omega

end Sys2Proof.Machine
end

