-- ==== Sys2Proof/Laws/Reads.lean ====
section
/-! SUPPORT. The byte step and the accumulating loops in terms of the tape
(spec/42_byte_and_char_reads.md R100, R101; spec/45_sequencing_and_arithmetic.md R132). -/

namespace Sys2Proof.Machine

/-- Bit `j` of a field of `w` bits is the tape bit `w − 1 − j` places in (R9). -/
theorem State.testBit_tapeField (s : State) (p w j : Nat) :
    (s.tapeField p w).testBit j = (decide (j < w) && s.tapeBit (p + (w - 1 - j))) := by
  induction w generalizing p with
  | zero => simp [State.tapeField_zero]
  | succ w ih =>
    rw [State.tapeField_succ, Nat.mul_comm, Nat.testBit_two_pow_mul_add _ (State.tapeField_lt ..)]
    by_cases hj : j < w
    · rw [if_pos hj, ih, show p + 1 + (w - 1 - j) = p + (w + 1 - 1 - j) by omega]
      simp [hj, Nat.lt_succ_of_lt hj]
    · rw [if_neg hj]
      by_cases hw : j = w
      · subst hw
        cases hb : s.tapeBit p <;> simp [hb]
      · have h1 : j - w ≠ 0 := by omega
        have h2 : ¬ j < w + 1 := by omega
        have h3 : Nat.testBit 1 (j - w) = false :=
          Nat.testBit_lt_two_pow (Nat.one_lt_two_pow h1)
        cases s.tapeBit p <;> simp [h2, h3]

/-- A byte whose bits are the next eight tape bits, the first one in bit 7, is the field. -/
theorem toNat_eq_tapeField {s : State} {p : Nat} {x : Byte}
    (h : ∀ i < 8, x.getLsbD (7 - i) = s.tapeBit (p + i)) : x.toNat = s.tapeField p 8 := by
  refine Nat.eq_of_testBit_eq fun j => ?_
  rw [State.testBit_tapeField]
  by_cases hj : j < 8
  · have := h (7 - j) (by omega)
    rw [show 7 - (7 - j) = j by omega, ← BitVec.testBit_toNat] at this
    simpa [hj] using this
  · have : x.toNat < 2 ^ j := lt_of_lt_of_le x.isLt (Nat.pow_le_pow_right (by omega) (by omega))
    simp [hj, Nat.testBit_lt_two_pow this]

/-- The two parts of a composed byte (R100): `x[7:8−n] = BUF_old[n−1:0]`, `x[7−n:0] =
BUF_new[7:n]`. -/
theorem joinByte_bit {v next : Byte} {n i : Nat} (hn : 1 ≤ n) (hn8 : n ≤ 7) (hi : i < 8) :
    (joinByte (lowBits v n) n next).getLsbD i =
      if i < 8 - n then next.getLsbD (i + n) else v.getLsbD (i - (8 - n)) := by
  unfold joinByte lowBits
  simp only [BitVec.getLsbD_or, BitVec.getLsbD_shiftLeft, BitVec.getLsbD_ushiftRight,
    BitVec.getLsbD_setWidth]
  by_cases h : i < 8 - n
  · simp [h, Nat.add_comm n i]
  · have : next.getLsbD (n + i) = false := BitVec.getLsbD_of_ge _ _ (by omega)
    have h1 : i - (8 - n) < 8 := by omega
    have h2 : i - (8 - n) < n := by omega
    simp [h, hi, this, h1, h2]

/-- `Byte1()` on the tape (R100, R132): the next eight bits, and the position moves on by eight. -/
theorem byte1_atTape {s : State} {p : Nat} (h : s.AtTape p)
    (hb : ∀ k < (p + 8 + 7) / 8, isByte (s.item k) = true) :
    ∃ x t, byte1 s = (.got x, t) ∧ x.toNat = s.tapeField p 8 ∧ t.AtTape (p + 8) := by
  have hb0 := hb (p / 8) (by omega)
  have he := h.eos_iff.2 hb0
  obtain ⟨v, hv, hbuf, hc⟩ := h.live he
  have hsv := State.streamByte_of_item hv
  have hdiv : (p + 8) / 8 = p / 8 + 1 := by omega
  have hmod : (p + 8) % 8 = p % 8 := by omega
  have hnext : s.nextItem = s.item (p / 8 + 1) := by simp [State.nextItem, h.1]
  have hle : ∀ j < p / 8 + 1, isByte (s.item j) = true := fun j hj => hb j (by omega)
  obtain ⟨he', -⟩ | ⟨-, h8, k⟩ | ⟨-, hne, hr, k⟩ | ⟨-, hne, hr, k⟩ := byte1_cases s
  · simp [he] at he'
  · have hp0 : p % 8 = 0 := by simp [h8] at hc; omega
    refine ⟨_, _, k, toNat_eq_tapeField fun i hi => ?_, ?_⟩
    · rw [State.tapeBit, show (p + i) / 8 = p / 8 by omega, show (p + i) % 8 = i by omega, hsv, hbuf]
      rfl
    · rw [show p + 8 = 8 * (p / 8 + 1) by omega]
      exact State.atTape_refill h.1 hle
  · have hp0 : p % 8 ≠ 0 := fun hh => hne (by bv_omega)
    obtain ⟨-, hend⟩ | ⟨v', -, hf, -⟩ := refill_cases s
    · have := hb (p / 8 + 1) (by omega)
      rw [← hnext, hend] at this
      simp [isByte] at this
    · simp [hf] at hr
  · have hp0 : p % 8 ≠ 0 := fun hh => hne (by bv_omega)
    obtain ⟨hA, -⟩ | ⟨v', hv', hf, -, hbv⟩ := refill_cases s
    · simp [hA.1] at hr
    · have hs2 := State.streamByte_of_item (hnext ▸ hv')
      refine ⟨_, _, k, toNat_eq_tapeField fun i hi => ?_, ?_⟩
      · rw [joinByte_bit (by omega) (by omega) (by omega), hbv, hbuf, hc, State.tapeBit]
        by_cases hlt : p % 8 + i < 8
        · rw [if_neg (by omega), show (p + i) / 8 = p / 8 by omega,
            show (p + i) % 8 = p % 8 + i by omega, hsv, bitOf_eq]
          congr 1
          omega
        · rw [if_pos (by omega), show (p + i) / 8 = p / 8 + 1 by omega,
            show (p + i) % 8 = p % 8 + i - 8 by omega, hs2, bitOf_eq]
          congr 1
          omega
      · refine ⟨by simp [h.1, hdiv], by rw [hdiv]; simpa [State.item] using hle, fun v2 hv2 => ?_,
          fun hend => ?_⟩
        · rw [hdiv] at hv2
          have : s.item (p / 8 + 1) = .byte v2 := by simpa [State.item] using hv2
          rw [← hnext, hv'] at this
          refine ⟨hf, by simpa [hbv] using this, ?_⟩
          rw [hmod]
          exact hc
        · rw [hdiv] at hend
          have : s.item (p / 8 + 1) = .endOfStream := by simpa [State.item] using hend
          rw [← hnext, hv'] at this
          simp at this

/-- `Byte1()` with fewer than eight bits left on an initialised block (R101): it raises and leaves the
end of the tape. -/
theorem byte1_short {s : State} {p n : Nat} (h : s.AtTape p) (hn : s.StreamLength n)
    (hp : p ≤ 8 * n) (hlt : 8 * n < p + 8) :
    ∃ t, byte1 s = (.exhausted, t) ∧ t.AtTape (8 * n) := by
  obtain ⟨hend, hbefore⟩ := hn
  by_cases hpn : p = 8 * n
  · have hi : s.item (p / 8) = .endOfStream := by rw [show p / 8 = n by omega]; exact hend
    have he : s.eos = true := by
      have := h.eos_iff
      rw [hi] at this
      simpa [isByte] using this
    exact ⟨s, byte1_atEnd he, hpn ▸ h⟩
  · have hdiv : p / 8 + 1 = n := by omega
    have he := h.eos_iff.2 (hbefore (p / 8) (by omega))
    obtain ⟨v, hv, hbuf, hc⟩ := h.live he
    have hnext : s.nextItem = .endOfStream := by
      simp [State.nextItem, h.1, hdiv, hend]
    obtain ⟨he', -⟩ | ⟨-, h8, k⟩ | ⟨-, hne, hr, k⟩ | ⟨-, hne, hr, k⟩ := byte1_cases s
    · simp [he] at he'
    · have : s.cnt.toNat = 8 := by simp [h8]
      omega
    · exact ⟨_, k, State.atTape_refill (by rw [h.1, hdiv]) hbefore⟩
    · simp [refill_end hnext] at hr

/-- The bit loop when the bits are there (R94, R132). -/
theorem shiftBits_atTape {s : State} {p w : Nat} (h : s.AtTape p)
    (hb : ∀ k < (p + w + 7) / 8, isByte (s.item k) = true)
    (hacc : s.acc.toNat * 2 ^ w + 2 ^ w ≤ 2 ^ 64) :
    ∃ v t, shiftBits w s = (.got v, t) ∧ t.AtTape (p + w) ∧
      v.toNat = s.acc.toNat * 2 ^ w + s.tapeField p w := by
  induction w generalizing s p with
  | zero => exact ⟨_, _, shiftBits_zero s, h, by simp [State.tapeField_zero]⟩
  | succ w ih =>
    obtain ⟨t, ht, htp⟩ := bit1_atTape h (hb (p / 8) (by omega))
    have hsc : SameButCursor s t := by simpa [ht] using bit1_sameButCursor s
    have ha : t.acc = s.acc := by simpa [ht] using bit1_acc s
    have hroom : s.acc.toNat < 2 ^ 63 := by
      rw [pow_succ] at hacc
      have := Nat.one_le_two_pow (n := w)
      nlinarith
    have hsn : (shiftInBit t.acc (s.tapeBit p)).toNat = 2 * s.acc.toNat + (s.tapeBit p).toNat := by
      rw [ha]; exact shiftInBit_toNat _ _ hroom
    obtain ⟨v, u, hu, hup, hv⟩ := ih (s := { t with acc := shiftInBit t.acc (s.tapeBit p) })
      (p := p + 1) htp
      (fun k hk => (congrArg isByte (hsc.item k)).trans (hb k (by omega)))
      (by
        show (shiftInBit t.acc (s.tapeBit p)).toNat * 2 ^ w + 2 ^ w ≤ 2 ^ 64
        rw [hsn]
        rw [pow_succ] at hacc
        have := Bool.toNat_le (s.tapeBit p)
        nlinarith [Nat.one_le_two_pow (n := w)])
    refine ⟨v, u, by rw [shiftBits_got ht]; exact hu, by rw [show p + (w + 1) = p + 1 + w by omega]; exact hup, ?_⟩
    rw [hv]
    show (shiftInBit t.acc (s.tapeBit p)).toNat * 2 ^ w +
      State.tapeField { t with acc := shiftInBit t.acc (s.tapeBit p) } (p + 1) w = _
    rw [hsn, State.tapeField_congr (s := s) (hsc.trans (sameButCursor_acc t _)).item,
      State.tapeField_succ]
    ring

/-- The bit loop when the bits run out (R95): it raises and leaves the end of the tape. -/
theorem shiftBits_short {s : State} {p w n : Nat} (h : s.AtTape p) (hn : s.StreamLength n)
    (hp : p ≤ 8 * n) (hlt : 8 * n < p + w) :
    ∃ t, shiftBits w s = (.exhausted, t) ∧ t.AtTape (8 * n) := by
  induction w generalizing s p with
  | zero => omega
  | succ w ih =>
    by_cases hpn : p = 8 * n
    · have he : s.eos = true := by
        have := h.eos_iff
        rw [show p / 8 = n by omega, hn.1] at this
        simpa [isByte] using this
      exact ⟨s, shiftBits_exhausted (bit1_atEnd he) w, hpn ▸ h⟩
    · obtain ⟨t, ht, htp⟩ := bit1_atTape h (hn.2 (p / 8) (by omega))
      have hsc : SameButCursor s t := by simpa [ht] using bit1_sameButCursor s
      obtain ⟨u, hu, hup⟩ := ih (s := { t with acc := shiftInBit t.acc (s.tapeBit p) }) (p := p + 1) htp
        ⟨(hsc.item n).trans hn.1, fun k hk => (congrArg isByte (hsc.item k)).trans (hn.2 k hk)⟩
        (by omega) (by omega)
      exact ⟨u, by rw [shiftBits_got ht]; exact hu, hup⟩

/-- The byte loop when the bits are there (R110, R132). -/
theorem shiftBytes_atTape {s : State} {p n : Nat} (h : s.AtTape p)
    (hb : ∀ k < (p + 8 * n + 7) / 8, isByte (s.item k) = true)
    (hacc : s.acc.toNat * 2 ^ (8 * n) + 2 ^ (8 * n) ≤ 2 ^ 64) :
    ∃ v t, shiftBytes n s = (.got v, t) ∧ t.AtTape (p + 8 * n) ∧
      v.toNat = s.acc.toNat * 2 ^ (8 * n) + s.tapeField p (8 * n) := by
  induction n generalizing s p with
  | zero => exact ⟨_, _, shiftBytes_zero s, h, by simp [State.tapeField_zero]⟩
  | succ n ih =>
    obtain ⟨x, t, ht, hx, htp⟩ := byte1_atTape h (fun k hk => hb k (by omega))
    have hsc : SameButCursor s t := by simpa [ht] using byte1_sameButCursor s
    have ha : t.acc = s.acc := by simpa [ht] using byte1_acc s
    have hpow : 2 ^ (8 * (n + 1)) = 256 * 2 ^ (8 * n) := by rw [Nat.mul_succ, pow_add]; ring
    have hone := Nat.one_le_two_pow (n := 8 * n)
    have hroom : s.acc.toNat < 2 ^ 56 := by
      rw [hpow] at hacc
      nlinarith
    have hsn : (shiftInByte t.acc x).toNat = 256 * s.acc.toNat + x.toNat := by
      rw [ha]; exact shiftInByte_toNat _ _ hroom
    have hxl : x.toNat < 256 := x.isLt
    obtain ⟨v, u, hu, hup, hv⟩ := ih (s := { t with acc := shiftInByte t.acc x })
      (p := p + 8) htp
      (fun k hk => (congrArg isByte (hsc.item k)).trans (hb k (by omega)))
      (by
        show (shiftInByte t.acc x).toNat * 2 ^ (8 * n) + 2 ^ (8 * n) ≤ 2 ^ 64
        rw [hsn]
        rw [hpow] at hacc
        nlinarith)
    refine ⟨v, u, by rw [shiftBytes_got ht]; exact hu,
      by rw [show p + 8 * (n + 1) = p + 8 + 8 * n by omega]; exact hup, ?_⟩
    rw [hv]
    show (shiftInByte t.acc x).toNat * 2 ^ (8 * n) +
      State.tapeField { t with acc := shiftInByte t.acc x } (p + 8) (8 * n) = _
    rw [hsn, State.tapeField_congr (s := s) (hsc.trans (sameButCursor_acc t _)).item, hx,
      show 8 * (n + 1) = 8 + 8 * n by omega, State.tapeField_add, pow_add]
    ring

/-- The byte loop when the bits run out (R110): it raises and leaves the end of the tape. -/
theorem shiftBytes_short {s : State} {p k n : Nat} (h : s.AtTape p) (hn : s.StreamLength n)
    (hp : p ≤ 8 * n) (hlt : 8 * n < p + 8 * k) :
    ∃ t, shiftBytes k s = (.exhausted, t) ∧ t.AtTape (8 * n) := by
  induction k generalizing s p with
  | zero => omega
  | succ k ih =>
    by_cases hpn : 8 * n < p + 8
    · obtain ⟨t, ht, htp⟩ := byte1_short h hn hp hpn
      exact ⟨t, shiftBytes_exhausted ht k, htp⟩
    · obtain ⟨x, t, ht, -, htp⟩ := byte1_atTape h (fun j hj => hn.2 j (by omega))
      have hsc : SameButCursor s t := by simpa [ht] using byte1_sameButCursor s
      obtain ⟨u, hu, hup⟩ := ih (s := { t with acc := shiftInByte t.acc x }) (p := p + 8) htp
        ⟨(hsc.item n).trans hn.1, fun k hk => (congrArg isByte (hsc.item k)).trans (hn.2 k hk)⟩
        (by omega) (by omega)
      exact ⟨u, by rw [shiftBytes_got ht]; exact hu, hup⟩

end Sys2Proof.Machine
end

