-- ==== Sys2Proof/Laws/Exec.lean ====
section
/-! SUPPORT. What a command and a step can do, said once: the shape of every read, the inversion of
`exec` and `step`, and the reads on the tape. Later proofs cite these and unfold no meaning. -/

namespace Sys2Proof.Machine

theorem legalBitsWidth_iff {w : BitVec 8} :
    legalBitsWidth w = true ↔ 1 ≤ w.toNat ∧ w.toNat ≤ 32 := by
  rw [legalBitsWidth, Bool.and_eq_true, decide_eq_true_iff, decide_eq_true_iff]
  exact Iff.rfl

theorem legalCharWidth_iff {w : BitVec 8} :
    legalCharWidth w = true ↔ 1 ≤ w.toNat ∧ w.toNat ≤ 16 := by
  rw [legalCharWidth, Bool.and_eq_true, decide_eq_true_iff, decide_eq_true_iff]
  exact Iff.rfl

/-- The shape of every read of a fixed width: a bit loop of at most 32 steps, or a byte loop of at
most 8, after LazyInit (R94, R104, R110). -/
theorem exec_of_readWidth {i : Instr} {w : Nat} (h : readWidth i = some w) :
    (1 ≤ w ∧ w ≤ 32 ∧ ∀ s, exec i s = unlessClosed s fun s => readBitsOp w (lazyInit s)) ∨
    (∃ k, w = 8 * k ∧ 1 ≤ k ∧ k ≤ 8 ∧
      ∀ s, exec i s = unlessClosed s fun s => readBytesOp k (lazyInit s)) := by
  cases i with
  | isAtEnd => simp [readWidth] at h
  | readText => simp [readWidth] at h
  | close => simp [readWidth] at h
  | readBit =>
    obtain rfl : 1 = w := by simpa [readWidth] using h
    exact .inl ⟨by omega, by omega, fun s => rfl⟩
  | readBits v =>
    simp only [readWidth] at h
    split at h
    · next hl =>
      obtain rfl := Option.some.inj h
      have := legalBitsWidth_iff.1 hl
      exact .inl ⟨this.1, this.2, fun s => by simp [exec, execReadBits, hl, widthOf]⟩
    · simp at h
  | readByte =>
    obtain rfl : 8 = w := by simpa [readWidth] using h
    exact .inr ⟨1, rfl, by omega, by omega, fun s => rfl⟩
  | readChar v =>
    simp only [readWidth] at h
    split at h
    · next hl =>
      obtain rfl := Option.some.inj h
      have := legalCharWidth_iff.1 hl
      by_cases h8 : v.toNat = 8
      · exact .inr ⟨1, h8, by omega, by omega, fun s => by
          simp [exec, execReadChar, hl, widthOf, h8]⟩
      · exact .inl ⟨this.1, by omega, fun s => by simp [exec, execReadChar, hl, widthOf, h8]⟩
    · simp at h
  | readShort =>
    obtain rfl : 16 = w := by simpa [readWidth] using h
    exact .inr ⟨2, rfl, by omega, by omega, fun s => rfl⟩
  | readInt =>
    obtain rfl : 32 = w := by simpa [readWidth] using h
    exact .inr ⟨4, rfl, by omega, by omega, fun s => rfl⟩
  | readLong =>
    obtain rfl : 64 = w := by simpa [readWidth] using h
    exact .inr ⟨8, rfl, by omega, by omega, fun s => rfl⟩
  | readFloat =>
    obtain rfl : 32 = w := by simpa [readWidth] using h
    exact .inr ⟨4, rfl, by omega, by omega, fun s => rfl⟩
  | readDouble =>
    obtain rfl : 64 = w := by simpa [readWidth] using h
    exact .inr ⟨8, rfl, by omega, by omega, fun s => rfl⟩

/-- A loop a read runs, with ACC cleared, from an initialised state. -/
def ReadLoop (w : Nat) (s : State) (r : Got Data × State) : Prop :=
  (1 ≤ w ∧ w ≤ 32 ∧ r = shiftBits w { s with acc := 0 }) ∨
  (∃ k, w = 8 * k ∧ 1 ≤ k ∧ k ≤ 8 ∧ r = shiftBytes k { s with acc := 0 })

theorem ReadLoop.sameButCursor {w : Nat} {s : State} {r : Got Data × State} (h : ReadLoop w s r) :
    SameButCursor s r.2 := by
  obtain ⟨-, -, rfl⟩ | ⟨k, -, -, -, rfl⟩ := h
  · exact (sameButCursor_acc s 0).trans (shiftBits_sameButCursor w _)
  · exact (sameButCursor_acc s 0).trans (shiftBytes_sameButCursor k _)

/-- A read outside CLOSED finishes the loop of its width (R94, R104, R110). -/
theorem exec_read {i : Instr} {w : Nat} (h : readWidth i = some w) {s : State}
    (hp : s.phase ≠ .closed) :
    ∃ r, ReadLoop w (lazyInit s) r ∧ exec i s = .next (finish r) := by
  obtain ⟨h1, h2, he⟩ | ⟨k, hk, h1, h2, he⟩ := exec_of_readWidth h
  · exact ⟨_, .inl ⟨h1, h2, rfl⟩, by rw [he, unlessClosed_next hp]; rfl⟩
  · exact ⟨_, .inr ⟨k, hk, h1, h2, rfl⟩, by rw [he, unlessClosed_next hp]; rfl⟩

/-- Every command is a read of a fixed width, has an illegal width, or is one of the three others. -/
theorem readWidth_or (i : Instr) :
    (∃ w, readWidth i = some w) ∨ i.wellFormed = false ∨ i = .isAtEnd ∨ i = .readText ∨
      i = .close := by
  cases i with
  | readBits w =>
    cases h : legalBitsWidth w with
    | true => exact .inl ⟨w.toNat, by simp [readWidth, h]⟩
    | false => exact .inr (.inl h)
  | readChar w =>
    cases h : legalCharWidth w with
    | true => exact .inl ⟨w.toNat, by simp [readWidth, h]⟩
    | false => exact .inr (.inl h)
  | _ => simp [readWidth]

theorem exec_illFormed {i : Instr} (h : i.wellFormed = false) {s : State} (hp : s.phase ≠ .closed) :
    exec i s = .next (raiseError .invalid s) := by
  cases i with
  | readBits w =>
    have hl : legalBitsWidth w = false := h
    simp [exec, execReadBits, unlessClosed_next hp, hl]
  | readChar w =>
    have hl : legalCharWidth w = false := h
    simp [exec, execReadChar, unlessClosed_next hp, hl]
  | _ => simp [Instr.wellFormed] at h

theorem exec_isAtEnd {s : State} (hp : s.phase ≠ .closed) :
    exec .isAtEnd s = .next ((lazyInit s).respond .ok (flagData (lazyInit s).eos)) := by
  simp [exec, execIsAtEnd, unlessClosed_next hp]

/-- READ_TEXT's own entry test agrees with the one its first byte step makes (R120). -/
theorem exec_readText {s : State} (hp : s.phase ≠ .closed) :
    exec .readText s = .next
      (if (lazyInit s).eos then raiseError .exhausted (lazyInit s) else textBeat (lazyInit s)) := by
  simp [exec, execReadText, unlessClosed_next hp]

theorem exec_closed {i : Instr} (hi : i ≠ .close) {s : State} (hp : s.phase = .closed) :
    exec i s = .fault .useAfterClose := by
  cases i with
  | close => exact absurd rfl hi
  | _ =>
    simp [exec, execIsAtEnd, execReadBit, execReadBits, execReadByte, execReadChar, execReadShort,
      execReadInt, execReadLong, execReadFloat, execReadDouble, execReadText,
      unlessClosed_closed hp]

theorem exec_close_opened {s : State} (hp : s.phase = .opened) :
    exec .close s = .next ({ s with phase := .closed, srcClose := true }.respond .ok 0) := by
  simp [exec, execClose, hp]

theorem exec_close_closed {s : State} (hp : s.phase = .closed) :
    exec .close s = .next (s.respond .ok 0) := by
  simp [exec, execClose, hp]

theorem exec_close_unopened {s : State} (hp : s.phase = .unopened) :
    exec .close s = .fault .closeBeforeUse := by
  simp [exec, execClose, hp]

/-- Everything a command can do, when it has a next state. -/
theorem exec_cases {i : Instr} {s t : State} (h : exec i s = .next t) :
    (i = .close ∧ s.phase = .opened ∧
      t = { s with phase := .closed, srcClose := true }.respond .ok 0) ∨
    (i = .close ∧ s.phase = .closed ∧ t = s.respond .ok 0) ∨
    (s.phase ≠ .closed ∧ i.wellFormed = false ∧ t = raiseError .invalid s) ∨
    (s.phase ≠ .closed ∧ i = .isAtEnd ∧
      t = (lazyInit s).respond .ok (flagData (lazyInit s).eos)) ∨
    (s.phase ≠ .closed ∧ i = .readText ∧ (lazyInit s).eos = true ∧
      t = raiseError .exhausted (lazyInit s)) ∨
    (s.phase ≠ .closed ∧ i = .readText ∧ (lazyInit s).eos = false ∧
      t = textBeat (lazyInit s)) ∨
    (s.phase ≠ .closed ∧ ∃ w r, readWidth i = some w ∧ ReadLoop w (lazyInit s) r ∧
      t = finish r) := by
  by_cases hc : i = .close
  · subst hc
    cases hp : s.phase with
    | unopened => simp [exec_close_unopened hp] at h
    | opened =>
      rw [exec_close_opened hp] at h
      exact .inl ⟨rfl, rfl, (Host.Outcome.next.inj h).symm⟩
    | closed =>
      rw [exec_close_closed hp] at h
      exact .inr (.inl ⟨rfl, rfl, (Host.Outcome.next.inj h).symm⟩)
  · by_cases hp : s.phase = .closed
    · simp [exec_closed hc hp] at h
    · obtain ⟨w, hw⟩ | hf | rfl | rfl | rfl := readWidth_or i
      · obtain ⟨r, hr, he⟩ := exec_read hw hp
        rw [he] at h
        exact .inr (.inr (.inr (.inr (.inr (.inr
          ⟨hp, w, r, hw, hr, (Host.Outcome.next.inj h).symm⟩)))))
      · rw [exec_illFormed hf hp] at h
        exact .inr (.inr (.inl ⟨hp, hf, (Host.Outcome.next.inj h).symm⟩))
      · rw [exec_isAtEnd hp] at h
        exact .inr (.inr (.inr (.inl ⟨hp, rfl, (Host.Outcome.next.inj h).symm⟩)))
      · rw [exec_readText hp] at h
        cases he : (lazyInit s).eos with
        | true =>
          simp only [he, if_true] at h
          exact .inr (.inr (.inr (.inr (.inl ⟨hp, rfl, rfl, (Host.Outcome.next.inj h).symm⟩))))
        | false =>
          simp only [he] at h
          exact .inr (.inr (.inr (.inr (.inr (.inl
            ⟨hp, rfl, rfl, (Host.Outcome.next.inj h).symm⟩)))))
      · exact absurd rfl hc

/-- A command outside CLOSED, other than CLOSE, always has a next state. -/
theorem exec_next {i : Instr} (hi : i ≠ .close) {s : State} (hp : s.phase ≠ .closed) :
    ∃ t, exec i s = .next t := by
  obtain ⟨w, hw⟩ | hf | rfl | rfl | rfl := readWidth_or i
  · obtain ⟨r, -, he⟩ := exec_read hw hp; exact ⟨_, he⟩
  · exact ⟨_, exec_illFormed hf hp⟩
  · exact ⟨_, exec_isAtEnd hp⟩
  · exact ⟨_, exec_readText hp⟩
  · exact absurd rfl hi

/-- Everything a step can do. -/
theorem step_cases (s : State) :
    (s.inText = true ∧ step s = .next (textBeat s)) ∨
    (s.inText = false ∧ s.cmds = [] ∧ step s = .next s) ∨
    (∃ c rest, s.inText = false ∧ s.cmds = c :: rest ∧
      ((∃ i, decode c = .ok i ∧ step s = exec i { s with cmds := rest }) ∨
       (∃ e, decode c = .error e ∧ step s = execReserved { s with cmds := rest }))) := by
  cases hi : s.inText with
  | true => exact .inl ⟨rfl, by simp [step, hi]⟩
  | false =>
    cases hc : s.cmds with
    | nil => exact .inr (.inl ⟨rfl, rfl, by simp [step, hi, nextCommand, hc]⟩)
    | cons c rest =>
      refine .inr (.inr ⟨c, rest, rfl, rfl, ?_⟩)
      cases hd : decode c with
      | ok i => exact .inl ⟨i, rfl, by simp [step, hi, nextCommand, hc, hd]⟩
      | error e => exact .inr ⟨e, rfl, by simp [step, hi, nextCommand, hc, hd]⟩

theorem execReserved_next {s : State} (hp : s.phase ≠ .closed) :
    execReserved s = .next (raiseError .invalid s) := unlessClosed_next hp _

theorem execReserved_closed {s : State} (hp : s.phase = .closed) :
    execReserved s = .fault .useAfterClose := unlessClosed_closed hp _

/-- Outside CLOSED a coherent block, once LazyInit has run, stands on the tape at POS. -/
theorem State.Coherent.lazyInit {s : State} (h : s.Coherent) :
    (lazyInit s).AtTape s.pos := by
  by_cases hu : s.phase = .unopened
  · obtain ⟨ht, he, hc, -⟩ := h.unopened hu
    have hp : s.pos = 8 * 0 := by simp [State.pos, State.byteCount, ht]
    rw [hp, Machine.lazyInit, if_pos hu]
    exact State.atTape_refill ht (fun j hj => absurd hj (Nat.not_lt_zero j))
  · rw [lazyInit_of_initialised hu]
    exact h.opened hu

/-- A read's loop with the bits there (R132). -/
theorem ReadLoop.got {w p : Nat} {s : State} {r : Got Data × State} (h : ReadLoop w s r)
    (ht : s.AtTape p) (hb : ∀ k < (p + w + 7) / 8, isByte (s.item k) = true) :
    ∃ v t, r = (.got v, t) ∧ t.AtTape (p + w) ∧ v = BitVec.ofNat 64 (s.tapeField p w) := by
  have hlt := State.tapeField_lt s p w
  have key : ∀ v : Data, v.toNat = 0 * 2 ^ w + s.tapeField p w →
      v = BitVec.ofNat 64 (s.tapeField p w) := fun v hv => by
    rw [← BitVec.toNat_inj, hv, BitVec.toNat_ofNat, Nat.mod_eq_of_lt]
    · omega
    · have : v.toNat < 2 ^ 64 := v.isLt
      omega
  obtain ⟨-, h2, rfl⟩ | ⟨k, rfl, -, h2, rfl⟩ := h
  · obtain ⟨v, t, hs, hat, hv⟩ := shiftBits_atTape (s := { s with acc := 0 }) ht hb (by
      show 0 * 2 ^ w + 2 ^ w ≤ 2 ^ 64
      rw [Nat.zero_mul, Nat.zero_add]
      exact Nat.pow_le_pow_right (by omega) (by omega))
    exact ⟨v, t, hs, hat, key v hv⟩
  · obtain ⟨v, t, hs, hat, hv⟩ := shiftBytes_atTape (s := { s with acc := 0 }) ht hb (by
      show 0 * 2 ^ (8 * k) + 2 ^ (8 * k) ≤ 2 ^ 64
      rw [Nat.zero_mul, Nat.zero_add]
      exact Nat.pow_le_pow_right (by omega) (by omega))
    exact ⟨v, t, hs, hat, key v hv⟩

/-- A read's loop when the bits run out (R95, R110). -/
theorem ReadLoop.short {w p n : Nat} {s : State} {r : Got Data × State} (h : ReadLoop w s r)
    (ht : s.AtTape p) (hn : s.StreamLength n) (hp : p ≤ 8 * n) (hlt : 8 * n < p + w) :
    ∃ t, r = (.exhausted, t) ∧ t.AtTape (8 * n) := by
  obtain ⟨-, -, rfl⟩ | ⟨k, rfl, -, -, rfl⟩ := h
  · exact shiftBits_short (s := { s with acc := 0 }) ht hn hp hlt
  · exact shiftBytes_short (s := { s with acc := 0 }) ht hn hp hlt

/-- The tape position never lies past the end of the stream. -/
theorem State.AtTape.le_length {s : State} {p n : Nat} (h : s.AtTape p) (hn : s.StreamLength n) :
    p ≤ 8 * n := by
  by_contra hlt
  have hle : n ≤ p / 8 := by omega
  rcases Nat.lt_or_eq_of_le hle with hl | he
  · have := h.2.1 n hl
    simp [hn.1, isByte] at this
  · have := (h.2.2.2 (he ▸ hn.1)).1
    omega

/-- Enough bits, or a stream that ends too early. -/
theorem bitsRemain_or_short (s : State) (p w : Nat) :
    (∀ k < (p + w + 7) / 8, isByte (s.item k) = true) ∨
    ∃ n, s.StreamLength n ∧ 8 * n < p + w := by
  by_cases hall : ∀ k < (p + w + 7) / 8, isByte (s.item k) = true
  · exact .inl hall
  · push Not at hall
    obtain ⟨k, hk, hne⟩ := hall
    have hex : ∃ n, isByte (s.item n) = false := ⟨k, by simpa using hne⟩
    refine .inr ⟨Nat.find hex, ⟨State.item_end_of_not_isByte (Nat.find_spec hex), fun j hj => ?_⟩, ?_⟩
    · simpa using Nat.find_min hex hj
    · have := Nat.find_le (n := k) (h := hex) (by simpa using hne)
      omega

/-- `POS + w ≤ 8N` of R132 is what `BitsRemain` says. -/
theorem bitsRemain_iff {s : State} {n w : Nat} (hn : s.StreamLength n) :
    s.BitsRemain w ↔ s.pos + w ≤ 8 * n := by
  constructor
  · intro h
    by_contra hlt
    have := h n (by omega)
    simp [hn.1, isByte] at this
  · intro h k hk
    exact hn.2 k (by omega)

end Sys2Proof.Machine
end

