-- ==== Sys2Proof/Laws/PerInstr.lean ====
section
/-! SUPPORT. The layout of every command's word (spec/30_encoding.md R61, R62, R64), one lemma per
constructor. -/

namespace Sys2Proof.Laws.Layout

/-- The `op` number of the table of R62. -/
def opNumber : Instr → BitVec 4
  | .isAtEnd => 0x0#4
  | .readBit => 0x1#4
  | .readBits _ => 0x2#4
  | .readByte => 0x3#4
  | .readChar _ => 0x4#4
  | .readShort => 0x5#4
  | .readInt => 0x6#4
  | .readLong => 0x7#4
  | .readFloat => 0x8#4
  | .readDouble => 0x9#4
  | .readText => 0xA#4
  | .close => 0xB#4

/-- The operand field: the width where the command takes one, else 0x00 (R63, R64). -/
def operandField : Instr → BitVec 8
  | .readBits w => w
  | .readChar w => w
  | .isAtEnd | .readBit | .readByte | .readShort | .readInt | .readLong => 0x00#8
  | .readFloat | .readDouble | .readText | .close => 0x00#8

/-- The command's word carries its number in bits 15:12, zeros in bits 11:8 and its operand in bits
7:0. -/
def Statement (i : Instr) : Prop :=
  opField (encode i) = opNumber i ∧ rsvField (encode i) = 0#4 ∧ wField (encode i) = operandField i

theorem of_format {i : Instr} {op : BitVec 4} {w : BitVec 8} (h : encode i = formatWord op w)
    (ho : opNumber i = op) (hw : operandField i = w) : Statement i := by
  simp [Statement, h, ho, hw]

theorem isAtEnd : Statement .isAtEnd := of_format rfl rfl rfl
theorem readBit : Statement .readBit := of_format rfl rfl rfl
theorem readBits (w : BitVec 8) : Statement (.readBits w) := of_format rfl rfl rfl
theorem readByte : Statement .readByte := of_format rfl rfl rfl
theorem readChar (w : BitVec 8) : Statement (.readChar w) := of_format rfl rfl rfl
theorem readShort : Statement .readShort := of_format rfl rfl rfl
theorem readInt : Statement .readInt := of_format rfl rfl rfl
theorem readLong : Statement .readLong := of_format rfl rfl rfl
theorem readFloat : Statement .readFloat := of_format rfl rfl rfl
theorem readDouble : Statement .readDouble := of_format rfl rfl rfl
theorem readText : Statement .readText := of_format rfl rfl rfl
theorem close : Statement .close := of_format rfl rfl rfl

end Sys2Proof.Laws.Layout
end

