-- ==== Sys2Proof/Tests/Slice0.lean ====
section
/-! SUPPORT. The model's own tests, with their expected values from spec/95_test_vectors.md (the
vector is named) or worked out by hand from the rule named; and, for every statement with
hypotheses, a concrete state and operands that meet them, clause by clause. -/

namespace Sys2Proof.Tests

open Sys2Proof Sys2Proof.Machine

-- Helpers ------------------------------------------------------------------------------------------

/-- The source that yields these bytes and then `End`. -/
def bytes (l : List Byte) : List SrcItem := l.map .byte ++ [.endOfStream]

/-- A block just reset over these bytes. -/
def fresh (l : List Byte) : State := State.start (bytes l) []

/-- An initialised block over these bytes, at tape position `p`. -/
def openAt (l : List Byte) (p : Nat) : State :=
  { fresh l with
    phase := .opened, taken := p / 8 + 1, buf := l.getD (p / 8) 0x00#8
    cnt := if p / 8 < l.length then BitVec.ofNat 4 (8 - p % 8) else 0#4
    eos := decide (l.length ≤ p / 8) }

/-- The same, with a READ_TEXT running. -/
def textAt (l : List Byte) (p : Nat) : State := { openAt l p with inText := true }

/-- The same, closed. -/
def closedAt (l : List Byte) (p : Nat) : State :=
  { openAt l p with phase := .closed, srcClose := true }

/-- What the vectors list of a state: the beats, PHASE, BUF, CNT, EOS, F. -/
def view (s : State) : List Beat × Phase × Byte × Nat × Bool × Nat :=
  (s.beats, s.phase, s.buf, s.cnt.toNat, s.eos, s.taken)

/-- The view of a next state. -/
def seen (o : Host.Outcome State Fault Refusal) :
    Option (List Beat × Phase × Byte × Nat × Bool × Nat) :=
  match o with
  | .next t => some (view t)
  | .fault _ => none
  | .refused _ => none

/-- The fault of a step. -/
def faultOf (o : Host.Outcome State Fault Refusal) : Option Fault :=
  match o with
  | .next _ => none
  | .fault r => some r
  | .refused _ => none

/-- The next state of a command, or the state itself where there is none. -/
def after (o : Host.Outcome State Fault Refusal) (s : State) : State :=
  match o with
  | .next t => t
  | .fault _ => s
  | .refused _ => s

def okBeat (d : Data) : Beat := ⟨.ok, true, d⟩
def exhaustedBeat : Beat := ⟨.exhaustedInput, true, 0⟩
def invalidBeat : Beat := ⟨.invalidArgument, true, 0⟩

-- Legal widths (R63): each check refuses an ill-formed term ------------------------------------------

theorem test_wellFormed_readBits_refuses :
    (Instr.readBits 0).wellFormed = false ∧ (Instr.readBits 33).wellFormed = false ∧
    (Instr.readBits 255).wellFormed = false := by decide

theorem test_wellFormed_readBits_accepts :
    (Instr.readBits 1).wellFormed = true ∧ (Instr.readBits 32).wellFormed = true := by decide

theorem test_wellFormed_readChar_refuses :
    (Instr.readChar 0).wellFormed = false ∧ (Instr.readChar 17).wellFormed = false ∧
    (Instr.readChar 32).wellFormed = false := by decide

theorem test_wellFormed_readChar_accepts :
    (Instr.readChar 1).wellFormed = true ∧ (Instr.readChar 16).wellFormed = true := by decide

-- Decoding: words written out bit by bit as `op rsv w` (R61, R62; vectors 2.1) -----------------------

theorem test_decode_isAtEnd : decode 0b0000_0000_00000000#16 = .ok .isAtEnd := rfl
theorem test_decode_readBit : decode 0b0001_0000_00000000#16 = .ok .readBit := rfl
theorem test_decode_readBits_least : decode 0b0010_0000_00000001#16 = .ok (.readBits 1) := rfl
theorem test_decode_readBits_most : decode 0b0010_0000_00100000#16 = .ok (.readBits 32) := rfl
theorem test_decode_readByte : decode 0b0011_0000_00000000#16 = .ok .readByte := rfl
theorem test_decode_readChar_least : decode 0b0100_0000_00000001#16 = .ok (.readChar 1) := rfl
theorem test_decode_readChar_most : decode 0b0100_0000_00010000#16 = .ok (.readChar 16) := rfl
theorem test_decode_readShort : decode 0b0101_0000_00000000#16 = .ok .readShort := rfl
theorem test_decode_readInt : decode 0b0110_0000_00000000#16 = .ok .readInt := rfl
theorem test_decode_readLong : decode 0b0111_0000_00000000#16 = .ok .readLong := rfl
theorem test_decode_readFloat : decode 0b1000_0000_00000000#16 = .ok .readFloat := rfl
theorem test_decode_readDouble : decode 0b1001_0000_00000000#16 = .ok .readDouble := rfl
theorem test_decode_readText : decode 0b1010_0000_00000000#16 = .ok .readText := rfl
theorem test_decode_close : decode 0b1011_0000_00000000#16 = .ok .close := rfl

/-- Illegal widths decode; their command answers INVALID_ARGUMENT (R63). -/
theorem test_decode_illegal_widths :
    decode 0x2000#16 = .ok (.readBits 0) ∧ decode 0x2021#16 = .ok (.readBits 33) ∧
    decode 0x20FF#16 = .ok (.readBits 255) ∧ decode 0x4011#16 = .ok (.readChar 17) :=
  ⟨rfl, rfl, rfl, rfl⟩

theorem test_decode_reserved :
    decode 0x2104#16 = .error .rsvNotZero ∧ decode 0x0100#16 = .error .rsvNotZero ∧
    decode 0x3001#16 = .error .strayOperand ∧ decode 0xB001#16 = .error .strayOperand ∧
    decode 0xC000#16 = .error .unusedOp ∧ decode 0xD000#16 = .error .unusedOp ∧
    decode 0xE000#16 = .error .unusedOp ∧ decode 0xF000#16 = .error .unusedOp ∧
    decode 0xFFFF#16 = .error .rsvNotZero :=
  ⟨rfl, rfl, rfl, rfl, rfl, rfl, rfl, rfl, rfl⟩

/-- P1 and P3 as the assembler of R70 lays them out. -/
theorem test_assemble :
    assemble [.command .readBit, .command (.readBits 4), .command .close, .word 0xC000#16] =
      [0x1000#16, 0x2004#16, 0xB000#16, 0xC000#16] := by decide

theorem test_disassemble :
    disassemble 0x2020#16 = "READ_BITS 32" ∧ disassemble 0xB000#16 = "CLOSE" ∧
    disassemble 0xC000#16 = ".word 0xC000" := by decide

-- One step of each command ---------------------------------------------------------------------------

/-- Q2, third row. -/
theorem test_isAtEnd_at_end :
    seen (exec .isAtEnd (openAt [0xAB#8] 8)) = some ([okBeat 1], .opened, 0x00#8, 0, true, 2) := by
  decide

/-- Vectors 2.2: a zero byte is data; the query initialises. -/
theorem test_isAtEnd_first_command :
    seen (exec .isAtEnd (fresh [0x00#8])) = some ([okBeat 0], .opened, 0x00#8, 8, false, 1) := by
  decide

/-- Q3: the eighth bit, with the eager refill. -/
theorem test_readBit_eighth :
    seen (exec .readBit (openAt [0x80#8, 0x01#8] 7)) =
      some ([okBeat 0], .opened, 0x01#8, 8, false, 2) := by decide

/-- S5. -/
theorem test_readBit_empty_source :
    seen (exec .readBit (fresh [])) = some ([exhaustedBeat], .opened, 0x00#8, 0, true, 1) := by
  decide

/-- B18: unaligned, 32 bits, four refills. -/
theorem test_readBits_unaligned :
    seen (exec (.readBits 32) (openAt [0xDE#8, 0xAD#8, 0xBE#8, 0xEF#8, 0x01#8] 5)) =
      some ([okBeat 0xD5B7DDE0#64], .opened, 0x01#8, 3, false, 5) := by decide

/-- I1, E2: an illegal width leaves the block untouched. -/
theorem test_readBits_illegal :
    seen (exec (.readBits 33) (openAt [0xA5#8] 4)) =
      some ([invalidBeat], .opened, 0xA5#8, 4, false, 1) := by decide

/-- Y3: `(0b101 << 5) | (0x3C >> 3)`. -/
theorem test_readByte_unaligned :
    seen (exec .readByte (openAt [0xA5#8, 0x3C#8] 5)) =
      some ([okBeat 0xA7], .opened, 0x3C#8, 3, false, 2) := by decide

/-- Y9: no partial byte is delivered. -/
theorem test_readByte_last_byte_unaligned :
    seen (exec .readByte (openAt [0xA5#8] 1)) =
      some ([exhaustedBeat], .opened, 0x00#8, 0, true, 2) := by decide

/-- H3: nine bits across a byte boundary. -/
theorem test_readChar_straddles :
    seen (exec (.readChar 9) (openAt [0xC3#8, 0x5A#8, 0x96#8] 10)) =
      some ([okBeat 0x0D4], .opened, 0x96#8, 5, false, 3) := by decide

/-- Vectors 2.6: 17 is illegal here, and the block stays UNOPENED. -/
theorem test_readChar_illegal :
    seen (exec (.readChar 17) (fresh [0xDE#8])) =
      some ([invalidBeat], .unopened, 0x00#8, 0, false, 0) := by decide

/-- M2. -/
theorem test_readShort_unaligned :
    seen (exec .readShort (openAt [0x9C#8, 0x3A#8, 0x5F#8, 0x01#8] 5)) =
      some ([okBeat 0x874B], .opened, 0x5F#8, 3, false, 3) := by decide

/-- M3: no sign extension. -/
theorem test_readShort_zero_extends :
    seen (exec .readShort (fresh [0xFF#8, 0xFF#8])) =
      some ([okBeat 0xFFFF], .opened, 0x00#8, 0, true, 3) := by decide

/-- S3: big-endian. -/
theorem test_readInt_big_endian :
    seen (exec .readInt (fresh [0x00#8, 0x00#8, 0x80#8, 0x3F#8])) =
      some ([okBeat 0x803F], .opened, 0x00#8, 0, true, 5) := by decide

/-- M5: too short; no partial data. -/
theorem test_readInt_too_short :
    seen (exec .readInt (fresh [0x12#8, 0x34#8, 0x56#8])) =
      some ([exhaustedBeat], .opened, 0x00#8, 0, true, 4) := by decide

/-- M2. -/
theorem test_readLong_unaligned :
    seen (exec .readLong (openAt [0x9C#8, 0x3A#8, 0x5F#8, 0x01#8, 0xE2#8, 0x77#8, 0xB8#8, 0x44#8,
      0xD3#8, 0x6F#8] 5)) =
      some ([okBeat 0x874BE03C4EF7089A#64], .opened, 0xD3#8, 3, false, 9) := by decide

/-- S4: the bit pattern, unchanged. -/
theorem test_readFloat_pattern :
    seen (exec .readFloat (fresh [0x00#8, 0x00#8, 0x80#8, 0x3F#8])) =
      some ([okBeat 0x803F], .opened, 0x00#8, 0, true, 5) := by decide

/-- M4. -/
theorem test_readDouble_pattern :
    seen (exec .readDouble (fresh [0x3F#8, 0xF0#8, 0#8, 0#8, 0#8, 0#8, 0#8, 0#8])) =
      some ([okBeat 0x3FF0000000000000#64], .opened, 0x00#8, 0, true, 9) := by decide

/-- T1: the first of several beats is not the last. -/
theorem test_readText_first_beat :
    seen (exec .readText (fresh [0x48#8, 0x69#8])) =
      some ([⟨.ok, false, 0x48⟩], .opened, 0x69#8, 8, false, 2) := by decide

/-- T4: the turn that cannot fill a unit. -/
theorem test_readText_last_beat_unaligned :
    seen (step (textAt [0xAB#8, 0xCD#8, 0xEF#8] 17)) =
      some ([exhaustedBeat], .opened, 0x00#8, 0, true, 4) := by decide

/-- L4: the second byte is never fetched. -/
theorem test_close_mid_stream :
    seen (exec .close (openAt [0x12#8, 0x34#8] 3)) =
      some ([okBeat 0], .closed, 0x12#8, 5, false, 1) := by decide

/-- P6: the two faults. -/
theorem test_close_faults :
    faultOf (exec .close (fresh [0x12#8])) = some .closeBeforeUse ∧
    faultOf (exec .readByte (closedAt [0x12#8] 8)) = some .useAfterClose := by decide

/-- E1, L2: a reserved word at end of stream and in CLOSED. -/
theorem test_reserved_words :
    seen (step { openAt [] 0 with cmds := [0xF000#16] }) =
      some ([invalidBeat], .opened, 0x00#8, 0, true, 1) ∧
    faultOf (step { closedAt [0x12#8] 8 with cmds := [0xC000#16] }) = some .useAfterClose := by
  decide

/-- The word the host places is what the first step after reset runs (R62, R152). -/
theorem test_withFetchWord :
    seen (step (State.reset.withFetchWord 16 0x2000)) =
      some ([invalidBeat], .unopened, 0x00#8, 0, false, 0) := by decide

/-- R69, R122: the beats of T4 are one response without a value. -/
theorem test_gather_voids_units :
    gather [] [okBeat 1, ⟨.ok, false, 0x57⟩, ⟨.ok, false, 0x9B⟩, exhaustedBeat] =
      [⟨.ok, [1]⟩, ⟨.exhaustedInput, []⟩] := by decide

/-- R171, R122: READ_TEXT of `[0x48, 0x69, 0x21]` is cut off by reset after its first unit; READ_TEXT
again answers OK with the one unit 0x21: the unit 0x48 is in no response, and the lookahead byte 0x69 is
lost (R172). -/
theorem test_reset_inside_readText :
    let s := after (exec .readText (fresh [0x48#8, 0x69#8, 0x21#8])) (fresh [])
    let t := after (exec .readText s.applyReset) s
    s.beats = [⟨.ok, false, 0x48⟩] ∧ s.responses = [] ∧ t.responses = [⟨.ok, [0x21]⟩] := by
  decide

/-- R42, R43: whichever end wires the source raises, the block sees an `End`. -/
theorem test_signal_end_wires :
    let y := Signal.System.start (bytes []) []
    let item := fun w => (y.inputs ⟨false, false, true, false, w, .quiet⟩).item
    item .eos = .endOfStream ∧ item .err = .endOfStream ∧ item .both = .endOfStream := by decide

/-- Y8 through the transitions of R138: idle, decode, fill, decode, step, fill, step, response. -/
theorem test_signal_readByte :
    let y := Signal.System.start (bytes [0xA5#8, 0x3C#8]) [0x3000#16]
    (y.prompt 7).block.outputs = ⟨false, true, 0b00#2, true, 0xA5, false, false⟩ ∧
    (y.prompt 8).beats = [okBeat 0xA5] := by decide

-- Witnesses of the statements' hypotheses ------------------------------------------------------------

theorem item_byte {l : List Byte} {p k : Nat} (h : k < l.length) :
    (openAt l p).item k = .byte (l.getD k 0x00#8) := by
  simp [State.item, openAt, fresh, State.start, State.reset, srcAt, bytes, h,
    List.getElem?_append_left]

theorem item_end {l : List Byte} {p : Nat} : (openAt l p).item l.length = .endOfStream := by
  simp [State.item, openAt, fresh, State.start, State.reset, srcAt, bytes]

theorem openAt_atTape {l : List Byte} {p : Nat} (h : p < 8 * l.length ∨ p = 8 * l.length) :
    (openAt l p).AtTape p := by
  refine ⟨rfl, fun k hk => ?_, fun v hv => ?_, fun he => ?_⟩
  · rw [item_byte (by omega)]; rfl
  · have hlt : p / 8 < l.length := by
      rcases h with h | rfl
      · omega
      · rw [show 8 * l.length / 8 = l.length by omega, item_end] at hv
        cases hv
    rw [item_byte hlt] at hv
    injection hv with hv
    refine ⟨by simp [openAt, hlt], by simpa [openAt] using hv, ?_⟩
    simp [openAt, hlt]
    omega
  · rcases h with h | rfl
    · rw [item_byte (by omega)] at he
      cases he
    · simp [openAt, State.AtEnd]

/-- The helper's states are coherent. -/
theorem openAt_coherent {l : List Byte} {p : Nat} (h : p < 8 * l.length ∨ p = 8 * l.length) :
    (openAt l p).Coherent where
  opened _ := by rw [(openAt_atTape h).pos_eq]; exact openAt_atTape h
  unopened hp := by cases hp
  closeWire := by simp [openAt, fresh, State.start, State.reset]
  text ht := by cases ht

theorem textAt_coherent {l : List Byte} {p : Nat} (h : p < 8 * l.length) :
    (textAt l p).Coherent where
  opened := (openAt_coherent (.inl h)).opened
  unopened hp := by cases hp
  closeWire := (openAt_coherent (.inl h)).closeWire
  text _ := ⟨rfl, decide_eq_false (by omega)⟩

theorem fresh_coherent (l : List Byte) : (fresh l).Coherent where
  opened hp := absurd rfl hp
  unopened _ := ⟨rfl, rfl, rfl, rfl⟩
  closeWire := by simp [fresh, State.start, State.reset]
  text ht := by cases ht

theorem openAt_length (l : List Byte) (p : Nat) : (openAt l p).StreamLength l.length :=
  ⟨item_end, fun k hk => by rw [item_byte hk]; rfl⟩

/-- Two bytes, at the start, in the middle of a byte, at its last bit, and at the end. -/
def two : List Byte := [0xA5#8, 0x3C#8]

theorem two_coherent {p : Nat} (h : p ≤ 16) : (openAt two p).Coherent :=
  openAt_coherent (by simp [two]; omega)

theorem witness_BitsRemainingReadsCntAndEos :
    (openAt two 15).RegistersLegal ∧ (openAt two 15).phase ≠ .unopened ∧
    (openAt two 15).eos = false ∧ (openAt two 16).RegistersLegal ∧ (openAt two 16).eos = true := by
  simp only [State.RegistersLegal, State.AtEnd]
  decide

theorem witness_AlignedIsByteBoundary :
    (openAt two 8).Coherent ∧ (openAt two 8).phase ≠ .unopened ∧ (openAt two 8).aligned = true :=
  ⟨two_coherent (by omega), by decide, by decide⟩

/-- A block at `p` with one word presented. -/
def given (s : State) (c : CmdWord) : State := { s with cmds := [c] }

/-- The helper's states keep the law of the item count: in the middle of the first byte of a source
that goes on with a second one, and at the end. -/
theorem openAt_oneItemAhead {l : List Byte} {p : Nat} (h : p < 8 * l.length ∨ p = 8 * l.length) :
    (openAt l p).OneItemAhead where
  unopened hp := by cases hp
  finite _ n hn := by
    have hat := openAt_atTape h
    have := hat.le_length hn
    rw [hat.1, hat.pos_eq, Nat.min_eq_left (by omega)]
  goesOn _ _ := by rw [(openAt_atTape h).1, (openAt_atTape h).pos_eq]
  ended _ := by
    have hat := openAt_atTape h
    have heos := hat.eos_iff
    rw [hat.1, Nat.add_sub_cancel]
    cases he : (openAt l p).eos with
    | true => exact ⟨fun _ => (hat.ended he).1, fun _ => rfl⟩
    | false =>
      obtain ⟨v, hv, -⟩ := hat.live he
      simp [hv]

theorem witness_ItemsTakenIsOneAheadOfDelivered :
    (given (openAt two 3) (encode .readByte)).RegistersLegal ∧ (openAt two 3).OneItemAhead ∧
    (given (openAt two 3) (encode .readByte)).OneItemAhead ∧
    (given (openAt two 3) (encode .readByte)).inText = false ∧
    (given (openAt two 3) (encode .readByte)).cmds = [encode .readByte] ∧
    readWidth .readByte = some 8 ∧
    step (given (openAt two 3) (encode .readByte)) =
      .next (after (step (given (openAt two 3) (encode .readByte))) (openAt two 3)) ∧
    (after (step (given (openAt two 3) (encode .readByte))) (openAt two 3)).beats =
      (given (openAt two 3) (encode .readByte)).beats ++ [okBeat 0x29] := by
  have h := openAt_oneItemAhead (l := two) (p := 3) (.inl (by decide))
  refine ⟨?_, h, ⟨h.unopened, h.finite, h.goesOn, h.ended⟩, rfl, rfl, rfl, rfl, by decide⟩
  simp only [State.RegistersLegal, State.AtEnd]
  decide

theorem witness_DecodeAgreesWithTheTable :
    decode 0x2020#16 = .ok (.readBits 32) ∧ decode 0xFFFF#16 = .error .rsvNotZero := ⟨rfl, rfl⟩

theorem witness_StepExecutesTheDecodedCommand :
    (given (openAt two 0) 0x7000#16).inText = false ∧
    (given (openAt two 0) 0x7000#16).cmds = [0x7000#16] ∧ decode 0x7000#16 = .ok .readLong :=
  ⟨rfl, rfl, rfl⟩

theorem witness_WordsAreDealtWithInOrder :
    (given (closedAt two 3) (encode .close)).phase = .closed ∧
    0xC000#16 ≠ encode .close ∧
    (given (openAt two 3) 0xC000#16).phase ≠ .closed ∧ decode 0xC000#16 = .error .unusedOp ∧
    decode 0x2021#16 = .ok (.readBits 33) ∧ (Instr.readBits 33).wellFormed = false ∧
    (given (fresh two) (encode .close)).phase = .unopened ∧
    decode 0x2020#16 = .ok (.readBits 32) ∧ (Instr.readBits 32).wellFormed = true ∧
    Instr.readBits 32 ≠ .close ∧ (given (fresh two) 0x2020#16).inText = false ∧
    (given (fresh two) 0x2020#16).cmds = [0x2020#16] := by
  refine ⟨rfl, by decide, by decide, rfl, rfl, rfl, rfl, rfl, rfl, by decide, rfl, rfl⟩

theorem witness_RunningTextTakesNoCommand : (textAt two 8).inText = true := rfl

theorem witness_IdleBlockStaysAsItIs : (openAt two 8).Finished := ⟨rfl, rfl⟩

theorem witness_RefillTakesOneItem :
    (openAt two 0).nextItem = .byte 0x3C#8 ∧ (openAt two 8).nextItem = .endOfStream := ⟨rfl, rfl⟩

theorem witness_LazyInitOpensOnce :
    (fresh two).phase = .unopened ∧ (fresh two).Coherent ∧ (openAt two 8).phase ≠ .unopened ∧
    (fresh two).phase ≠ .closed ∧ (Instr.readBits 32).wellFormed = true ∧ Instr.readBits 32 ≠ .close :=
  ⟨rfl, fresh_coherent two, by decide, by decide, by decide, by decide⟩

theorem witness_BitStepTakesTheTopUnconsumedBit :
    (openAt two 16).eos = true ∧ (openAt two 15).eos = false ∧
    (openAt two 15).cnt.toNat = 0 + 1 ∧ (openAt two 8).eos = false ∧
    (openAt two 8).cnt.toNat = 7 + 1 := by decide

theorem witness_ByteStepJoinsOldAndNewBits :
    (openAt two 16).eos = true ∧ (openAt two 8).cnt = 8#4 ∧
    (openAt two 9).cnt.toNat = 7 ∧ (openAt two 9).nextItem = .endOfStream ∧
    (openAt two 7).cnt.toNat = 1 ∧ (openAt two 7).eos = false ∧
    (openAt two 7).nextItem = .byte 0x3C#8 := by decide

theorem witness_ByteStepIsEightBitSteps :
    (openAt two 3).RegistersLegal ∧ (openAt two 3).phase = .opened ∧
    (byte1 (openAt two 3)).1 = .got 0x29#8 ∧
    (openAt two 9).RegistersLegal ∧ (byte1 (openAt two 9)).1 = .exhausted := by
  simp only [State.RegistersLegal, State.AtEnd]
  decide

theorem witness_ReadsFollowTheTapeLaw :
    readWidth (.readBits 13) = some 13 ∧ (openAt two 3).Coherent ∧ (openAt two 3).phase ≠ .closed ∧
    (openAt two 3).BitsRemain 13 ∧ readWidth (.readBits 14) = some 14 ∧
    (openAt two 3).StreamLength 2 ∧ 8 * 2 < (openAt two 3).pos + 14 :=
  ⟨rfl, two_coherent (by omega), by decide, by unfold State.BitsRemain; decide, rfl,
    openAt_length two 3, by decide⟩

/-- A legal width, or a fixed one, for every read of the table. -/
theorem witness_readWidth :
    readWidth .readBit = some 1 ∧ readWidth (.readBits 32) = some 32 ∧
    readWidth .readByte = some 8 ∧ readWidth (.readChar 16) = some 16 ∧
    readWidth .readShort = some 16 ∧ readWidth .readInt = some 32 ∧ readWidth .readLong = some 64 ∧
    readWidth .readFloat = some 32 ∧ readWidth .readDouble = some 64 := by decide

theorem witness_IsAtEndTellsTheEndOfTheTape :
    (openAt two 16).Coherent ∧ (openAt two 16).phase ≠ .closed ∧ (fresh two).Coherent ∧
    (fresh two).phase ≠ .closed :=
  ⟨two_coherent (by omega), by decide, fresh_coherent two, by decide⟩

theorem witness_IsAtEndDeliversEos :
    (fresh two).phase ≠ .closed ∧ (openAt two 16).phase = .opened ∧ (openAt two 16).eos = true ∧
    (openAt two 15).phase ≠ .closed ∧ (openAt two 15).eos = false := by
  decide

theorem witness_BitReadsAccumulateBitSteps :
    (openAt two 0).phase ≠ .closed ∧ 1 ≤ (1 : BitVec 8).toNat ∧ (32 : BitVec 8).toNat ≤ 32 ∧
    (shiftBits 1 { lazyInit (openAt two 0) with acc := 0 }).1 = .got 1 ∧
    (shiftBits 32 { lazyInit (openAt two 0) with acc := 0 }).1 = .exhausted := by decide

theorem witness_ByteReadsAccumulateByteSteps :
    (Instr.readDouble, 8) ∈ [(Instr.readByte, 1), (.readShort, 2), (.readInt, 4), (.readLong, 8),
      (.readFloat, 4), (.readDouble, 8)] ∧ (fresh two).phase ≠ .closed ∧
    (shiftBytes 2 { lazyInit (fresh two) with acc := 0 }).1 = .got 0xA53C ∧
    (shiftBytes 8 { lazyInit (fresh two) with acc := 0 }).1 = .exhausted := by decide

theorem witness_IllegalWidthChangesNothing :
    (openAt two 16).phase ≠ .closed ∧ (fresh two).phase ≠ .closed ∧ (0 : BitVec 8).toNat = 0 ∧
    33 ≤ (33 : BitVec 8).toNat ∧ 17 ≤ (17 : BitVec 8).toNat := by decide

theorem witness_ReadCharIsReadBits :
    (openAt two 3).RegistersLegal ∧ (openAt two 3).phase ≠ .closed ∧
    1 ≤ (1 : BitVec 8).toNat ∧ (16 : BitVec 8).toNat ≤ 16 ∧ (fresh two).RegistersLegal := by
  simp only [State.RegistersLegal, State.AtEnd]
  decide

theorem witness_ShortCircuitWidthsAgree :
    (openAt two 3).RegistersLegal ∧ (openAt two 3).phase ≠ .closed :=
  ⟨witness_ReadCharIsReadBits.1, by decide⟩

theorem witness_ReadBitsIsReadBitRepeated :
    (openAt two 3).Coherent ∧ (openAt two 3).phase ≠ .closed ∧ (openAt two 3).inText = false ∧
    1 ≤ (13 : BitVec 8).toNat ∧ (13 : BitVec 8).toNat ≤ 32 ∧ (openAt two 3).BitsRemain 13 ∧
    (openAt two 3).StreamLength 2 ∧ 8 * 2 < (openAt two 3).pos + (14 : BitVec 8).toNat :=
  ⟨two_coherent (by omega), by decide, rfl, by decide, by decide,
    by unfold State.BitsRemain; decide, openAt_length two 3, by decide⟩

theorem witness_ConsecutiveReadsConcatenate :
    (fresh two).Coherent ∧ (fresh two).phase ≠ .closed ∧ readWidth (.readBits 3) = some 3 ∧
    readWidth (.readChar 13) = some 13 ∧ readWidth .readShort = some (3 + 13) ∧
    (fresh two).BitsRemain (3 + 13) :=
  ⟨fresh_coherent two, by decide, rfl, rfl, rfl, by unfold State.BitsRemain; decide⟩

theorem witness_ResultsFitTheirWidth :
    readWidth .readShort = some 16 ∧
    exec .readShort (fresh two) = .next (after (exec .readShort (fresh two)) (fresh two)) ∧
    (after (exec .readShort (fresh two)) (fresh two)).beats = (fresh two).beats ++ [okBeat 0xA53C] :=
  ⟨rfl, rfl, by decide⟩

theorem witness_SuccessfulReadsTakeTheStatedItems :
    readWidth .readByte = some 8 ∧ (openAt two 3).RegistersLegal ∧ (openAt two 3).phase = .opened ∧
    (openAt two 3).eos = false ∧
    exec .readByte (openAt two 3) = .next (after (exec .readByte (openAt two 3)) (openAt two 3)) ∧
    (after (exec .readByte (openAt two 3)) (openAt two 3)).beats =
      (openAt two 3).beats ++ [okBeat 0x29] :=
  ⟨rfl, witness_ReadCharIsReadBits.1, rfl, rfl, rfl, by decide⟩

theorem witness_ReadTextDeliversItsFirstUnit :
    (openAt two 8).Coherent ∧ (openAt two 8).phase ≠ .closed ∧ (openAt two 8).inText = false ∧
    (openAt two 8).BitsRemain 8 ∧ (openAt two 16).Coherent ∧ (openAt two 16).inText = false ∧
    (openAt two 16).StreamLength ((openAt two 16).pos / 8) ∧ (openAt two 16).pos % 8 = 0 :=
  ⟨two_coherent (by omega), by decide, rfl, by unfold State.BitsRemain; decide,
    two_coherent (by omega), rfl, openAt_length two 16, by decide⟩

/-- A word presented plays no part in coherence. -/
theorem given_coherent {s : State} (h : s.Coherent) (c : CmdWord) : (given s c).Coherent where
  opened := h.opened
  unopened := h.unopened
  closeWire := h.closeWire
  text := h.text

theorem witness_AlignedReadTextDeliversTheRest :
    let s := given (openAt two 8) (encode .readText)
    s.Coherent ∧ s.BeatsInStep ∧ s.inText = false ∧ s.phase ≠ .closed ∧
      s.cmds = [encode .readText] ∧ s.StreamLength 2 ∧ s.pos % 8 = 0 ∧ s.pos < 8 * 2 :=
  ⟨given_coherent (two_coherent (by omega)) _, rfl, rfl, by decide, rfl, openAt_length two 8,
    by decide, by decide⟩

theorem witness_UnalignedReadTextFails :
    let s := given (openAt two 15) (encode .readText)
    s.Coherent ∧ s.BeatsInStep ∧ s.inText = false ∧ s.phase ≠ .closed ∧
      s.cmds = [encode .readText] ∧ s.StreamLength 2 ∧ s.pos % 8 ≠ 0 ∧ s.pos < 8 * 2 :=
  ⟨given_coherent (two_coherent (by omega)) _, rfl, rfl, by decide, rfl, openAt_length two 15,
    by decide, by decide⟩

theorem witness_ReadTextGoesOnWithTheStream :
    let s := given (fresh two) (encode .readText)
    s.Coherent ∧ s.inText = false ∧ s.phase ≠ .closed ∧ s.cmds = [encode .readText] ∧ 1 ≤ 1 ∧
      ∀ j ≤ s.pos / 8 + 1, isByte (s.item j) = true :=
  ⟨given_coherent (fresh_coherent two) _, rfl, by decide, rfl, by omega, by decide⟩

theorem witness_CloseReleasesTheSource :
    (openAt two 3).phase = .opened ∧ (openAt two 16).phase = .opened := ⟨rfl, rfl⟩

theorem witness_ClosedAcceptsCloseAlone :
    (closedAt two 3).phase = .closed ∧ Instr.isAtEnd ≠ .close := ⟨rfl, by decide⟩

theorem witness_CloseBeforeUseFaults : (fresh two).phase = .unopened := rfl

theorem witness_FaultsAreExactlyTheTwoMisuses :
    faultOf (step (given (closedAt two 3) 0x3000#16)) = some .useAfterClose ∧
    faultOf (step (given (fresh two) 0xB000#16)) = some .closeBeforeUse := by decide

theorem witness_LawfulRequesterNeverFaults :
    let s := State.start (bytes two) [0x2000#16, 0xC000#16, 0x3000#16, 0xA000#16, 0xB000#16, 0xB000#16]
    s.Coherent ∧ lawful s.phase s.cmds = true :=
  ⟨⟨fun h => absurd rfl h, fun _ => ⟨rfl, rfl, rfl, rfl⟩, by simp [State.start, State.reset],
    fun h => by cases h⟩, by decide⟩

theorem witness_ResetAbandonsAndDoesNotRewind :
    (openAt two 3).past = [] ∧ { openAt two 3 with past := [[]] }.past = (fresh two).applyReset.past :=
  ⟨rfl, rfl⟩

theorem witness_CommandsLeaveTheRestUnchanged :
    Instr.readLong ≠ .close ∧
    exec .readLong (fresh two) = .next (after (exec .readLong (fresh two)) (fresh two)) :=
  ⟨by decide, rfl⟩

theorem witness_ErrorsCarryNoData :
    step (given (openAt two 9) 0x3000#16) =
      .next (after (step (given (openAt two 9) 0x3000#16)) (openAt two 9)) := rfl

theorem witness_ErrorsLeaveTheStatedState :
    (given (openAt two 9) 0x3000#16).Coherent ∧
    step (given (openAt two 9) 0x3000#16) =
      .next (after (step (given (openAt two 9) 0x3000#16)) (openAt two 9)) ∧
    (after (step (given (openAt two 9) 0x3000#16)) (openAt two 9)).beats = [exhaustedBeat] ∧
    (after (step (given (openAt two 9) 0x2000#16)) (openAt two 9)).beats = [invalidBeat] :=
  ⟨given_coherent (two_coherent (by omega)) _, rfl, by decide, by decide⟩

theorem witness_NothingIsFetchedAfterTheEnd :
    (openAt two 16).phase = .opened ∧ (openAt two 16).eos = true ∧ (openAt two 16).inText = false ∧
    (readWidth .readLong).isSome = true ∧
    step (given (openAt two 16) 0x7000#16) =
      .next (after (step (given (openAt two 16) 0x7000#16)) (openAt two 16)) :=
  ⟨rfl, rfl, rfl, rfl, rfl⟩

theorem witness_ItemsAfterTheEndDoNotMatter :
    let s := given (openAt two 9) 0x3000#16
    let src := bytes two ++ [.byte 0x77#8]
    s.Coherent ∧ s.StreamLength 2 ∧ (∀ k ≤ 2, srcAt src (s.origin + k) = s.item k) ∧
      step s = .next (after (step s) s) ∧
      faultOf (step (given (closedAt two 9) 0x3000#16)) = some .useAfterClose :=
  ⟨given_coherent (two_coherent (by omega)) _, openAt_length two 9, by decide, rfl, by decide⟩

theorem witness_steps_of_coherent_states :
    (given (openAt two 15) 0x1000#16).Coherent ∧ (given (openAt two 15) 0x1000#16).RegistersLegal ∧
    (given (openAt two 15) 0x1000#16).BeatsInStep ∧ (textAt two 15).Coherent ∧
    step (given (openAt two 15) 0x1000#16) =
      .next (after (step (given (openAt two 15) 0x1000#16)) (openAt two 15)) :=
  ⟨given_coherent (two_coherent (by omega)) _, by
    simp only [State.RegistersLegal, State.AtEnd]; decide, rfl,
    textAt_coherent (by decide), rfl⟩

/-- A block in a sequencer state. -/
def blockIn (q : Signal.Seq) : Signal.Block := { Signal.Block.reset with seq := q, inReset := false }

theorem witness_OutputsFollowTheSequencerState :
    (blockIn .resp).seq = .resp ∧ (blockIn .fill).seq ≠ .resp := ⟨rfl, by decide⟩

/-- No reset, nobody ready. -/
def nobody : Signal.Inputs := ⟨false, false, 0, false, false, 0, false, false⟩

theorem witness_TheBlockWaitsForEver :
    nobody.rst = false ∧ (blockIn .idle).inReset = false ∧
    ((blockIn .idle).seq = .idle ∧ nobody.cmdValid = false) ∧
    ((blockIn .resp).seq = .resp ∧ nobody.rspReady = false) ∧
    ((blockIn .fill).seq = .fill ∧ nobody.srcValid = false) ∧ (blockIn .dead).seq = .dead := by
  decide

theorem witness_SourceErrorIsEndOfStream :
    (nobody.srcEos = false ∧ nobody.srcErr = false) ∧ { nobody with srcErr := true }.srcErr = true ∧
    { nobody with srcEos := true }.srcEos = true := by decide

/-- The system of a block that waits for an item, and the reset edge with and without an offer. -/
def filling : Signal.System :=
  { Signal.System.start (bytes two) [] with block := blockIn .fill }
def resetEdge (offer : Bool) : Signal.Choice := ⟨true, true, offer, true, .eos, .quiet⟩

theorem witness_ResetEdgeFromAnyState :
    { nobody with rst := true }.rst = true ∧ nobody.rst = false ∧ (blockIn .dead).seq = .dead ∧
    (resetEdge true).rst = true ∧ (resetEdge false).rst = true ∧
    ¬(filling.block.seq = .fill ∧ (resetEdge false).offerItem = true) ∧
    (filling.block.seq = .fill ∧ (resetEdge true).offerItem = true) := by decide

theorem witness_ReferenceDesignRefinesTheSteps :
    (Signal.System.start (bytes two) [0x3000#16]).Agrees (State.start (bytes two) [0x3000#16]) ∧
    (Signal.System.start (bytes two) [0x3000#16]).block.seq = .idle ∧
    (∀ e ∈ [Signal.promptChoice, ⟨false, false, false, false, .both, ⟨0xFFFF, 0xFF, true, true⟩⟩],
      e.rst = false) ∧
    ((Signal.System.start (bytes two) [0x3000#16]).prompt 8).block.seq = .idle ∧
    ((Signal.System.start (bytes two) [0xB000#16]).prompt 2).block.seq = .dead := by
  simp only [Signal.System.Agrees]
  decide

theorem witness_PromptEnvironmentMeansProgress :
    (Signal.System.start (bytes two) [0x7000#16]).block.seq = .idle ∧
    (Signal.System.start (bytes two) [0x7000#16]).cmds = [0x7000#16] ∧
    0x7000#16 ≠ encode .readText := ⟨rfl, rfl, by decide⟩

/-- A schedule on which everyone is ready at every second edge. -/
def everySecond (k : Nat) : Signal.Choice :=
  if k % 2 = 0 then ⟨false, false, false, false, .both, ⟨0xFFFF, 0xFF, true, true⟩⟩
  else Signal.promptChoice

theorem everySecond_fair (y : Signal.System) : y.Fair everySecond where
  noReset k := by unfold everySecond; split <;> rfl
  presents k _ _ := ⟨2 * k + 1, by omega, by simp [everySecond, Nat.add_mod, Signal.promptChoice]⟩
  answers k _ := ⟨2 * k + 1, by omega, by simp [everySecond, Nat.add_mod, Signal.promptChoice]⟩
  takes k _ := ⟨2 * k + 1, by omega, by simp [everySecond, Nat.add_mod, Signal.promptChoice]⟩

/-- Nobody is ever ready. -/
def never (_ : Nat) : Signal.Choice := ⟨false, false, false, false, .err, .quiet⟩

theorem witness_CommandsCompleteExactlyUnderFairness :
    let y := Signal.System.start (bytes two) [encode .readText]
    y.Fair everySecond ∧ y.block.seq = .idle ∧ y.cmds = [encode .readText] ∧
      srcAt y.src (y.origin + y.taken + 2) = .endOfStream ∧
      encode .readLong ≠ encode .readText ∧
      (∀ j ≤ 1, isByte (srcAt y.src (y.origin + y.taken + j)) = true) ∧
      (∀ k, (never k).rst = false) ∧ (∀ k, (never k).offerItem = false) ∧
      (∀ k, (never k).takeBeat = false) ∧ filling.block.seq = .fill ∧
      (blockIn .resp).seq = .resp ∧ y.block.phase ≠ .closed ∧
      (y.block.phase = .opened → y.block.eos = false) :=
  ⟨everySecond_fair _, rfl, rfl, rfl, by decide, by decide, fun _ => rfl, fun _ => rfl, fun _ => rfl, rfl, rfl,
    by decide, fun _ => rfl⟩

end Sys2Proof.Tests
end

section
/-! Reset at the registers (spec/10_state.md R33). NB and POS are derived counts, so their reset values
follow from `F = 0`, in any state. -/

namespace Sys2Proof.Machine

theorem byteCount_of_taken_zero {s : State} (h : s.taken = 0) : s.byteCount = 0 := by
  rw [State.byteCount, h, Nat.zero_sub]

theorem pos_of_taken_zero {s : State} (h : s.taken = 0) : s.pos = 0 := by
  rw [State.pos, byteCount_of_taken_zero h, Nat.mul_zero, Nat.zero_sub]

@[simp] theorem reset_buf : State.reset.buf = 0x00#8 := rfl
@[simp] theorem reset_cnt : State.reset.cnt = 0#4 := rfl
@[simp] theorem reset_eos : State.reset.eos = false := rfl
@[simp] theorem reset_phase : State.reset.phase = .unopened := rfl
@[simp] theorem reset_acc : State.reset.acc = 0#64 := rfl
@[simp] theorem reset_taken : State.reset.taken = 0 := rfl
@[simp] theorem reset_byteCount : State.reset.byteCount = 0 := byteCount_of_taken_zero reset_taken
@[simp] theorem reset_pos : State.reset.pos = 0 := pos_of_taken_zero reset_taken

/-- Settles O1: the registers by the definition of reset, NB and POS from `F = 0`. -/
theorem resetSetsTheRegisters : Obligations.ResetSetsTheRegisters :=
  ⟨reset_phase, reset_buf, reset_cnt, reset_eos, reset_acc, reset_pos, reset_byteCount, reset_taken⟩

end Sys2Proof.Machine
end

section
/-! The source wires (spec/20_memory.md R42, R43). The block reads `src_data`, `src_eos` and `src_err`
only as the item they show, so an edge depends on them only through that item. -/

namespace Sys2Proof.Machine.Signal

theorem Inputs.item_of_no_end {i : Inputs} (heos : i.srcEos = false) (herr : i.srcErr = false) :
    i.item = .byte i.srcData := by
  simp [Inputs.item, heos, herr]

theorem Inputs.item_of_end {i : Inputs} (h : i.srcEos = true ∨ i.srcErr = true) :
    i.item = .endOfStream := by
  simp [Inputs.item, h]

/-- Inputs that agree outside the three wires of the item, and show the same item, drive every block
alike. -/
theorem Block.clock_congr_item (b : Block) {i j : Inputs} (hrst : i.rst = j.rst)
    (hcmdValid : i.cmdValid = j.cmdValid) (hcmd : i.cmd = j.cmd) (hrsp : i.rspReady = j.rspReady)
    (hsrc : i.srcValid = j.srcValid) (hitem : i.item = j.item) : b.clock i = b.clock j := by
  simp only [Block.clock, hrst, hcmdValid, hcmd, hrsp, hsrc, hitem]

/-- Settles O56: `src_err` and `src_eos` show the same item, `End`, and an edge reads no more of them. -/
theorem sourceErrorIsEndOfStream : Obligations.SourceErrorIsEndOfStream := by
  refine ⟨fun _ => Inputs.item_of_no_end, fun _ => Inputs.item_of_end, fun b i d herr => ?_⟩
  have hitem : i.item = { i with srcErr := false, srcEos := true, srcData := d }.item :=
    (Inputs.item_of_end (.inr herr)).trans (Inputs.item_of_end (.inl rfl)).symm
  exact b.clock_congr_item rfl rfl rfl rfl rfl hitem

end Sys2Proof.Machine.Signal
end

section
/-! The decoder against the table of R62 (spec/30_encoding.md). Every row is the row of a command, and
a word selects a row iff it decodes to a command with that row. So the rows a word selects are the one
row of the command it decodes to, and there are none where it decodes to no command (R65). -/

namespace Sys2Proof

open Laws.Layout (opNumber operandField)

theorem encode_eq_formatWord (i : Instr) : encode i = formatWord (opNumber i) (operandField i) := by
  cases i <;> rfl

theorem formatWord_eq_encode {i : Instr} {o : BitVec 4} {w : BitVec 8}
    (ho : o.toNat = (opNumber i).toNat) (hw : w = operandField i) : formatWord o w = encode i := by
  rw [encode_eq_formatWord, BitVec.eq_of_toNat_eq ho, hw]

/-- The arms of the decoder for the commands without an operand (R64). -/
theorem formatWord_of_noOperand {i j : Instr} {o : BitVec 4} {w : BitVec 8}
    (h : noOperand w j = .ok i) (hj : operandField j = 0) (ho : o.toNat = (opNumber j).toNat) :
    formatWord o w = encode i := by
  obtain ⟨rfl, rfl⟩ := noOperand_ok.1 h
  exact formatWord_eq_encode ho hj.symm

theorem formatWord_of_decode {o : BitVec 4} {w : BitVec 8} {i : Instr}
    (h : decode (formatWord o w) = .ok i) : formatWord o w = encode i := by
  simp only [decode, opField_formatWord, rsvField_formatWord, wField_formatWord,
    BitVec.ofNat_eq_ofNat, ne_eq, not_true_eq_false, if_false] at h
  split at h
  case h_3 ho => exact Except.ok.inj h ▸ formatWord_eq_encode (i := .readBits w) ho rfl
  case h_5 ho => exact Except.ok.inj h ▸ formatWord_eq_encode (i := .readChar w) ho rfl
  case h_13 => contradiction
  all_goals next ho => exact formatWord_of_noOperand h rfl ho

/-- A word decodes to a command iff it is that command's word (R62). -/
theorem decode_eq_ok_iff {c : CmdWord} {i : Instr} : decode c = .ok i ↔ c = encode i := by
  constructor
  · intro h
    have hc := formatWord_fields (rsvField_of_decode h)
    exact hc.symm.trans (formatWord_of_decode (hc.symm ▸ h))
  · rintro rfl
    exact decode_encode i

/-- A word is reserved iff it decodes to no command (R65). -/
theorem decode_error_iff {c : CmdWord} : (∃ e, decode c = .error e) ↔ ∀ i, decode c ≠ .ok i := by
  cases decode c <;> simp

theorem opField_and_opMask (c : CmdWord) : opField (c &&& 0xFF00#16) = opField c := by
  rw [opField, BitVec.extractLsb'_and,
    show BitVec.extractLsb' 12 4 0xFF00#16 = BitVec.allOnes 4 from rfl, BitVec.and_allOnes, opField]

theorem rsvField_and_opMask (c : CmdWord) : rsvField (c &&& 0xFF00#16) = rsvField c := by
  rw [rsvField, BitVec.extractLsb'_and,
    show BitVec.extractLsb' 8 4 0xFF00#16 = BitVec.allOnes 4 from rfl, BitVec.and_allOnes, rsvField]

/-- A word whose bits 15:8 are an `op` and zeros is a word of the format with that `op` (R61). -/
theorem and_opMask_eq_iff {c : CmdWord} {o : BitVec 4} :
    c &&& 0xFF00#16 = formatWord o 0 ↔ ∃ w, c = formatWord o w := by
  constructor
  · intro h
    have hop : opField c = o := by rw [← opField_and_opMask, h, opField_formatWord]
    have hrsv : rsvField c = 0#4 := by rw [← rsvField_and_opMask, h, rsvField_formatWord]
    exact ⟨wField c, by rw [← hop, formatWord_fields hrsv]⟩
  · rintro ⟨w, rfl⟩
    rw [formatWord, show 0xFF00#16 = BitVec.allOnes 4 ++ BitVec.allOnes 4 ++ 0#8 from rfl,
      BitVec.and_append, BitVec.and_append, BitVec.and_allOnes, BitVec.and_allOnes, BitVec.and_zero]
    rfl

/-- READ_BITS and READ_CHAR, whose `w` field is a width (R63). -/
def Instr.takesWidth : Instr → Bool
  | .readBits _ | .readChar _ => true
  | _ => false

theorem encode_of_no_width {i : Instr} (h : i.takesWidth = false) :
    encode i = formatWord (opNumber i) 0 := by
  cases i with
  | readBits w => contradiction
  | readChar w => contradiction
  | _ => rfl

/-- The row of a command in the table of R62: its number, and bits 7:0 compared unless they are a
width. -/
def Instr.row (i : Instr) : OpcodeRow where
  mnemonic := i.mnemonic
  pattern := formatWord (opNumber i) 0
  mask := if i.takesWidth then 0xFF00#16 else 0xFFFF#16

theorem opcodeRows_eq_map_row : opcodeRows =
    List.map Instr.row [.isAtEnd, .readBit, .readBits 0, .readByte, .readChar 0, .readShort,
      .readInt, .readLong, .readFloat, .readDouble, .readText, .close] := rfl

theorem opcodeRows_nodup : opcodeRows.Nodup := by decide

theorem row_mem (i : Instr) : i.row ∈ opcodeRows := by
  rw [opcodeRows_eq_map_row, List.mem_map]
  cases i with
  | readBits w => exact ⟨.readBits 0, by simp, rfl⟩
  | readChar w => exact ⟨.readChar 0, by simp, rfl⟩
  | _ => exact ⟨_, by simp, rfl⟩

theorem row_selects_iff_of_width {i : Instr} {c : CmdWord} (h : i.takesWidth = true) :
    i.row.selects c = true ↔ ∃ w, c = formatWord (opNumber i) w := by
  simp only [OpcodeRow.selects, Instr.row, h, if_true, decide_eq_true_iff, and_opMask_eq_iff]

theorem row_selects_iff_of_no_width {i : Instr} {c : CmdWord} (h : i.takesWidth = false) :
    i.row.selects c = true ↔ c = encode i := by
  have hand : c &&& 0xFFFF#16 = c := BitVec.and_allOnes
  simp [OpcodeRow.selects, Instr.row, h, encode_of_no_width h, hand]

theorem row_selects_encode (i : Instr) : i.row.selects (encode i) = true := by
  cases h : i.takesWidth with
  | true => exact (row_selects_iff_of_width h).2 ⟨operandField i, encode_eq_formatWord i⟩
  | false => exact (row_selects_iff_of_no_width h).2 rfl

theorem encode_of_row_selects {i : Instr} {c : CmdWord} (hs : i.row.selects c = true) :
    ∃ j, c = encode j ∧ i.row = j.row := by
  cases h : i.takesWidth with
  | false => exact ⟨i, (row_selects_iff_of_no_width h).1 hs, rfl⟩
  | true =>
    obtain ⟨w, hw⟩ := (row_selects_iff_of_width h).1 hs
    cases i with
    | readBits v => exact ⟨.readBits w, hw, rfl⟩
    | readChar v => exact ⟨.readChar w, hw, rfl⟩
    | _ => contradiction

/-- A word selects a row of the table iff it decodes to a command that has this row. -/
theorem selects_iff {r : OpcodeRow} (hr : r ∈ opcodeRows) {c : CmdWord} :
    r.selects c = true ↔ ∃ i, decode c = .ok i ∧ r = i.row := by
  constructor
  · intro hs
    rw [opcodeRows_eq_map_row, List.mem_map] at hr
    obtain ⟨i, -, rfl⟩ := hr
    obtain ⟨j, hj, hrow⟩ := encode_of_row_selects hs
    exact ⟨j, decode_eq_ok_iff.2 hj, hrow⟩
  · rintro ⟨i, hi, rfl⟩
    rw [decode_eq_ok_iff.1 hi]
    exact row_selects_encode i

theorem filter_selects_of_decode {c : CmdWord} {i : Instr} (h : decode c = .ok i) :
    opcodeRows.filter (·.selects c) = [i.row] := by
  have selects_eq : ∀ r ∈ opcodeRows, r.selects c = decide (r = i.row) := fun r hr => by
    rw [Bool.eq_iff_iff, selects_iff hr, decide_eq_true_iff, h]
    simp
  rw [List.filter_congr selects_eq, List.filter_eq,
    List.count_eq_one_of_mem opcodeRows_nodup (row_mem i), List.replicate_one]

/-- Settles O9: the rows selected are those of the commands decoded to, and there is at most one. -/
theorem decodeAgreesWithTheTable : Obligations.DecodeAgreesWithTheTable := by
  refine ⟨fun c i h => ?_, fun c => decode_error_iff.trans ⟨fun hno r hr => ?_, fun hno i hi => ?_⟩⟩
  · rw [filter_selects_of_decode h]
    rfl
  · rw [← Bool.not_eq_true, selects_iff hr]
    rintro ⟨i, hi, -⟩
    exact hno i hi
  · have hs := (selects_iff (row_mem i)).2 ⟨i, hi, rfl⟩
    rw [hno _ (row_mem i)] at hs
    contradiction

end Sys2Proof
end

section
/-! One command word from presentation to answer (spec/30_encoding.md R72). -/

namespace Sys2Proof.Machine

theorem step_of_decode_ok {s : State} {c : CmdWord} {rest : List CmdWord} {i : Instr}
    (ht : s.inText = false) (hc : s.cmds = c :: rest) (hd : decode c = .ok i) :
    step s = exec i { s with cmds := rest } := by
  simp [step, ht, nextCommand, hc, hd]

theorem step_of_decode_error {s : State} {c : CmdWord} {rest : List CmdWord} {e : Reserved}
    (ht : s.inText = false) (hc : s.cmds = c :: rest) (hd : decode c = .error e) :
    step s = execReserved { s with cmds := rest } := by
  simp [step, ht, nextCommand, hc, hd]

/-- LazyInit leaves no block UNOPENED (R83). -/
theorem lazyInit_phase_ne_unopened (s : State) : (lazyInit s).phase ≠ .unopened := by
  rw [lazyInit_phase]
  split <;> simp_all

theorem lazyInit_phase_ne_closed {s : State} (hp : s.phase ≠ .closed) :
    (lazyInit s).phase ≠ .closed := by
  rw [lazyInit_phase]
  split <;> simp_all

theorem lazyInit_lazyInit (s : State) : lazyInit (lazyInit s) = lazyInit s :=
  lazyInit_of_initialised (lazyInit_phase_ne_unopened s)

/-- A meaning that begins with LazyInit does not see whether LazyInit has run already. -/
theorem unlessClosed_lazyInit {s : State} (hp : s.phase ≠ .closed) (f : State → State) :
    unlessClosed s (fun s => f (lazyInit s)) =
      unlessClosed (lazyInit s) (fun s => f (lazyInit s)) := by
  rw [unlessClosed_next hp, unlessClosed_next (lazyInit_phase_ne_closed hp), lazyInit_lazyInit]

/-- Every valid command but CLOSE runs LazyInit first (R72, R83). -/
theorem exec_lazyInit {i : Instr} (hw : i.wellFormed = true) (hi : i ≠ .close) {s : State}
    (hp : s.phase ≠ .closed) : exec i s = exec i (lazyInit s) := by
  have hp' := lazyInit_phase_ne_closed hp
  obtain ⟨w, hr⟩ | hf | rfl | rfl | rfl := readWidth_or i
  · obtain ⟨-, -, he⟩ | ⟨k, -, -, -, he⟩ := exec_of_readWidth hr
    · rw [he, he, unlessClosed_lazyInit hp]
    · rw [he, he, unlessClosed_lazyInit hp]
  · simp [hf] at hw
  · rw [exec_isAtEnd hp, exec_isAtEnd hp', lazyInit_lazyInit]
  · rw [exec_readText hp, exec_readText hp', lazyInit_lazyInit]
  · exact absurd rfl hi

/-- In CLOSED every word but CLOSE's is the fault, reserved or not (R125). -/
theorem step_closed {s : State} {c : CmdWord} {rest : List CmdWord} (ht : s.inText = false)
    (hc : s.cmds = c :: rest) (hp : s.phase = .closed) (hne : c ≠ encode .close) :
    step s = .fault .useAfterClose := by
  cases hd : decode c with
  | error e => exact (step_of_decode_error ht hc hd).trans (execReserved_closed hp)
  | ok i =>
    have hi : i ≠ .close := by
      rintro rfl
      exact hne (decode_eq_ok_iff.1 hd)
    exact (step_of_decode_ok ht hc hd).trans (exec_closed hi hp)

/-- Settles O14: each clause is what the decoded word does in its phase. -/
theorem wordsAreDealtWithInOrder : Obligations.WordsAreDealtWithInOrder := by
  intro s c rest ht hc
  refine ⟨?closeInClosed, fun hp hne => step_closed ht hc hp hne, ?reserved, ?illegalWidth,
    ?closeInUnopened, ?valid⟩
  case closeInClosed =>
    rintro hp rfl
    exact (step_of_decode_ok ht hc (decode_encode _)).trans (exec_close_closed hp)
  case reserved =>
    rintro hp ⟨e, hd⟩
    exact (step_of_decode_error ht hc hd).trans (execReserved_next hp)
  case illegalWidth =>
    rintro hp ⟨i, hd, hw⟩
    exact (step_of_decode_ok ht hc hd).trans (exec_illFormed hw hp)
  case closeInUnopened =>
    rintro hp rfl
    exact (step_of_decode_ok ht hc (decode_encode _)).trans (exec_close_unopened hp)
  case valid =>
    intro i hp hd hw hi
    exact (step_of_decode_ok ht hc hd).trans (exec_lazyInit hw hi hp)

end Sys2Proof.Machine
end

section
/-! Refill and LazyInit (spec/40_refill_and_init.md). In a coherent UNOPENED block nothing has been
taken, so POS = 0 and LazyInit's one Refill lands on the start of the tape. -/

namespace Sys2Proof.Machine

theorem lazyInit_of_unopened {s : State} (h : s.phase = .unopened) :
    lazyInit s = { refill s with phase := .opened } := if_pos h

/-- Nothing has been consumed in UNOPENED (R33). -/
theorem State.Coherent.pos_of_unopened {s : State} (hs : s.Coherent) (h : s.phase = .unopened) :
    s.pos = 0 := pos_of_taken_zero (hs.unopened h).1

/-- The first initialisation puts the registers at the start of the tape (R83, R132). -/
theorem State.Coherent.lazyInit_atTape_zero {s : State} (hs : s.Coherent)
    (h : s.phase = .unopened) : (Machine.lazyInit s).AtTape 0 :=
  hs.pos_of_unopened h ▸ hs.lazyInit

/-- Settles O17: Refill's two cases, one for each kind of item. -/
theorem refillTakesOneItem : Obligations.RefillTakesOneItem :=
  fun _ => ⟨fun _ => refill_byte, refill_end⟩

/-- Settles O18: the two branches of LazyInit, tape position 0 as the POS of a coherent UNOPENED
block, and LazyInit's idempotence at the head of every valid command. -/
theorem lazyInitOpensOnce : Obligations.LazyInitOpensOnce :=
  fun _ => ⟨lazyInit_of_unopened, lazyInit_of_initialised, State.Coherent.lazyInit_atTape_zero,
    fun _ hp hw hi => exec_lazyInit hw hi hp⟩

end Sys2Proof.Machine
end

section
/-! One bit, and the flag at end (spec/41_query_and_bit_reads.md R90, R92). -/

namespace Sys2Proof.Machine

/-- `Bit1()` with unconsumed bits of BUF to spare afterwards (R92). -/
theorem bit1_of_cnt {s : State} {c : Nat} (he : s.eos = false) (hc : s.cnt.toNat = c + 1)
    (h0 : c ≠ 0) : bit1 s = (.got (bitOf s.buf c), { s with cnt := BitVec.ofNat 4 c }) := by
  have hsub : s.cnt - 1 = BitVec.ofNat 4 c := by bv_omega
  have hnat : (BitVec.ofNat 4 c).toNat = c := by bv_omega
  obtain ⟨he', -⟩ | ⟨-, -, h⟩ | ⟨-, h1, -⟩ := bit1_cases s
  · simp [he] at he'
  · rw [h, hsub, hnat]
  · exact absurd hc (by simpa [h1, eq_comm] using h0)

/-- `Bit1()` at the last unconsumed bit of BUF refills (R92). -/
theorem bit1_of_last {s : State} (he : s.eos = false) (hc : s.cnt.toNat = 1) :
    bit1 s = (.got (bitOf s.buf 0), refill { s with cnt := 0#4 }) := by
  obtain ⟨he', -⟩ | ⟨-, hne, -⟩ | ⟨-, -, h⟩ := bit1_cases s
  · simp [he] at he'
  · exact absurd (BitVec.eq_of_toNat_eq hc) hne
  · exact h

/-- Settles O19: the raise at end, and `Bit1()` on the last bit and on the others. -/
theorem bitStepTakesTheTopUnconsumedBit : Obligations.BitStepTakesTheTopUnconsumedBit := by
  refine fun s => ⟨bit1_atEnd, fun c he hc => ?_⟩
  by_cases h0 : c = 0
  · subst h0
    exact bit1_of_last he hc
  · rw [if_neg h0]
    exact bit1_of_cnt he hc h0

theorem flagData_eq (b : Bool) : flagData b = if b then 1 else 0 := by
  cases b <;> rfl

/-- Settles O24: IS_AT_END's one beat carries EOS as a number, and LazyInit keeps the record. -/
theorem isAtEndDeliversEos : Obligations.IsAtEndDeliversEos := by
  refine fun s hp => ⟨?_, fun ho => lazyInit_of_initialised (by simp [ho])⟩
  rw [exec_isAtEnd hp, flagData_eq, State.respond, State.emit, lazyInit_beats]

end Sys2Proof.Machine
end

section
/-! Bit loops inside one byte (spec/41_query_and_bit_reads.md R94, R95). As long as BUF has unconsumed
bits left, `j` bit steps shift in the `j` bits below bit CNT; the step that takes the last one refills. -/

namespace Sys2Proof.Machine

/-- The `j` bits of `v` below bit `n` shifted into an accumulator, the most significant first. -/
def shiftInField (a : Data) (v : Byte) (n j : Nat) : Data :=
  (a <<< j) ||| (lowBits (v >>> (n - j)) j).setWidth 64

theorem getLsbD_shiftInField (a : Data) (v : Byte) {n j i : Nat} (hj : j ≤ 8) (hi : i < 64) :
    (shiftInField a v n j).getLsbD i =
      if i < j then v.getLsbD (n - j + i) else a.getLsbD (i - j) := by
  by_cases h : i < j
  · simp [shiftInField, lowBits, h, hi, show i < 8 by omega]
  · simp [shiftInField, lowBits, h, hi, BitVec.getLsbD_eq_getElem (show i - j < 64 by omega)]

theorem getLsbD_shiftInBit (a : Data) (b : Bool) {i : Nat} (hi : i < 64) :
    (shiftInBit a b).getLsbD i = if i < 1 then b else a.getLsbD (i - 1) := by
  by_cases h : i = 0
  · simp [shiftInBit, h]
  · simp [shiftInBit, h, hi, BitVec.getLsbD_eq_getElem (show i - 1 < 64 by omega)]

theorem getLsbD_shiftInByte (a : Data) (x : Byte) {i : Nat} (hi : i < 64) :
    (shiftInByte a x).getLsbD i = if i < 8 then x.getLsbD i else a.getLsbD (i - 8) := by
  by_cases h : i < 8
  · simp [shiftInByte, h, hi]
  · simp [shiftInByte, h, hi, BitVec.getLsbD_of_ge x i (by omega),
      BitVec.getLsbD_eq_getElem (show i - 8 < 64 by omega)]

@[simp] theorem shiftInField_zero (a : Data) (v : Byte) (n : Nat) : shiftInField a v n 0 = a := by
  refine BitVec.eq_of_getLsbD_eq fun i hi => ?_
  simp [getLsbD_shiftInField a v (Nat.zero_le 8) hi]

/-- One more bit makes the field one bit longer. -/
theorem shiftInBit_shiftInField (a : Data) (v : Byte) {n j : Nat} (hj : j < n) (hn : n ≤ 8) :
    shiftInBit (shiftInField a v n j) (bitOf v (n - j - 1)) = shiftInField a v n (j + 1) := by
  refine BitVec.eq_of_getLsbD_eq fun i hi => ?_
  rw [getLsbD_shiftInBit _ _ hi, getLsbD_shiftInField a v (by omega) hi,
    getLsbD_shiftInField a v (by omega) (by omega), bitOf]
  grind

/-- A whole byte as a field of eight bits. -/
theorem shiftInField_whole (a : Data) (v : Byte) : shiftInField a v 8 8 = shiftInByte a v := by
  refine BitVec.eq_of_getLsbD_eq fun i hi => ?_
  rw [getLsbD_shiftInField a v le_rfl hi, getLsbD_shiftInByte a v hi, Nat.sub_self, Nat.zero_add]

/-- The rest of one byte and the top of the next make the composed byte (R100). -/
theorem shiftInField_joinByte (a : Data) (v next : Byte) {n : Nat} (hn : 1 ≤ n) (hn7 : n ≤ 7) :
    shiftInField (shiftInField a v n n) next 8 (8 - n) =
      shiftInByte a (joinByte (lowBits v n) n next) := by
  refine BitVec.eq_of_getLsbD_eq fun i hi => ?_
  rw [getLsbD_shiftInField _ _ (by omega) hi, getLsbD_shiftInByte _ _ hi,
    getLsbD_shiftInField a v (by omega) (by omega)]
  by_cases h8 : i < 8
  · rw [if_pos h8, joinByte_bit hn hn7 h8]
    grind
  · grind

/-- A bit loop that succeeds leaves its value in ACC. -/
theorem shiftBits_got_acc {k : Nat} {s t : State} {v : Data} (h : shiftBits k s = (.got v, t)) :
    t.acc = v := by
  induction k generalizing s with
  | zero =>
    obtain ⟨hv, rfl⟩ := Prod.mk.inj h
    exact Got.got.inj hv
  | succ k ih =>
    cases hb : bit1 s with
    | mk r u =>
      cases r with
      | got b => exact ih (shiftBits_got hb k ▸ h)
      | exhausted => simp [shiftBits_exhausted hb] at h

/-- A bit loop goes on where its first part succeeded. -/
theorem shiftBits_add_got {j : Nat} {s t : State} {v : Data} (h : shiftBits j s = (.got v, t))
    (k : Nat) : shiftBits (j + k) s = shiftBits k t := by
  induction j generalizing s with
  | zero => rw [Nat.zero_add, ← (Prod.mk.inj h).2]
  | succ j ih =>
    cases hb : bit1 s with
    | mk r u =>
      cases r with
      | got b => rw [Nat.succ_add, shiftBits_got hb, ih (shiftBits_got hb j ▸ h)]
      | exhausted => simp [shiftBits_exhausted hb] at h

/-- A bit loop that raised raises however long it is made (R95). -/
theorem shiftBits_add_exhausted {j : Nat} {s t : State} (h : shiftBits j s = (.exhausted, t))
    (k : Nat) : shiftBits (j + k) s = (.exhausted, t) := by
  induction j generalizing s with
  | zero => simp [shiftBits_zero] at h
  | succ j ih =>
    cases hb : bit1 s with
    | mk r u =>
      cases r with
      | got b => rw [Nat.succ_add, shiftBits_got hb, ih (shiftBits_got hb j ▸ h)]
      | exhausted => rw [Nat.succ_add, shiftBits_exhausted hb, ← h, shiftBits_exhausted hb]

/-- At end of stream every bit loop but the empty one raises (R95). -/
theorem shiftBits_atEnd {s : State} (he : s.eos = true) {k : Nat} (hk : k ≠ 0) :
    shiftBits k s = (.exhausted, s) := by
  obtain ⟨k, rfl⟩ := Nat.exists_eq_succ_of_ne_zero hk
  exact shiftBits_exhausted (bit1_atEnd he) k

/-- One more bit step after a bit loop. -/
theorem shiftBits_succ_got {j : Nat} {s t u : State} {v : Data} {b : Bool}
    (h : shiftBits j s = (.got v, t)) (hb : bit1 t = (.got b, u)) :
    shiftBits (j + 1) s = (.got (shiftInBit v b), { u with acc := shiftInBit v b }) := by
  have hu : u.acc = v := by
    have := bit1_acc t
    rwa [hb, shiftBits_got_acc h] at this
  rw [shiftBits_add_got h, shiftBits_got hb, shiftBits_zero, hu]

/-- Fewer bit steps than BUF has unconsumed bits only count CNT down. -/
theorem shiftBits_within {s : State} {n j : Nat} (he : s.eos = false) (hc : s.cnt.toNat = n)
    (hn : n ≤ 8) (hj : j < n) :
    shiftBits j s = (.got (shiftInField s.acc s.buf n j),
      { s with cnt := BitVec.ofNat 4 (n - j), acc := shiftInField s.acc s.buf n j }) := by
  induction j with
  | zero => simp [shiftBits_zero, ← hc]
  | succ j ih =>
    have hcnt : (BitVec.ofNat 4 (n - j)).toNat = n - (j + 1) + 1 := by
      rw [BitVec.toNat_ofNat]
      omega
    rw [shiftBits_succ_got (ih (by omega)) (bit1_of_cnt he hcnt (by omega)), ← Nat.sub_sub,
      shiftInBit_shiftInField s.acc s.buf (by omega) hn]

theorem refill_withCntAcc (s : State) (c : BitVec 4) (a : Data) :
    refill { s with cnt := c, acc := a } = { refill s with acc := a } := by
  have hn : State.nextItem { s with cnt := c, acc := a } = s.nextItem := rfl
  cases h : s.nextItem with
  | byte v => rw [refill_byte h, refill_byte (hn.trans h)]
  | endOfStream => rw [refill_end h, refill_end (hn.trans h)]

/-- As many bit steps as BUF has unconsumed bits take them all and refill. -/
theorem shiftBits_cnt {s : State} {n : Nat} (he : s.eos = false) (hc : s.cnt.toNat = n)
    (h1 : 1 ≤ n) (hn : n ≤ 8) :
    shiftBits n s = (.got (shiftInField s.acc s.buf n n),
      { refill s with acc := shiftInField s.acc s.buf n n }) := by
  obtain ⟨j, rfl⟩ := Nat.exists_eq_add_of_le' h1
  have hone : j + 1 - j = 1 := Nat.add_sub_cancel_left j 1
  have hfield := shiftInBit_shiftInField s.acc s.buf (Nat.lt_add_one j) hn
  rw [hone, Nat.sub_self] at hfield
  have hlast := shiftBits_succ_got (shiftBits_within he hc hn (Nat.lt_add_one j))
    (bit1_of_last he (by rw [hone]; rfl))
  simpa [hfield, refill_withCntAcc] using hlast

end Sys2Proof.Machine
end

section
/-! The short-circuit widths (spec/41_query_and_bit_reads.md R96). A byte step is eight bit steps: the
rest of BUF, a refill, and the top of the new byte. So a byte loop is a bit loop of eight times its
length, except that a raise leaves another ACC. -/

namespace Sys2Proof.Machine

/-- Not at end, BUF has 1 to 8 unconsumed bits (R22). -/
def State.CursorLegal (s : State) : Prop := s.eos = false → 1 ≤ s.cnt.toNat ∧ s.cnt.toNat ≤ 8

theorem State.CursorLegal.withAcc {s : State} (h : s.CursorLegal) (a : Data) :
    ({ s with acc := a } : State).CursorLegal := h

theorem State.CursorLegal.cnt_le_seven {s : State} (h : s.CursorLegal) (he : s.eos = false)
    (hne : s.cnt ≠ 8#4) : s.cnt.toNat ≤ 7 := by
  have h8 : s.cnt.toNat ≠ 8 := fun hc => hne (BitVec.eq_of_toNat_eq hc)
  have := h he
  omega

theorem refill_cursorLegal (s : State) : (refill s).CursorLegal := by
  intro he
  obtain ⟨⟨hend, -⟩, -⟩ | ⟨-, -, -, hc, -⟩ := refill_cases s
  · simp [hend] at he
  · simp [hc]

/-- LazyInit leaves a legal cursor, in UNOPENED by its Refill. -/
theorem State.RegistersLegal.lazyInit_cursorLegal {s : State} (h : s.RegistersLegal) :
    (lazyInit s).CursorLegal := by
  by_cases hu : s.phase = .unopened
  · rw [lazyInit_of_unopened hu]
    exact refill_cursorLegal s
  · rw [lazyInit_of_initialised hu]
    intro he
    obtain ⟨hend, -⟩ | ⟨-, hc⟩ := h.1 hu
    · simp [hend] at he
    · exact hc

theorem State.CursorLegal.byte1 {s : State} (h : s.CursorLegal) : (byte1 s).2.CursorLegal := by
  obtain ⟨-, k⟩ | ⟨-, -, k⟩ | ⟨-, -, -, k⟩ | ⟨he, -, -, k⟩ := byte1_cases s
  · exact k ▸ h
  · exact k ▸ refill_cursorLegal s
  · exact k ▸ refill_cursorLegal s
  · exact k ▸ fun _ => h he

/-- Two loops with the same outcome: the same value or raise, and the same state, ACC apart. -/
def SameOutcome (r r' : Got Data × State) : Prop := r.1 = r'.1 ∧ r.2.forgetAcc = r'.2.forgetAcc

theorem SameOutcome.refl (r : Got Data × State) : SameOutcome r r := ⟨rfl, rfl⟩

/-- The same outcome is answered alike, ACC apart. -/
theorem SameOutcome.finish {r r' : Got Data × State} (h : SameOutcome r r') :
    (finish r).forgetAcc = (finish r').forgetAcc := by
  obtain ⟨g, t⟩ := r
  obtain ⟨g', t'⟩ := r'
  obtain ⟨hg, ht⟩ := h
  obtain rfl : g = g' := hg
  cases g with
  | got v => exact congrArg (State.respond · .ok v) ht
  | exhausted => exact congrArg (raiseError .exhausted) ht

/-- With `n` bits left in BUF, eight bit steps are the `n` bits, the refill, and `8 - n` bit steps of
the new byte. -/
theorem shiftBits_eight_split {s : State} {n : Nat} (he : s.eos = false) (hc : s.cnt.toNat = n)
    (h1 : 1 ≤ n) (hn : n ≤ 8) :
    shiftBits 8 s = shiftBits (8 - n) { refill s with acc := shiftInField s.acc s.buf n n } := by
  rw [← shiftBits_add_got (shiftBits_cnt he hc h1 hn), Nat.add_sub_cancel' hn]

/-- Eight bit steps deliver the byte of a byte step that succeeds (R102). -/
theorem shiftBits_eight_of_got {s t : State} {x : Byte} (hs : s.CursorLegal)
    (h : byte1 s = (.got x, t)) :
    shiftBits 8 s = (.got (shiftInByte t.acc x), { t with acc := shiftInByte t.acc x }) := by
  obtain ⟨-, k⟩ | ⟨he, h8, k⟩ | ⟨-, -, -, k⟩ | ⟨he, hne, hr, k⟩ := byte1_cases s
  · simp [k] at h
  · obtain ⟨rfl, rfl⟩ : s.buf = x ∧ refill s = t := by simpa [k] using h
    rw [shiftBits_cnt he (by rw [h8]; rfl) (by omega) le_rfl, shiftInField_whole, refill_acc]
  · simp [k] at h
  · obtain ⟨rfl, rfl⟩ : joinByte (lowBits s.buf s.cnt.toNat) s.cnt.toNat (refill s).buf = x ∧
        { refill s with cnt := s.cnt } = t := by simpa [k] using h
    obtain ⟨h1, h8⟩ := hs he
    have h7 := hs.cnt_le_seven he hne
    obtain ⟨⟨hend, -⟩, -⟩ | ⟨-, -, -, hcnt, -⟩ := refill_cases s
    · simp [hend] at hr
    · have hrest (a : Data) := shiftBits_within (s := { refill s with acc := a })
        (j := 8 - s.cnt.toNat) hr (by rw [hcnt]; rfl) le_rfl (by omega)
      rw [shiftBits_eight_split he rfl h1 h8, hrest]
      simp [shiftInField_joinByte s.acc s.buf _ h1 h7, Nat.sub_sub_self h8]

/-- Eight bit steps raise where a byte step does, in the same state, ACC apart (R102). -/
theorem shiftBits_eight_of_exhausted {s t : State} (hs : s.CursorLegal)
    (h : byte1 s = (.exhausted, t)) :
    ∃ a, shiftBits 8 s = (.exhausted, { t with acc := a }) := by
  obtain ⟨he, k⟩ | ⟨-, -, k⟩ | ⟨he, hne, hr, k⟩ | ⟨-, -, -, k⟩ := byte1_cases s
  · obtain rfl : s = t := by simpa [k] using h
    exact ⟨s.acc, shiftBits_atEnd he (by omega)⟩
  · simp [k] at h
  · obtain rfl : refill s = t := by simpa [k] using h
    obtain ⟨h1, h8⟩ := hs he
    have h7 := hs.cnt_le_seven he hne
    have hrest (a : Data) := shiftBits_atEnd (s := { refill s with acc := a })
      (k := 8 - s.cnt.toNat) hr (by omega)
    exact ⟨_, (shiftBits_eight_split he rfl h1 h8).trans (hrest _)⟩
  · simp [k] at h

/-- A byte loop is the bit loop of eight times its length (R96, R102). -/
theorem shiftBits_sameOutcome_shiftBytes {s : State} (hs : s.CursorLegal) (k : Nat) :
    SameOutcome (shiftBits (8 * k) s) (shiftBytes k s) := by
  induction k generalizing s with
  | zero => exact SameOutcome.refl _
  | succ k ih =>
    rw [Nat.mul_succ, Nat.add_comm]
    cases hb : byte1 s with
    | mk r t =>
      cases r with
      | got x =>
        have ht : t.CursorLegal := by simpa [hb] using hs.byte1
        rw [shiftBits_add_got (shiftBits_eight_of_got hs hb), shiftBytes_got hb]
        exact ih (ht.withAcc _)
      | exhausted =>
        obtain ⟨a, ha⟩ := shiftBits_eight_of_exhausted hs hb
        rw [shiftBits_add_exhausted ha, shiftBytes_exhausted hb]
        exact ⟨rfl, rfl⟩

/-- READ_BITS with a legal width, outside CLOSED (R94). -/
theorem exec_readBits {s : State} {w : BitVec 8} (hl : legalBitsWidth w = true)
    (hp : s.phase ≠ .closed) :
    exec (.readBits w) s = .next (readBitsOp w.toNat (lazyInit s)) := by
  simp [exec, execReadBits, unlessClosed_next hp, hl, widthOf]

/-- READ_BITS of a whole number of bytes has the outcome of the command that reads them byte by byte,
ACC apart (R96). -/
theorem exec_readBits_agrees {s : State} (hs : s.RegistersLegal) (hp : s.phase ≠ .closed)
    {w : BitVec 8} {k : Nat} {i : Instr} (hl : legalBitsWidth w = true) (hw : w.toNat = 8 * k)
    (hi : exec i s = unlessClosed s fun s => readBytesOp k (lazyInit s)) :
    ∃ t u, exec (.readBits w) s = .next t ∧ exec i s = .next u ∧ t.forgetAcc = u.forgetAcc := by
  refine ⟨_, _, exec_readBits hl hp, hi.trans (unlessClosed_next hp _), ?_⟩
  rw [hw]
  exact (shiftBits_sameOutcome_shiftBytes (hs.lazyInit_cursorLegal.withAcc 0) k).finish

/-- Settles O30: READ_BYTE, READ_SHORT and READ_INT are byte loops of length 1, 2 and 4. -/
theorem shortCircuitWidthsAgree : Obligations.ShortCircuitWidthsAgree := fun _ hs hp =>
  ⟨exec_readBits_agrees hs hp (k := 1) rfl rfl rfl,
    exec_readBits_agrees hs hp (k := 2) rfl rfl rfl,
    exec_readBits_agrees hs hp (k := 4) rfl rfl rfl⟩

end Sys2Proof.Machine
end

section
/-! One byte (spec/42_byte_and_char_reads.md R100, R101): the aligned path, and off a byte boundary
the two outcomes of its one refill. -/

namespace Sys2Proof.Machine

/-- `Byte1()` on a byte boundary takes BUF whole and refills (R100). -/
theorem byte1_aligned {s : State} (he : s.eos = false) (hc : s.cnt = 8#4) :
    byte1 s = (.got s.buf, refill s) := by
  obtain ⟨he', -⟩ | ⟨-, -, h⟩ | ⟨-, hne, -⟩ | ⟨-, hne, -⟩ := byte1_cases s
  · simp [he] at he'
  · exact h
  · exact absurd hc hne
  · exact absurd hc hne

/-- `Byte1()` off a byte boundary raises when its refill receives `End` (R101). -/
theorem byte1_unaligned_end {s : State} (he : s.eos = false) (hc : s.cnt ≠ 8#4)
    (hi : s.nextItem = .endOfStream) : byte1 s = (.exhausted, refill s) := by
  obtain ⟨he', -⟩ | ⟨-, h8, -⟩ | ⟨-, -, -, h⟩ | ⟨-, -, hr, -⟩ := byte1_cases s
  · simp [he] at he'
  · exact absurd h8 hc
  · exact h
  · simp [refill_end hi] at hr

/-- `Byte1()` off a byte boundary joins the rest of BUF to the top of the byte its refill receives, and
restores CNT (R100). -/
theorem byte1_unaligned_byte {s : State} {v : Byte} (he : s.eos = false) (hc : s.cnt ≠ 8#4)
    (hi : s.nextItem = .byte v) :
    byte1 s = (.got (joinByte (lowBits s.buf s.cnt.toNat) s.cnt.toNat v),
      { refill s with cnt := s.cnt }) := by
  obtain ⟨he', -⟩ | ⟨-, h8, -⟩ | ⟨-, -, hr, -⟩ | ⟨-, -, -, h⟩ := byte1_cases s
  · simp [he] at he'
  · exact absurd h8 hc
  · simp [refill_byte hi] at hr
  · simpa [refill_byte hi] using h

/-- Refill on `End` leaves the end state (R80). -/
theorem refill_atEnd {s : State} (h : s.nextItem = .endOfStream) : (refill s).AtEnd := by
  simp [refill_end h, State.AtEnd]

/-- Settles O20: the three entry cases of `Byte1()`, the last by the item its refill receives, with the
bits of the composed byte by `joinByte_bit`. -/
theorem byteStepJoinsOldAndNewBits : Obligations.ByteStepJoinsOldAndNewBits := by
  refine fun s => ⟨byte1_atEnd, byte1_aligned, fun n he hn h1 h7 => ?_⟩
  subst hn
  have hne : s.cnt ≠ 8#4 := fun h8 => by simp [h8] at h7
  exact ⟨fun hend => ⟨byte1_unaligned_end he hne hend, refill_atEnd hend⟩,
    fun v hv => ⟨_, byte1_unaligned_byte he hne hv, fun i hi => joinByte_bit h1 h7 hi⟩⟩

end Sys2Proof.Machine
end

section
/-! The four- and eight-byte composites (spec/43_composite_reads.md). Each is the byte loop of its
length after LazyInit, outside CLOSED; a floating-point read adds no step of its own to that (R114). -/

namespace Sys2Proof.Machine

theorem exec_readInt (s : State) :
    exec .readInt s = unlessClosed s fun s => readBytesOp Config.intBytes (lazyInit s) := rfl

theorem exec_readLong (s : State) :
    exec .readLong s = unlessClosed s fun s => readBytesOp Config.longBytes (lazyInit s) := rfl

theorem exec_readFloat (s : State) :
    exec .readFloat s = unlessClosed s fun s => readBytesOp Config.intBytes (lazyInit s) := rfl

theorem exec_readDouble (s : State) :
    exec .readDouble s = unlessClosed s fun s => readBytesOp Config.longBytes (lazyInit s) := rfl

/-- Settles O27: READ_FLOAT is the byte loop of READ_INT, and READ_DOUBLE that of READ_LONG. -/
theorem floatReadsAreIntegerReads : Obligations.FloatReadsAreIntegerReads := fun s =>
  ⟨(exec_readFloat s).trans (exec_readInt s).symm,
    (exec_readDouble s).trans (exec_readLong s).symm⟩

end Sys2Proof.Machine
end

section
/-! CLOSE and the two misuses of the block (spec/44_text_and_close.md R124 to R126): one law of `exec`
for each phase. -/

namespace Sys2Proof.Machine

/-- A response adds its one, last beat to the record and changes nothing else (R68). -/
theorem respond_eq (s : State) (st : Status) (d : Data) :
    s.respond st d = { s with beats := s.beats ++ [⟨st, true, d⟩] } := rfl

/-- Settles O39: CLOSE in OPEN responds in the state that is CLOSED with `src_close` raised. -/
theorem closeReleasesTheSource : Obligations.CloseReleasesTheSource := by
  intro s hp
  rw [exec_close_opened hp, respond_eq]

/-- Settles O40: CLOSE only responds, and every other word, valid or reserved, meets CLOSED first. -/
theorem closedAcceptsCloseAlone : Obligations.ClosedAcceptsCloseAlone := by
  intro s hp
  refine ⟨?close, fun i hi => exec_closed hi hp, execReserved_closed hp⟩
  case close => rw [exec_close_closed hp, respond_eq]

/-- Settles O41, by the UNOPENED arm of CLOSE. -/
theorem closeBeforeUseFaults : Obligations.CloseBeforeUseFaults := fun _ hp =>
  exec_close_unopened hp

end Sys2Proof.Machine
end

section
/-! The two error kinds and the two model faults (spec/60_exceptions.md). INVALID_ARGUMENT is raised
before anything is written. EXHAUSTED_INPUT is raised by a step of the cursor that ran out of bits, and
such a step leaves the registers at the end of the tape. A step without a next state is a misuse. -/

namespace Sys2Proof.Machine

theorem legalBitsWidth_eq_false_iff {w : BitVec 8} :
    legalBitsWidth w = false ↔ w.toNat = 0 ∨ 33 ≤ w.toNat := by
  rw [← Bool.not_eq_true, legalBitsWidth_iff]
  omega

theorem legalCharWidth_eq_false_iff {w : BitVec 8} :
    legalCharWidth w = false ↔ w.toNat = 0 ∨ 17 ≤ w.toNat := by
  rw [← Bool.not_eq_true, legalCharWidth_iff]
  omega

/-- Settles O28: a width out of bounds makes the command ill-formed, and outside CLOSED such a command
only raises INVALID_ARGUMENT. -/
theorem illegalWidthChangesNothing : Obligations.IllegalWidthChangesNothing := fun _ w hp =>
  ⟨fun hw => exec_illFormed (i := .readBits w) (legalBitsWidth_eq_false_iff.2 hw) hp,
    fun hw => exec_illFormed (i := .readChar w) (legalCharWidth_eq_false_iff.2 hw) hp⟩

/-- The next word is one the spec gives no behaviour for, with the model fault `r` (R161). -/
def State.Misuse (s : State) (r : Fault) : Prop :=
  s.inText = false ∧ ∃ c rest, s.cmds = c :: rest ∧
    ((s.phase = .closed ∧ c ≠ encode .close ∧ r = .useAfterClose) ∨
     (s.phase = .unopened ∧ c = encode .close ∧ r = .closeBeforeUse))

theorem State.Misuse.step_eq_fault {s : State} {r : Fault} (h : s.Misuse r) : step s = .fault r := by
  obtain ⟨ht, c, rest, hc, ⟨hp, hne, rfl⟩ | ⟨hp, rfl, rfl⟩⟩ := h
  · exact step_closed ht hc hp hne
  · exact (step_of_decode_ok ht hc (decode_encode _)).trans (exec_close_unopened hp)

/-- Outside CLOSED every word but CLOSE's has a next state, reserved or not. -/
theorem step_next_of_ne_close {s : State} {c : CmdWord} {rest : List CmdWord}
    (ht : s.inText = false) (hc : s.cmds = c :: rest) (hp : s.phase ≠ .closed)
    (hne : c ≠ encode .close) : ∃ t, step s = .next t := by
  cases hd : decode c with
  | error e => exact ⟨_, (step_of_decode_error ht hc hd).trans (execReserved_next hp)⟩
  | ok i =>
    have hi : i ≠ .close := by
      rintro rfl
      exact hne (decode_eq_ok_iff.1 hd)
    rw [step_of_decode_ok ht hc hd]
    exact exec_next hi hp

/-- CLOSE has a next state once the block has been initialised (R124, R125). -/
theorem step_next_of_close {s : State} {rest : List CmdWord} (ht : s.inText = false)
    (hc : s.cmds = encode .close :: rest) (hp : s.phase ≠ .unopened) : ∃ t, step s = .next t := by
  have hst := step_of_decode_ok ht hc (decode_encode _)
  cases hph : s.phase with
  | unopened => exact absurd hph hp
  | opened => exact ⟨_, hst.trans (exec_close_opened hph)⟩
  | closed => exact ⟨_, hst.trans (exec_close_closed hph)⟩

/-- A step has a next state, or the next word is a misuse. -/
theorem step_next_or_misuse (s : State) : (∃ t, step s = .next t) ∨ ∃ r, s.Misuse r := by
  obtain ⟨-, h⟩ | ⟨-, -, h⟩ | ⟨c, rest, ht, hc, -⟩ := step_cases s
  · exact .inl ⟨_, h⟩
  · exact .inl ⟨_, h⟩
  · by_cases hcl : c = encode .close
    · subst hcl
      by_cases hp : s.phase = .unopened
      · exact .inr ⟨_, ht, _, rest, hc, .inr ⟨hp, rfl, rfl⟩⟩
      · exact .inl (step_next_of_close ht hc hp)
    · by_cases hp : s.phase = .closed
      · exact .inr ⟨_, ht, c, rest, hc, .inl ⟨hp, hcl, rfl⟩⟩
      · exact .inl (step_next_of_ne_close ht hc hp hcl)

/-- Settles O42: the two misuses fault, and every other step has a next state. -/
theorem faultsAreExactlyTheTwoMisuses : Obligations.FaultsAreExactlyTheTwoMisuses := by
  refine fun s => ⟨fun r => ⟨fun h => ?onlyMisuses, State.Misuse.step_eq_fault⟩, fun r h => ?notRefused⟩
  case onlyMisuses =>
    obtain ⟨t, ht⟩ | ⟨r', hr⟩ := step_next_or_misuse s
    · simp [h] at ht
    · obtain rfl : r = r' := Host.Outcome.fault.inj (h.symm.trans hr.step_eq_fault)
      exact hr
  case notRefused =>
    obtain ⟨t, ht⟩ | ⟨r', hr⟩ := step_next_or_misuse s
    · simp [h] at ht
    · simp [hr.step_eq_fault] at h

/-- `t` is the end state of R157: in OPEN at the end of the tape of `s`, with every item up to the first
`End` taken and no READ_TEXT running. -/
def EndsTape (s t : State) : Prop :=
  t.AtEnd ∧ t.phase = .opened ∧ t.inText = false ∧
    ∃ n, s.StreamLength n ∧ t.pos = 8 * n ∧ t.taken = n + 1

/-- `t` is `s` answered with the beat `b`, which is OK, or EXHAUSTED_INPUT in the end state. -/
def DeliversOrEnds (s t : State) (b : Beat) : Prop :=
  t.beats = s.beats ++ [b] ∧ (b.status = .ok ∨ b.status = .exhaustedInput ∧ EndsTape s t)

/-- The source is the same before and after LazyInit. -/
theorem DeliversOrEnds.of_lazyInit {s t : State} {b : Beat} (h : DeliversOrEnds (lazyInit s) t b) :
    DeliversOrEnds s t b := by
  simpa [DeliversOrEnds, EndsTape, State.StreamLength] using h

theorem SameButCursor.phase_eq {s t : State} (h : SameButCursor s t) : t.phase = s.phase := h.1

theorem SameButCursor.inText_eq {s t : State} (h : SameButCursor s t) : t.inText = s.inText := by
  obtain ⟨-, -, htext, -⟩ := h
  exact htext

/-- A beat delivered after the cursor moved is the one added to the record. -/
theorem SameButCursor.beats_append {s t : State} (h : SameButCursor s t) (b : Beat) :
    t.beats ++ [b] = s.beats ++ [b] := by
  obtain ⟨-, -, -, -, -, -, hbeats, -, -⟩ := h
  rw [hbeats]

theorem State.withText_eq_self {s : State} {running : Bool} (h : s.inText = running) :
    s.withText running = s := by
  subst h
  rfl

/-- LazyInit leaves the block in OPEN, unless it was CLOSED (R83). -/
theorem lazyInit_phase_opened {s : State} (hp : s.phase ≠ .closed) :
    (lazyInit s).phase = .opened := by
  cases h : (lazyInit s).phase with
  | unopened => exact absurd h (lazyInit_phase_ne_unopened s)
  | opened => rfl
  | closed => exact absurd h (lazyInit_phase_ne_closed hp)

/-- `Byte1()` raises only at the end of the tape (R101). -/
theorem byte1_exhausted_atTape {s u : State} {p : Nat} (hs : s.AtTape p)
    (h : byte1 s = (.exhausted, u)) : ∃ n, s.StreamLength n ∧ u.AtTape (8 * n) := by
  obtain hb | ⟨n, hn, hlt⟩ := bitsRemain_or_short s p 8
  · obtain ⟨x, t, hgot, -⟩ := byte1_atTape hs hb
    simp [hgot] at h
  · obtain ⟨t, ht, hat⟩ := byte1_short hs hn (hs.le_length hn) hlt
    obtain rfl : t = u := (Prod.mk.inj (ht.symm.trans h)).2
    exact ⟨n, hn, hat⟩

/-- A read's loop raises only at the end of the tape (R95, R110). -/
theorem ReadLoop.exhausted_atTape {s u : State} {p w : Nat} (hs : s.AtTape p)
    (h : ReadLoop w s (.exhausted, u)) : ∃ n, s.StreamLength n ∧ u.AtTape (8 * n) := by
  obtain hb | ⟨n, hn, hlt⟩ := bitsRemain_or_short s p w
  · obtain ⟨v, t, hgot, -⟩ := h.got hs hb
    simp at hgot
  · obtain ⟨t, ht, hat⟩ := h.short hs hn (hs.le_length hn) hlt
    obtain rfl : u = t := (Prod.mk.inj ht).2
    exact ⟨n, hn, hat⟩

/-- EXHAUSTED_INPUT raised at the end of the tape, READ_TEXT no longer running, is the end state. -/
theorem deliversOrEnds_of_exhausted {s u : State} {n : Nat} (hp : s.phase = .opened)
    (hsc : SameButCursor s u) (hn : s.StreamLength n) (hat : u.AtTape (8 * n)) :
    DeliversOrEnds s ((raiseError .exhausted u).withText false) ⟨.exhaustedInput, true, 0⟩ := by
  have hdiv : 8 * n / 8 = n := Nat.mul_div_cancel_left n (by omega)
  have hend : u.item (8 * n / 8) = .endOfStream := by rw [hdiv, hsc.item]; exact hn.1
  have hpos := hat.pos_eq
  obtain ⟨htaken, -, -, hatEnd⟩ := hat
  exact ⟨hsc.beats_append _, .inr ⟨rfl, (hatEnd hend).2, hsc.phase_eq.trans hp, rfl, n, hn,
    hpos, by simpa [hdiv] using htaken⟩⟩

/-- One turn of READ_TEXT's loop on the tape (R120, R122). -/
theorem textBeat_deliversOrEnds {s : State} {p : Nat} (hp : s.phase = .opened) (hs : s.AtTape p) :
    ∃ b, DeliversOrEnds s (textBeat s) b := by
  have hmove := byte1_sameButCursor s
  obtain ⟨x, u, hb, ht⟩ | ⟨u, hb, ht⟩ := textBeat_cases s
  all_goals
    rw [hb] at hmove
    rw [ht]
  · exact ⟨_, hmove.beats_append _, .inl rfl⟩
  · obtain ⟨n, hn, hat⟩ := byte1_exhausted_atTape hs hb
    exact ⟨_, deliversOrEnds_of_exhausted hp hmove hn hat⟩

/-- A read of a fixed width on the tape (R94, R104, R110). -/
theorem ReadLoop.deliversOrEnds {s : State} {r : Got Data × State} {p w : Nat}
    (h : ReadLoop w s r) (hi : s.inText = false) (hp : s.phase = .opened) (hs : s.AtTape p) :
    ∃ b, DeliversOrEnds s (finish r) b := by
  obtain ⟨g, u⟩ := r
  have hsc : SameButCursor s u := h.sameButCursor
  cases g with
  | got v => exact ⟨_, hsc.beats_append _, .inl rfl⟩
  | exhausted =>
    obtain ⟨n, hn, hat⟩ := h.exhausted_atTape hs
    have he := deliversOrEnds_of_exhausted hp hsc hn hat
    rw [State.withText_eq_self (s := raiseError .exhausted u) (hsc.inText_eq.trans hi)] at he
    exact ⟨_, he⟩

/-- A command answers INVALID_ARGUMENT in the state as it was, OK, or EXHAUSTED_INPUT in the end
state. -/
theorem exec_invalid_or_deliversOrEnds {i : Instr} {s t : State} (hs : s.Coherent)
    (hi : s.inText = false) (h : exec i s = .next t) :
    t = raiseError .invalid s ∨ ∃ b, DeliversOrEnds s t b := by
  obtain ⟨-, -, rfl⟩ | ⟨-, -, rfl⟩ | ⟨-, -, rfl⟩ | ⟨-, -, rfl⟩ | ⟨hp, -, he, rfl⟩ |
    ⟨hp, -, -, rfl⟩ | ⟨hp, w, r, -, hr, rfl⟩ := exec_cases h
  · exact .inr ⟨_, rfl, .inl rfl⟩
  · exact .inr ⟨_, rfl, .inl rfl⟩
  · exact .inl rfl
  · exact .inr ⟨_, by rw [State.respond_beats, lazyInit_beats], .inl rfl⟩
  · obtain ⟨n, hn, hat⟩ := byte1_exhausted_atTape hs.lazyInit (byte1_atEnd he)
    have hd := deliversOrEnds_of_exhausted (lazyInit_phase_opened hp) (SameButCursor.refl _) hn hat
    rw [State.withText_eq_self (by simpa using hi)] at hd
    exact .inr ⟨_, hd.of_lazyInit⟩
  · obtain ⟨b, hb⟩ := textBeat_deliversOrEnds (lazyInit_phase_opened hp) hs.lazyInit
    exact .inr ⟨b, hb.of_lazyInit⟩
  · obtain ⟨b, hb⟩ := hr.deliversOrEnds (by simpa using hi) (lazyInit_phase_opened hp) hs.lazyInit
    exact .inr ⟨b, hb.of_lazyInit⟩

/-- A reserved word that does not fault answers INVALID_ARGUMENT in the state as it was (R153). -/
theorem eq_raiseError_of_execReserved {s t : State} (h : execReserved s = .next t) :
    t = raiseError .invalid s := by
  by_cases hp : s.phase = .closed
  · simp [execReserved_closed hp] at h
  · exact Host.Outcome.next.inj (h.symm.trans (execReserved_next hp))

/-- The words still to come play no part in coherence. -/
theorem State.Coherent.withCmds {s : State} (hs : s.Coherent) (cmds : List CmdWord) :
    ({ s with cmds := cmds } : State).Coherent :=
  ⟨hs.opened, hs.unopened, hs.closeWire, hs.text⟩

/-- A step from a coherent state idles, answers INVALID_ARGUMENT with nothing but the word taken, or
answers OK, or EXHAUSTED_INPUT in the end state. -/
theorem step_invalid_or_deliversOrEnds {s t : State} (hs : s.Coherent) (h : step s = .next t) :
    t = s ∨ t = raiseError .invalid { s with cmds := s.cmds.tail } ∨ ∃ b, DeliversOrEnds s t b := by
  obtain ⟨hi, hst⟩ | ⟨-, -, hst⟩ | ⟨c, rest, hi, hc, hst⟩ := step_cases s
  · obtain rfl := Host.Outcome.next.inj (hst.symm.trans h)
    have hp := (hs.text hi).1
    exact .inr (.inr (textBeat_deliversOrEnds hp (hs.opened (by simp [hp]))))
  · exact .inl (Host.Outcome.next.inj (h.symm.trans hst))
  · obtain rfl : s.cmds.tail = rest := by rw [hc, List.tail_cons]
    refine .inr ?_
    obtain ⟨i, -, hst⟩ | ⟨e, -, hst⟩ := hst
    · exact exec_invalid_or_deliversOrEnds (hs.withCmds _) hi (hst.symm.trans h)
    · exact .inl (eq_raiseError_of_execReserved (hst.symm.trans h))

/-- Settles O46: the beat tells which of the answers of a step it was. -/
theorem errorsLeaveTheStatedState : Obligations.ErrorsLeaveTheStatedState := by
  intro s t b hs h hb
  obtain rfl | rfl | ⟨b', hb', hok | ⟨hex, hend⟩⟩ := step_invalid_or_deliversOrEnds hs h
  · simp at hb
  · obtain rfl : ⟨.invalidArgument, true, 0⟩ = b := by simpa [ErrorKind.status] using hb
    exact ⟨fun _ => rfl, fun hex => by contradiction⟩
  all_goals obtain rfl : b' = b := by simpa [hb'] using hb
  · simp [hok]
  · exact ⟨fun hinv => by simp [hex] at hinv, fun _ => hend⟩

end Sys2Proof.Machine
end

section
/-! The decoder, word by word (spec/30_encoding.md R61 to R65). -/

namespace Sys2Proof

/-- Settles O8, by the fields of the one format. -/
theorem decodeInvertsEncode : Obligations.DecodeInvertsEncode := fun _ _ => decode_eq_ok_iff

/-- Settles O12: each word is written out, and the decoder reads its three fields. -/
theorem sampleWordsDecode : Obligations.SampleWordsDecode := by
  unfold Obligations.SampleWordsDecode
  decide

theorem noOperand_error_iff {w : BitVec 8} {i : Instr} {e : Reserved} :
    noOperand w i = .error e ↔ w ≠ 0 ∧ .strayOperand = e := by
  by_cases h : w = 0#8 <;> simp [noOperand, h]

/-- Every word with `rsv = 0000` by its `op`, as the arms of the decoder read it. -/
theorem decode_rsv_zero {c : CmdWord} (h : rsvField c = 0#4) :
    (0xC ≤ (opField c).toNat ∧ decode c = .error .unusedOp) ∨
    ((opField c).toNat < 0xC ∧ (opField c = 0x2#4 ∨ opField c = 0x4#4) ∧
      ∃ i, decode c = .ok i) ∨
    ((opField c).toNat < 0xC ∧ opField c ≠ 0x2#4 ∧ opField c ≠ 0x4#4 ∧
      ∃ i, decode c = noOperand (wField c) i) := by
  have hlt : (opField c).toNat < 16 := (opField c).isLt
  simp only [decode, h, ne_eq, not_true_eq_false, BitVec.ofNat_eq_ofNat, if_false]
  split
  case h_3 ho => exact .inr (.inl ⟨by omega, .inl (BitVec.eq_of_toNat_eq ho), _, rfl⟩)
  case h_5 ho => exact .inr (.inl ⟨by omega, .inr (BitVec.eq_of_toNat_eq ho), _, rfl⟩)
  case h_13 =>
    refine .inl ⟨?_, rfl⟩
    simp only [imp_false] at *
    omega
  all_goals
    next ho =>
    exact .inr (.inr ⟨by omega, fun h2 => by simp [h2] at ho, fun h4 => by simp [h4] at ho, _, rfl⟩)

/-- Settles O10: a word with `rsv` set is named first; the others by their `op`. -/
theorem reservedWordsAreNamed : Obligations.ReservedWordsAreNamed := by
  intro c
  by_cases h : rsvField c = 0#4
  · obtain ⟨ho, hd⟩ | ⟨ho, h24, i, hd⟩ | ⟨ho, h2, h4, i, hd⟩ := decode_rsv_zero h <;> rw [hd]
    · simp [h, ho]
    · simp [h, ho]
      tauto
    · simp [h, ho, h2, h4, noOperand_error_iff]
  · have hd : decode c = .error .rsvNotZero := by simp [decode, h]
    simp [hd, h]

theorem encode_injective : Function.Injective encode := fun i j h => by
  have hd := decode_encode j
  rw [← h, decode_encode] at hd
  exact Except.ok.inj hd

/-- The ten commands without an operand. -/
def plainInstrs : Finset Instr :=
  {.isAtEnd, .readBit, .readByte, .readShort, .readInt, .readLong, .readFloat, .readDouble,
    .readText, .close}

theorem takesWidth_of_mem_plainInstrs : ∀ i ∈ plainInstrs, i.takesWidth = false := by decide

/-- The commands whose width, where they have one, lies in `W`. -/
def instrsOfWidths (W : Finset (BitVec 8)) : Finset Instr :=
  plainInstrs ∪ W.image .readBits ∪ W.image .readChar

theorem mem_instrsOfWidths {W : Finset (BitVec 8)} (h : ∀ w, w ∈ W) (i : Instr) :
    i ∈ instrsOfWidths W := by
  cases i with
  | readBits w =>
    exact Finset.mem_union_left _ (Finset.mem_union_right _ (Finset.mem_image_of_mem _ (h w)))
  | readChar w => exact Finset.mem_union_right _ (Finset.mem_image_of_mem _ (h w))
  | _ => exact Finset.mem_union_left _ (Finset.mem_union_left _ (by decide))

theorem card_instrsOfWidths (W : Finset (BitVec 8)) :
    (instrsOfWidths W).card = 10 + W.card + W.card := by
  have hplain : plainInstrs.card = 10 := by decide
  have hbits : Disjoint plainInstrs (W.image .readBits) := Finset.disjoint_left.2 fun i hi h => by
    obtain ⟨w, -, rfl⟩ := Finset.mem_image.1 h
    exact Bool.noConfusion (takesWidth_of_mem_plainInstrs _ hi)
  have hchar : Disjoint (plainInstrs ∪ W.image .readBits) (W.image .readChar) :=
    Finset.disjoint_left.2 fun i hi h => by
      obtain ⟨w, -, rfl⟩ := Finset.mem_image.1 h
      obtain hi | hi := Finset.mem_union.1 hi
      · exact Bool.noConfusion (takesWidth_of_mem_plainInstrs _ hi)
      · obtain ⟨v, -, hv⟩ := Finset.mem_image.1 hi
        cases hv
  rw [instrsOfWidths, Finset.card_union_of_disjoint hchar,
    Finset.card_union_of_disjoint hbits, hplain,
    Finset.card_image_of_injective _ fun _ _ => Instr.readBits.inj,
    Finset.card_image_of_injective _ fun _ _ => Instr.readChar.inj]

/-- The words that decode are the encodings of the commands. -/
theorem filter_decodes {W : Finset (BitVec 8)} (hW : ∀ w, w ∈ W) {C : Finset CmdWord}
    (hC : ∀ c, c ∈ C) : (C.filter fun c => (decode c).toOption.isSome = true) =
      (instrsOfWidths W).image encode := by
  ext c
  simp only [Finset.mem_filter, hC, true_and, Finset.mem_image]
  constructor
  · intro h
    cases hd : decode c with
    | ok i => exact ⟨i, mem_instrsOfWidths hW i, (decode_eq_ok_iff.1 hd).symm⟩
    | error e => simp [hd, Except.toOption] at h
  · rintro ⟨i, -, rfl⟩
    rw [decode_encode]
    rfl

/-- Settles O11: the words that decode are the encodings of the commands, ten without a width and
two for each of the 256 widths, and no two commands share a word. -/
theorem fiveHundredTwentyTwoWordsSelectACommand :
    Obligations.FiveHundredTwentyTwoWordsSelectACommand := by
  have hwidths : (Finset.univ : Finset (BitVec 8)).card = 256 :=
    FinEnum.card_eq_fintypeCard.symm.trans (FinEnum.card_bitVec 8)
  calc _ = ((instrsOfWidths Finset.univ).image encode).card :=
        congrArg Finset.card (filter_decodes Finset.mem_univ Finset.mem_univ)
    _ = 522 := by
        rw [Finset.card_image_of_injective _ encode_injective, card_instrsOfWidths, hwidths]

end Sys2Proof
end

section
/-! What a command can do between its word and its answer, said once. A command moves the cursor by
a few kinds of register writes only (spec/40_refill_and_init.md R80, spec/41_query_and_bit_reads.md
R92, spec/42_byte_and_char_reads.md R100), `CursorRun`, and a step is one of six kinds, `StepTo`;
every invariant is checked on these. -/

namespace Sys2Proof.Machine

/-- The states the cursor can reach from `s` while a command runs. Nothing is written at end. -/
inductive CursorRun (s : State) : State → Prop
  | refl : CursorRun s s
  /-- ACC accumulates (R28). -/
  | acc {t : State} (a : Data) (h : CursorRun s t) : CursorRun s { t with acc := a }
  /-- A bit that is not the last one of BUF is taken (R92). -/
  | count {t : State} (h : CursorRun s t) (he : t.eos = false) (hc : t.cnt ≠ 1#4) :
      CursorRun s { t with cnt := t.cnt - 1 }
  /-- The rest of BUF is taken and the next item fetched (R80). -/
  | fill {t : State} (h : CursorRun s t) (he : t.eos = false) : CursorRun s (refill t)
  /-- An unaligned byte step restores CNT in the next byte (R100). -/
  | cross {t : State} (h : CursorRun s t) (he : t.eos = false) (hc : t.cnt ≠ 8#4)
      (hr : (refill t).eos = false) : CursorRun s { refill t with cnt := t.cnt }

theorem refill_withCnt (s : State) (c : BitVec 4) : refill { s with cnt := c } = refill s :=
  (refill_withCntAcc s c s.acc).trans (by rw [← refill_acc s])

theorem CursorRun.bit1 {s t : State} (h : CursorRun s t) : CursorRun s (bit1 t).2 := by
  obtain ⟨-, k⟩ | ⟨he, hc, k⟩ | ⟨he, -, k⟩ := bit1_cases t <;> rw [k]
  · exact h
  · exact h.count he hc
  · rw [refill_withCnt]
    exact h.fill he

theorem CursorRun.byte1 {s t : State} (h : CursorRun s t) : CursorRun s (byte1 t).2 := by
  obtain ⟨-, k⟩ | ⟨he, -, k⟩ | ⟨he, -, -, k⟩ | ⟨he, hc, hr, k⟩ := byte1_cases t <;> rw [k]
  · exact h
  · exact h.fill he
  · exact h.fill he
  · exact h.cross he hc hr

theorem CursorRun.shiftBits {s t : State} (h : CursorRun s t) (k : Nat) :
    CursorRun s (shiftBits k t).2 := by
  induction k generalizing t with
  | zero => exact h
  | succ k ih =>
    have hb := h.bit1
    cases hr : Machine.bit1 t with
    | mk r u =>
      rw [hr] at hb
      cases r with
      | got b => rw [shiftBits_got hr]; exact ih (hb.acc _)
      | exhausted => rw [shiftBits_exhausted hr]; exact hb

theorem CursorRun.shiftBytes {s t : State} (h : CursorRun s t) (k : Nat) :
    CursorRun s (shiftBytes k t).2 := by
  induction k generalizing t with
  | zero => exact h
  | succ k ih =>
    have hb := h.byte1
    cases hr : Machine.byte1 t with
    | mk r u =>
      rw [hr] at hb
      cases r with
      | got b => rw [shiftBytes_got hr]; exact ih (hb.acc _)
      | exhausted => rw [shiftBytes_exhausted hr]; exact hb

theorem ReadLoop.cursorRun {w : Nat} {s : State} {r : Got Data × State} (h : ReadLoop w s r) :
    CursorRun s r.2 := by
  obtain ⟨-, -, rfl⟩ | ⟨k, -, -, -, rfl⟩ := h
  · exact (CursorRun.refl.acc 0).shiftBits w
  · exact (CursorRun.refl.acc 0).shiftBytes k

theorem CursorRun.sameButCursor {s t : State} (h : CursorRun s t) : SameButCursor s t := by
  induction h with
  | refl => exact SameButCursor.refl s
  | acc a _ ih => exact ih.trans (sameButCursor_acc _ a)
  | count _ _ _ ih => exact ih.trans (by simp [SameButCursor])
  | fill _ _ ih => exact ih.trans (refill_sameButCursor _)
  | cross _ _ _ _ ih => exact ih.trans (by simp [SameButCursor])

/-- Nothing but ACC is written at end. -/
theorem CursorRun.eq_of_eos {s t : State} (h : CursorRun s t) (he : s.eos = true) :
    t = { s with acc := t.acc } := by
  induction h with
  | refl => rfl
  | acc a _ ih => rw [ih]
  | count _ ht _ ih => rw [ih] at ht; simp [he] at ht
  | fill _ ht ih => rw [ih] at ht; simp [he] at ht
  | cross _ ht _ _ ih => rw [ih] at ht; simp [he] at ht

/-- An error beat carries data 0 and is the last one (R68). -/
def Beat.ErrorIsBare (b : Beat) : Prop := b.status ≠ .ok → b.data = 0 ∧ b.last = true

/-- `t` is `s` after cursor moves and one beat; READ_TEXT runs on iff that beat is not the last, and
then not at end (R69). -/
structure Delivers (s t : State) (b : Beat) : Prop where
  run : ∃ u, CursorRun s u ∧ t = (u.emit b).withText !b.last
  goesOn : b.last = false → t.eos = false
  error : b.ErrorIsBare

theorem textBeat_delivers (s : State) : ∃ b, Delivers s (textBeat s) b := by
  have hrun := (CursorRun.refl (s := s)).byte1
  obtain ⟨x, u, hb, ht⟩ | ⟨u, hb, ht⟩ := textBeat_cases s <;> rw [hb] at hrun <;> rw [ht]
  · exact ⟨_, ⟨u, hrun, rfl⟩, id, by simp [Beat.ErrorIsBare]⟩
  · exact ⟨_, ⟨u, hrun, rfl⟩, by simp, by simp [Beat.ErrorIsBare]⟩

/-- A response from an idle block ends the command. -/
theorem delivers_respond {s u : State} {st : Status} {d : Data} (hu : CursorRun s u)
    (hi : s.inText = false) (hd : st ≠ .ok → d = 0) :
    Delivers s (u.respond st d) ⟨st, true, d⟩ where
  run := ⟨u, hu, (State.withText_eq_self (s := u.respond st d)
    (hu.sameButCursor.inText_eq.trans hi)).symm⟩
  goesOn hl := by simp at hl
  error hne := ⟨hd hne, rfl⟩

theorem finish_delivers {s : State} {r : Got Data × State} (hr : CursorRun s r.2)
    (hi : s.inText = false) : ∃ b, Delivers s (finish r) b ∧ b.last = true := by
  obtain ⟨v, -, h⟩ | ⟨-, h⟩ := finish_cases r <;> rw [h]
  · exact ⟨_, delivers_respond hr hi (by simp), rfl⟩
  · exact ⟨_, delivers_respond hr hi (by simp), rfl⟩

/-- Everything a command other than CLOSE can do in an idle block. -/
theorem exec_delivers {i : Instr} {s t : State} (hne : i ≠ .close) (hi : s.inText = false)
    (h : exec i s = .next t) : s.phase ≠ .closed ∧
      (i.wellFormed = false ∧ t = raiseError .invalid s ∨
        i.wellFormed = true ∧ ∃ b, Delivers (lazyInit s) t b ∧
          (i = .readText ∨ b.last = true)) := by
  have hi' : (lazyInit s).inText = false := by simpa using hi
  have wf_of_read {w : Nat} (hw : readWidth i = some w) : i.wellFormed = true := by
    cases i <;> simp_all [readWidth, Instr.wellFormed]
  obtain ⟨rfl, -⟩ | ⟨rfl, -⟩ | ⟨hp, hf, rfl⟩ | ⟨hp, rfl, rfl⟩ | ⟨hp, rfl, -, rfl⟩ |
    ⟨hp, rfl, -, rfl⟩ | ⟨hp, w, r, hw, hr, rfl⟩ := exec_cases h
  · exact absurd rfl hne
  · exact absurd rfl hne
  · exact ⟨hp, .inl ⟨hf, rfl⟩⟩
  · exact ⟨hp, .inr ⟨rfl, _, delivers_respond .refl hi' (by simp), .inr rfl⟩⟩
  · exact ⟨hp, .inr ⟨rfl, _, delivers_respond .refl hi' (by simp), .inl rfl⟩⟩
  · obtain ⟨b, hb⟩ := textBeat_delivers (lazyInit s)
    exact ⟨hp, .inr ⟨rfl, b, hb, .inl rfl⟩⟩
  · obtain ⟨b, hb, hl⟩ := finish_delivers hr.cursorRun hi'
    exact ⟨hp, .inr ⟨wf_of_read hw, b, hb, .inr hl⟩⟩

/-- The block with the word presented next taken (R60). -/
def State.takeWord (s : State) : State := { s with cmds := s.cmds.tail }

/-- The six kinds of step that have a next state. -/
inductive StepTo (s : State) : State → Prop
  /-- No word is presented. -/
  | idle (hi : s.inText = false) (hc : s.cmds = []) : StepTo s s
  /-- CLOSE in OPEN (R124). -/
  | close (hi : s.inText = false) (hp : s.phase = .opened) :
      StepTo s ({ s.takeWord with phase := .closed, srcClose := true }.respond .ok 0)
  /-- CLOSE in CLOSED (R125). -/
  | closeAgain (hi : s.inText = false) (hp : s.phase = .closed) :
      StepTo s (s.takeWord.respond .ok 0)
  /-- A reserved word or an illegal width (R152, R153). -/
  | invalid (hi : s.inText = false) (hp : s.phase ≠ .closed) :
      StepTo s (raiseError .invalid s.takeWord)
  /-- Every other valid command (R72). -/
  | command {t : State} {b : Beat} (hi : s.inText = false) (hp : s.phase ≠ .closed)
      (hd : Delivers (lazyInit s.takeWord) t b)
      (hl : (∃ rest, s.cmds = encode .readText :: rest) ∨ b.last = true) : StepTo s t
  /-- One more turn of READ_TEXT (R120). -/
  | turn {t : State} {b : Beat} (hi : s.inText = true) (hd : Delivers s t b) : StepTo s t

theorem step_stepTo {s t : State} (h : step s = .next t) : StepTo s t := by
  obtain ⟨hi, hst⟩ | ⟨hi, hc, hst⟩ | ⟨c, rest, hi, hc, hst⟩ := step_cases s
  · obtain rfl := Host.Outcome.next.inj (hst.symm.trans h)
    obtain ⟨b, hb⟩ := textBeat_delivers s
    exact .turn hi hb
  · obtain rfl := Host.Outcome.next.inj (hst.symm.trans h)
    exact .idle hi hc
  · obtain rfl : s.cmds.tail = rest := by rw [hc, List.tail_cons]
    obtain ⟨i, hd, hst⟩ | ⟨e, -, hst⟩ := hst
    · replace h : exec i s.takeWord = .next t := hst.symm.trans h
      by_cases hcl : i = .close
      · subst hcl
        obtain ⟨-, hp, rfl⟩ | ⟨-, hp, rfl⟩ | ⟨-, hw, -⟩ | ⟨-, hn, -⟩ | ⟨-, hn, -⟩ | ⟨-, hn, -⟩ |
          ⟨-, w, -, hn, -⟩ := exec_cases h
        · exact .close hi hp
        · exact .closeAgain hi hp
        all_goals contradiction
      · obtain ⟨hp, ⟨-, rfl⟩ | ⟨-, b, hb, hl⟩⟩ := exec_delivers (s := s.takeWord) hcl hi h
        · exact .invalid hi hp
        · refine .command hi hp hb (hl.imp_left ?_)
          rintro rfl
          exact ⟨_, decode_eq_ok_iff.1 hd ▸ hc⟩
    · replace h : execReserved s.takeWord = .next t := hst.symm.trans h
      obtain rfl := eq_raiseError_of_execReserved h
      refine .invalid hi fun hp => ?_
      rw [execReserved_closed (s := s.takeWord) hp] at h
      cases h

end Sys2Proof.Machine
end

section
/-! The agreement of the registers with the stream (spec/10_state.md R31,
spec/45_sequencing_and_arithmetic.md R132) is kept by every step, and with it the requester's
lifecycle order (spec/70_reset_and_hazards.md R178): the cursor only moves on along the tape. -/

namespace Sys2Proof.Machine

theorem CursorRun.atTape {s t : State} {p : Nat} (h : CursorRun s t) (hs : s.AtTape p) :
    ∃ q, p ≤ q ∧ t.AtTape q := by
  induction h with
  | refl => exact ⟨p, le_rfl, hs⟩
  | acc a _ ih => exact ih
  | @count t _ he hc ih =>
    obtain ⟨q, hpq, ht⟩ := ih
    obtain ⟨u, hu, hat⟩ := bit1_atTape ht (ht.eos_iff.1 he)
    obtain ⟨he', -⟩ | ⟨-, -, k⟩ | ⟨-, h1, -⟩ := bit1_cases t
    · simp [he] at he'
    · obtain rfl := (Prod.mk.inj (k.symm.trans hu)).2
      exact ⟨q + 1, by omega, hat⟩
    · exact absurd h1 hc
  | @fill t _ he ih =>
    obtain ⟨q, hpq, ht⟩ := ih
    have hb := ht.eos_iff.1 he
    obtain ⟨htaken, hbytes, -⟩ := ht
    refine ⟨8 * t.taken, by omega, State.atTape_refill rfl fun j hj => ?_⟩
    rcases Nat.lt_or_eq_of_le (Nat.le_of_lt_succ (htaken ▸ hj)) with hlt | rfl
    · exact hbytes j hlt
    · exact hb
  | @cross t _ he hc hr ih =>
    obtain ⟨q, hpq, ht⟩ := ih
    obtain ⟨hend, -⟩ | ⟨v, hv, -⟩ := refill_cases t
    · simp [hend.1] at hr
    · have hgot := byte1_unaligned_byte he hc hv
      obtain hb | ⟨n, hn, hlt⟩ := bitsRemain_or_short t q 8
      · obtain ⟨x, u, hu, -, hat⟩ := byte1_atTape ht hb
        obtain rfl := (Prod.mk.inj (hgot.symm.trans hu)).2
        exact ⟨q + 8, by omega, hat⟩
      · obtain ⟨u, hu, -⟩ := byte1_short ht hn (ht.le_length hn) hlt
        simp [hgot] at hu

theorem Delivers.atTape {s t : State} {b : Beat} {p : Nat} (h : Delivers s t b) (hs : s.AtTape p) :
    ∃ q, p ≤ q ∧ t.AtTape q := by
  obtain ⟨u, hu, rfl⟩ := h.run
  exact hu.atTape hs

theorem Delivers.answered {s t : State} {b : Beat} (h : Delivers s t b) : Answered s t b := by
  obtain ⟨u, hu, rfl⟩ := h.run
  obtain ⟨-, hclose, -, hsrc, horigin, hcmds, hbeats, hpast, htaken⟩ := hu.sameButCursor
  exact ⟨by simp [hbeats], hpast, hcmds, hsrc, horigin, hclose, htaken⟩

theorem Delivers.phase_eq {s t : State} {b : Beat} (h : Delivers s t b) : t.phase = s.phase := by
  obtain ⟨u, hu, rfl⟩ := h.run
  exact hu.sameButCursor.phase_eq

theorem Delivers.inText_eq {s t : State} {b : Beat} (h : Delivers s t b) : t.inText = !b.last := by
  obtain ⟨u, -, rfl⟩ := h.run
  rfl

theorem Delivers.cmds_eq {s t : State} {b : Beat} (h : Delivers s t b) : t.cmds = s.cmds := by
  obtain ⟨-, -, hcmds, -⟩ := h.answered
  exact hcmds

theorem Delivers.beats_eq {s t : State} {b : Beat} (h : Delivers s t b) :
    t.beats = s.beats ++ [b] := h.answered.1

theorem Delivers.srcClose_eq {s t : State} {b : Beat} (h : Delivers s t b) :
    t.srcClose = s.srcClose := by
  obtain ⟨-, -, -, -, -, hclose, -⟩ := h.answered
  exact hclose

/-- An open block on the tape is coherent. -/
theorem coherent_of_atTape {t : State} {q : Nat} (hat : t.AtTape q) (hp : t.phase = .opened)
    (hc : t.srcClose = false) (ht : t.inText = true → t.eos = false) : t.Coherent where
  opened _ := by rw [hat.pos_eq]; exact hat
  unopened hu := by simp [hp] at hu
  closeWire := by simp [hp, hc]
  text hi := ⟨hp, ht hi⟩

theorem Delivers.coherent {s t : State} {b : Beat} {p : Nat} (h : Delivers s t b)
    (hs : s.AtTape p) (hp : s.phase = .opened) (hc : s.srcClose = false) : t.Coherent := by
  obtain ⟨q, -, hat⟩ := h.atTape hs
  refine coherent_of_atTape hat (h.phase_eq.trans hp) (h.srcClose_eq.trans hc) fun ht => ?_
  rw [h.inText_eq] at ht
  exact h.goesOn (by simpa using ht)

theorem State.Coherent.srcClose_eq_false {s : State} (hs : s.Coherent) (hp : s.phase ≠ .closed) :
    s.srcClose = false :=
  Bool.eq_false_iff.2 fun h => hp (hs.closeWire.1 h)

theorem State.Coherent.text_atTape {s : State} (hs : s.Coherent) (hi : s.inText = true) :
    s.phase = .opened ∧ s.AtTape s.pos := by
  have hp := (hs.text hi).1
  exact ⟨hp, hs.opened (by simp [hp])⟩

/-- Settles O52: a command starts where LazyInit left the registers on the tape, and the cursor's
moves keep them there. -/
theorem stepKeepsTheBlockCoherent : Obligations.StepKeepsTheBlockCoherent := by
  intro s t hs h
  have hw : s.takeWord.Coherent := hs.withCmds s.cmds.tail
  cases step_stepTo h with
  | idle => exact hs
  | close hi hp =>
    exact ⟨fun _ => hs.opened (by simp [hp]), by simp, by simp, fun ht => by
      simp [State.takeWord, hi] at ht⟩
  | closeAgain => exact ⟨hw.opened, hw.unopened, hw.closeWire, hw.text⟩
  | invalid => exact ⟨hw.opened, hw.unopened, hw.closeWire, hw.text⟩
  | command _ hp hd =>
    exact hd.coherent hw.lazyInit (lazyInit_phase_opened (s := s.takeWord) hp)
      ((lazyInit_srcClose _).trans (hs.srcClose_eq_false hp))
  | turn hi hd =>
    obtain ⟨hp, hat⟩ := hs.text_atTape hi
    exact hd.coherent hat hp (hs.srcClose_eq_false (by simp [hp]))

/-- Settles O49: in each kind of step POS stays, or the registers move on along the tape. -/
theorem positionNeverDecreases : Obligations.PositionNeverDecreases := by
  intro s t hs h
  have mono {r : State} {b : Beat} (hd : Delivers r t b) (hr : r.AtTape s.pos) : s.pos ≤ t.pos := by
    obtain ⟨q, hq, hat⟩ := hd.atTape hr
    rwa [hat.pos_eq]
  cases step_stepTo h with
  | idle => exact le_rfl
  | close => exact le_rfl
  | closeAgain => exact le_rfl
  | invalid => exact le_rfl
  | command _ _ hd => exact mono hd (hs.withCmds s.cmds.tail).lazyInit
  | turn hi hd => exact mono hd (hs.text_atTape hi).2

/-- The phase a command leaves the block in is the one the lifecycle order expects (R72). -/
theorem exec_phaseAfter {i : Instr} {s t : State} (hi : s.inText = false)
    (h : exec i s = .next t) :
    phaseAfter s.phase (encode i) = some t.phase ∧ t.cmds = s.cmds := by
  by_cases hcl : i = .close
  · subst hcl
    cases hp : s.phase with
    | unopened => simp [exec_close_unopened hp] at h
    | opened =>
      obtain rfl := Host.Outcome.next.inj ((exec_close_opened hp).symm.trans h)
      simp [phaseAfter, decode_encode]
    | closed =>
      obtain rfl := Host.Outcome.next.inj ((exec_close_closed hp).symm.trans h)
      simp [phaseAfter, decode_encode, hp]
  · obtain ⟨hp, ⟨hw, rfl⟩ | ⟨hw, b, hb, -⟩⟩ := exec_delivers hcl hi h
    · refine ⟨?_, raiseError_cmds ..⟩
      cases hph : s.phase <;> simp_all [phaseAfter, decode_encode]
    · refine ⟨?_, hb.cmds_eq.trans (lazyInit_cmds s)⟩
      rw [hb.phase_eq, lazyInit_phase_opened hp]
      cases hph : s.phase <;> simp_all [phaseAfter, decode_encode]

/-- A word taken moves the lifecycle order on by that word. -/
theorem step_phaseAfter {s t : State} {c : CmdWord} {rest : List CmdWord} (hi : s.inText = false)
    (hc : s.cmds = c :: rest) (h : step s = .next t) :
    phaseAfter s.phase c = some t.phase ∧ t.cmds = rest := by
  cases hd : decode c with
  | ok i =>
    obtain rfl := decode_eq_ok_iff.1 hd
    rw [step_of_decode_ok hi hc hd] at h
    exact exec_phaseAfter (s := { s with cmds := rest }) hi h
  | error e =>
    rw [step_of_decode_error hi hc hd] at h
    obtain rfl := eq_raiseError_of_execReserved h
    refine ⟨?_, rfl⟩
    rw [raiseError_phase]
    cases hp : s.phase with
    | closed => simp [execReserved_closed (s := { s with cmds := rest }) hp] at h
    | _ => simp [phaseAfter, hd]

theorem lawful_cons {p : Phase} {c : CmdWord} {rest : List CmdWord} :
    lawful p (c :: rest) = true ↔ ∃ q, phaseAfter p c = some q ∧ lawful q rest = true := by
  cases h : phaseAfter p c <;> simp [lawful, h]

/-- The lifecycle order is kept by every step. -/
theorem step_keeps_lawful {s t : State} (hl : lawful s.phase s.cmds = true)
    (h : step s = .next t) : lawful t.phase t.cmds = true := by
  cases hi : s.inText with
  | true =>
    cases step_stepTo h with
    | turn _ hd => rwa [hd.phase_eq, hd.cmds_eq]
    | idle => exact hl
    | _ => simp_all
  | false =>
    cases hc : s.cmds with
    | nil =>
      have ht : step s = .next s := by simp [step, hi, nextCommand, hc]
      obtain rfl := Host.Outcome.next.inj (ht.symm.trans h)
      exact hl
    | cons c rest =>
      obtain ⟨hq, hrest⟩ := step_phaseAfter hi hc h
      rw [hc, lawful_cons] at hl
      obtain ⟨q, hq', hl⟩ := hl
      obtain rfl := Option.some.inj (hq'.symm.trans hq)
      rwa [hrest]

/-- A word in lifecycle order is no misuse (R161, R178). -/
theorem not_misuse_of_lawful {s : State} (hl : lawful s.phase s.cmds = true) (r : Fault) :
    ¬ s.Misuse r := by
  rintro ⟨-, c, rest, hc, h⟩
  rw [hc, lawful_cons] at hl
  obtain ⟨q, hq, -⟩ := hl
  obtain ⟨hp, hne, -⟩ | ⟨hp, rfl, -⟩ := h
  · have hd : decode c ≠ .ok .close := fun hd => hne (decode_eq_ok_iff.1 hd)
    cases hdc : decode c <;> simp_all [phaseAfter]
  · simp [phaseAfter, hp, decode_encode] at hq

theorem runSteps_succ_of_step {s t : State} (h : step s = .next t) (k : Nat) :
    runSteps (k + 1) s = runSteps k t := by
  have h' : Sys2Proof.core.step s = .next t := h
  simp only [runSteps, Host.Core.run, h']
  rfl

/-- A lawful coherent state has a next state, lawful and coherent again. -/
theorem State.Coherent.step_next {s : State} (hs : s.Coherent)
    (hl : lawful s.phase s.cmds = true) :
    ∃ t, step s = .next t ∧ t.Coherent ∧ lawful t.phase t.cmds = true := by
  obtain ⟨t, ht⟩ | ⟨r, hr⟩ := step_next_or_misuse s
  · exact ⟨t, ht, stepKeepsTheBlockCoherent s t hs ht, step_keeps_lawful hl ht⟩
  · exact absurd hr (not_misuse_of_lawful hl r)

theorem State.Coherent.goodFor {s : State} (hs : s.Coherent) (hl : lawful s.phase s.cmds = true)
    (k : Nat) : s.GoodFor k := by
  induction k generalizing s with
  | zero => exact ⟨s, rfl⟩
  | succ k ih =>
    obtain ⟨t, ht, htc, htl⟩ := hs.step_next hl
    obtain ⟨u, hu⟩ := ih htc htl
    exact ⟨u, (runSteps_succ_of_step ht k).trans hu⟩

/-- Settles O43: a lawful word is no misuse, so there is a next state, and coherence (O52) and the
order are kept; runs follow by induction on their length. -/
theorem lawfulRequesterNeverFaults : Obligations.LawfulRequesterNeverFaults :=
  fun _ hs hl => ⟨hs.step_next hl, hs.goodFor hl⟩

end Sys2Proof.Machine
end

section
/-! The registers between commands (spec/10_state.md R27, R34) and after the end (spec/20_memory.md
R44). -/

namespace Sys2Proof.Machine

/-- R27 of an initialised block: the end state, or a byte with 1 to 8 unconsumed bits. -/
def State.CursorOk (s : State) : Prop :=
  s.AtEnd ∨ (s.eos = false ∧ 1 ≤ s.cnt.toNat ∧ s.cnt.toNat ≤ 8)

theorem State.CursorOk.of_live {s : State} (h : s.CursorOk) (he : s.eos = false) :
    1 ≤ s.cnt.toNat ∧ s.cnt.toNat ≤ 8 := by
  obtain ⟨hend, -⟩ | ⟨-, hc⟩ := h
  · simp [he] at hend
  · exact hc

theorem refill_cursorOk (s : State) : (refill s).CursorOk := by
  obtain ⟨hend, -⟩ | ⟨v, -, he, hc, -⟩ := refill_cases s
  · exact .inl hend
  · exact .inr ⟨he, by simp [hc]⟩

theorem CursorRun.cursorOk {s t : State} (h : CursorRun s t) (hs : s.CursorOk) : t.CursorOk := by
  induction h with
  | refl => exact hs
  | acc _ _ ih => exact ih
  | @count t _ he hc ih =>
    have := ih.of_live he
    have h1 : t.cnt.toNat ≠ 1 := fun h => hc (BitVec.eq_of_toNat_eq h)
    exact .inr ⟨he, by simp only []; bv_omega⟩
  | fill => exact refill_cursorOk _
  | cross _ he _ hr ih => exact .inr ⟨hr, ih.of_live he⟩

theorem State.RegistersLegal.lazyInit_cursorOk {s : State} (h : s.RegistersLegal) :
    (lazyInit s).CursorOk := by
  by_cases hu : s.phase = .unopened
  · rw [lazyInit_of_unopened hu]
    exact refill_cursorOk s
  · rw [lazyInit_of_initialised hu]
    exact h.1 hu

theorem State.RegistersLegal.text {s : State} (h : s.RegistersLegal) (hi : s.inText = true) :
    s.phase = .opened ∧ s.CursorOk := by
  obtain ⟨hinit, -, htext⟩ := h
  have hp := htext hi
  exact ⟨hp, hinit (by simp [hp])⟩

/-- The words still to come play no part in the register invariant. -/
theorem State.RegistersLegal.takeWord {s : State} (h : s.RegistersLegal) :
    s.takeWord.RegistersLegal := h

theorem Delivers.registersLegal {s t : State} {b : Beat} (h : Delivers s t b) (hs : s.CursorOk)
    (hp : s.phase = .opened) : t.RegistersLegal := by
  have hpt := h.phase_eq.trans hp
  obtain ⟨u, hu, rfl⟩ := h.run
  exact ⟨fun _ => hu.cursorOk hs, fun hun => Phase.noConfusion (hun.symm.trans hpt), fun _ => hpt⟩

/-- Settles O51: LazyInit leaves a legal cursor, and the cursor's moves keep it legal. -/
theorem stepKeepsTheRegistersLegal : Obligations.StepKeepsTheRegistersLegal := by
  intro s t hs h
  cases step_stepTo h with
  | idle => exact hs
  | close hi hp =>
    exact ⟨fun _ => hs.1 (by simp [hp]), by simp, fun ht => by simp [State.takeWord, hi] at ht⟩
  | closeAgain => exact hs
  | invalid => exact hs
  | command _ hp hd =>
    exact hd.registersLegal hs.takeWord.lazyInit_cursorOk
      (lazyInit_phase_opened (s := s.takeWord) hp)
  | turn hi hd => exact hd.registersLegal (hs.text hi).2 (hs.text hi).1

/-- At end a command moves no register but ACC. -/
theorem Delivers.registers_of_eos {s t : State} {b : Beat} (h : Delivers s t b)
    (he : s.eos = true) :
    t.taken = s.taken ∧ t.buf = s.buf ∧ t.cnt = s.cnt ∧ t.eos = true := by
  obtain ⟨u, hu, rfl⟩ := h.run
  rw [hu.eq_of_eos he]
  exact ⟨rfl, rfl, rfl, he⟩

/-- Once at end no step moves a register but ACC, PHASE and `src_close` (R44). -/
theorem step_registers_of_eos {s t : State} (hp : s.phase ≠ .unopened) (he : s.eos = true)
    (h : step s = .next t) :
    t.taken = s.taken ∧ t.buf = s.buf ∧ t.cnt = s.cnt ∧ t.eos = true := by
  cases step_stepTo h with
  | command _ _ hd =>
    rw [lazyInit_of_initialised (s := s.takeWord) hp] at hd
    exact hd.registers_of_eos he
  | turn _ hd => exact hd.registers_of_eos he
  | _ => exact ⟨rfl, rfl, rfl, he⟩

theorem shiftBytes_atEnd {s : State} (he : s.eos = true) {k : Nat} (hk : k ≠ 0) :
    shiftBytes k s = (.exhausted, s) := by
  obtain ⟨k, rfl⟩ := Nat.exists_eq_succ_of_ne_zero hk
  exact shiftBytes_exhausted (byte1_atEnd he) k

theorem ReadLoop.atEnd {w : Nat} {s : State} {r : Got Data × State} (h : ReadLoop w s r)
    (he : s.eos = true) : r = (.exhausted, { s with acc := 0 }) := by
  obtain ⟨h1, -, rfl⟩ | ⟨k, -, h1, -, rfl⟩ := h
  · exact shiftBits_atEnd (s := { s with acc := 0 }) he (by omega)
  · exact shiftBytes_atEnd (s := { s with acc := 0 }) he (by omega)

/-- Settles O47: the cursor's moves need EOS = 0, and every loop of a read raises at once. -/
theorem nothingIsFetchedAfterTheEnd : Obligations.NothingIsFetchedAfterTheEnd := by
  refine ⟨fun s t hp he h => step_registers_of_eos hp he h, fun s i hp he _ hi => ?_⟩
  have hinit : lazyInit s = s := lazyInit_of_initialised (by simp [hp])
  obtain rfl | hw := hi
  · exact ⟨_, exec_readText (by simp [hp]), by rw [hinit, if_pos he]; rfl⟩
  · obtain ⟨w, hw⟩ := Option.isSome_iff_exists.1 hw
    obtain ⟨r, hr, hex⟩ := exec_read hw (s := s) (by simp [hp])
    rw [hinit] at hr
    exact ⟨_, hex, by rw [hr.atEnd he]; rfl⟩

/-- Settles O50: PHASE and EOS by the kind of step, and CNT by the register invariant (O51). -/
theorem phaseAndEosOnlyMoveForward : Obligations.PhaseAndEosOnlyMoveForward := by
  intro s t hs h
  refine ⟨?phase, fun hp he => ?eos, fun hp he hc => ?cnt⟩
  case eos =>
    obtain ⟨-, -, -, heos⟩ := step_registers_of_eos hp he h
    exact heos
  case phase =>
    cases step_stepTo h with
    | idle => exact .inl rfl
    | close _ hp => exact .inr (.inr ⟨hp, rfl⟩)
    | closeAgain => exact .inl rfl
    | invalid => exact .inl rfl
    | command _ hp hd =>
      have ht := hd.phase_eq.trans (lazyInit_phase_opened (s := s.takeWord) hp)
      cases hph : s.phase with
      | unopened => exact .inr (.inl ⟨rfl, ht⟩)
      | opened => exact .inl ht
      | closed => exact absurd hph hp
    | turn _ hd => exact .inl hd.phase_eq
  case cnt =>
    have hok : t.CursorOk := (stepKeepsTheRegistersLegal s t hs h).1 hp
    have := hok.of_live he
    simp [hc] at this

/-- Settles O4: outside UNOPENED by R27, and in UNOPENED by the reset values. -/
theorem bitsRemainingReadsCntAndEos : Obligations.BitsRemainingReadsCntAndEos := by
  intro s hs
  obtain ⟨hinit, hreset, -⟩ := hs
  refine ⟨fun he => ⟨by simp [State.bitsRemaining, he], ?_⟩,
    fun he => by simp [State.bitsRemaining, he], ?_, fun hp he hc => ?_⟩
  · by_cases hp : s.phase = .unopened
    · obtain ⟨-, hc, -⟩ := hreset hp
      exact hc
    · obtain ⟨-, hc, -⟩ | ⟨hlive, -⟩ := hinit hp
      · exact hc
      · simp [he] at hlive
  · by_cases hp : s.phase = .unopened
    · obtain ⟨-, hc, -⟩ := hreset hp
      simp [hc]
    · obtain ⟨-, hc, -⟩ | ⟨-, -, hle⟩ := hinit hp
      · simp [hc]
      · exact hle
  · have := State.CursorOk.of_live (hinit hp) he
    simp [hc] at this

/-- Settles O5: on a byte CNT is `8 − POS mod 8`. -/
theorem alignedIsByteBoundary : Obligations.AlignedIsByteBoundary := by
  intro s hs hp
  cases he : s.eos with
  | true => simp [State.aligned, he]
  | false =>
    obtain ⟨v, -, -, hc⟩ := (hs.opened hp).live he
    have h8 : s.cnt = 8#4 ↔ s.cnt.toNat = 8 := by
      rw [← BitVec.toNat_inj]
      rfl
    simp [State.aligned, he, h8, hc]
    omega

end Sys2Proof.Machine
end

section
/-! Reset (spec/70_reset_and_hazards.md R170 to R172): in UNOPENED with nothing taken and no beat
produced, every invariant holds. -/

namespace Sys2Proof.Machine

/-- Every invariant of the model. -/
def State.Invariant (s : State) : Prop :=
  s.Coherent ∧ s.RegistersLegal ∧ s.OneItemAhead ∧ s.BeatsInStep

/-- The reset values satisfy every invariant, whatever the source and the words to come. -/
theorem invariant_of_reset {s : State} (hp : s.phase = .unopened) (hb : s.buf = 0x00#8)
    (hc : s.cnt = 0#4) (he : s.eos = false) (hclose : s.srcClose = false) (hi : s.inText = false)
    (ht : s.taken = 0) (hbeats : s.beats = []) : s.Invariant := by
  refine ⟨⟨?_, fun _ => ⟨ht, he, hc, hb⟩, ?_, ?_⟩, ⟨?_, fun _ => ⟨he, hc, hb⟩, ?_⟩,
    ⟨fun _ => ht, ?_, ?_, ?_⟩, ?_⟩
  all_goals simp [State.BeatsInStep, *]

/-- Settles O3: the start and the reset state hold the reset values. -/
theorem startIsCoherentAndInStep : Obligations.StartIsCoherentAndInStep := fun src cmds => by
  obtain ⟨hcoherent, hlegal, hahead, hbeats⟩ : (State.start src cmds).Invariant :=
    invariant_of_reset rfl rfl rfl rfl rfl rfl rfl rfl
  have hreset : State.reset.Invariant := invariant_of_reset rfl rfl rfl rfl rfl rfl rfl rfl
  exact ⟨hcoherent, hlegal, hahead, hbeats, hreset⟩

/-- The responses are those of the beats before the last reset and of the beats since. -/
theorem responses_eq (s : State) :
    s.responses = s.past.flatMap (gather []) ++ gather [] s.beats := by
  simp [State.responses]

theorem applyReset_item (s : State) (k : Nat) : s.applyReset.item k = s.item (s.taken + k) := by
  simp [State.item, State.applyReset, Nat.add_assoc]

/-- Settles O2: reset writes the reset values and moves the record of beats into the past. -/
theorem resetAbandonsAndDoesNotRewind : Obligations.ResetAbandonsAndDoesNotRewind := by
  intro s
  have hinv : s.applyReset.Invariant := invariant_of_reset rfl rfl rfl rfl rfl rfl rfl rfl
  have hpast : s.applyReset.past.flatMap (gather []) = s.responses := by
    simp [State.applyReset, State.responses]
  refine ⟨rfl, rfl, rfl, rfl, rfl, rfl, rfl, rfl, applyReset_item s, rfl, rfl, rfl, ?_,
    fun t ht => ?_, hinv⟩
  · rw [responses_eq, hpast]
    exact List.append_nil _
  · rw [responses_eq, ht, hpast]

end Sys2Proof.Machine
end

section
/-! The beats (spec/30_encoding.md R60, R68, R69). -/

namespace Sys2Proof.Machine

/-- Settles O7, by the three fields of the concatenation. -/
theorem statusCodesAndBeatLayout : Obligations.StatusCodesAndBeatLayout := by
  refine ⟨rfl, rfl, rfl, rfl, fun st => by cases st <;> rfl, fun b => ⟨?_, ?_, ?_⟩⟩ <;> ext i hi <;>
    simp only [Beat.bits, BitVec.getElem_extractLsb', BitVec.getLsbD_append]
  · simp [show ¬ 65 + i < 64 by omega, show ¬ 65 + i - 64 < 1 by omega,
      show 65 + i - 64 - 1 = i by omega, BitVec.getLsbD_eq_getElem hi]
  · obtain rfl : i = 0 := by omega
    simp
  · simp [hi]

/-- The last beat of the record is the one added last. -/
theorem beatsInStep_of_append {t : State} {l : List Beat} {b : Beat} (hb : t.beats = l ++ [b])
    (hi : t.inText = !b.last) : t.BeatsInStep := by
  simp [State.BeatsInStep, hb, hi]

/-- Settles O53: a step adds no beat and changes nothing, or adds one that tells whether READ_TEXT
runs on. -/
theorem stepKeepsTheBeatsInStep : Obligations.StepKeepsTheBeatsInStep := by
  intro s t hs h
  cases step_stepTo h with
  | idle => exact hs
  | close hi => exact beatsInStep_of_append (State.respond_beats ..) hi
  | closeAgain hi => exact beatsInStep_of_append (State.respond_beats ..) hi
  | invalid hi => exact beatsInStep_of_append (raiseError_beats ..) hi
  | command _ _ hd => exact beatsInStep_of_append hd.beats_eq hd.inText_eq
  | turn _ hd => exact beatsInStep_of_append hd.beats_eq hd.inText_eq

/-- Settles O45, by the kind of step. -/
theorem errorsCarryNoData : Obligations.ErrorsCarryNoData := by
  intro s t h
  cases step_stepTo h with
  | idle => exact .inl rfl
  | close => exact .inr ⟨_, State.respond_beats .., by simp, by simp⟩
  | closeAgain => exact .inr ⟨_, State.respond_beats .., by simp, by simp⟩
  | invalid => exact .inr ⟨_, raiseError_beats .., by simp, by simp⟩
  | command _ _ hd hl =>
    exact .inr ⟨_, hd.beats_eq.trans (by rw [lazyInit_beats]; rfl), hd.error, fun _ => hl⟩
  | turn hi hd => exact .inr ⟨_, hd.beats_eq, hd.error, fun hf => by simp [hi] at hf⟩

/-- Settles O13, by the dispatch of the step. -/
theorem stepExecutesTheDecodedCommand : Obligations.StepExecutesTheDecodedCommand :=
  fun _ _ _ _ => step_of_decode_ok

/-- Settles O15: the step is one turn, and a turn only moves the cursor and adds a beat. -/
theorem runningTextTakesNoCommand : Obligations.RunningTextTakesNoCommand := by
  intro s hi
  obtain ⟨b, hb⟩ := textBeat_delivers s
  obtain ⟨hbeats, hpast, hcmds, hsrc, horigin, hclose, htaken⟩ := hb.answered
  exact ⟨textBeat s, by simp [step, hi], hcmds, hb.phase_eq, hsrc, hpast, horigin, hclose, htaken,
    b, hbeats, hb.inText_eq⟩

/-- Settles O16: there is neither a turn to take nor a word. -/
theorem idleBlockStaysAsItIs : Obligations.IdleBlockStaysAsItIs := fun s ⟨hi, hc⟩ => by
  simp [step, hi, nextCommand, hc]

end Sys2Proof.Machine
end

section
/-! What a command leaves unchanged (spec/20_memory.md R47, spec/60_exceptions.md R157, R158), and
how far it moves the cursor: items taken and bits consumed (spec/10_state.md R24, R31). -/

namespace Sys2Proof.Machine

theorem taken_le_lazyInit (s : State) : s.taken ≤ (lazyInit s).taken := by
  unfold lazyInit
  split <;> simp

/-- The frame of an answer given after LazyInit and cursor moves. -/
theorem answered_of_run {s u : State} (hu : CursorRun (lazyInit s) u) (b : Beat) (running : Bool) :
    Answered s ((u.emit b).withText running) b := by
  obtain ⟨-, hclose, -, hsrc, horigin, hcmds, hbeats, hpast, htaken⟩ := hu.sameButCursor
  exact ⟨by simp [hbeats], by simp [hpast], by simp [hcmds], by simp [hsrc], by simp [horigin],
    by simp [hclose], (taken_le_lazyInit s).trans htaken⟩

/-- Without an item taken, BUF and EOS stay (R21, R25). -/
theorem CursorRun.buf_eos_of_taken {s t : State} (h : CursorRun s t) (ht : t.taken = s.taken) :
    t.buf = s.buf ∧ t.eos = s.eos := by
  have taken_ne {t : State} (h : CursorRun s t) : t.taken + 1 ≠ s.taken := by
    obtain ⟨-, -, -, -, -, -, -, -, hle⟩ := h.sameButCursor
    omega
  induction h with
  | refl => exact ⟨rfl, rfl⟩
  | acc _ _ ih => exact ih ht
  | count _ _ _ ih => exact ih ht
  | fill h => exact absurd ((refill_taken _).symm.trans ht) (taken_ne h)
  | cross h => exact absurd ((refill_taken _).symm.trans ht) (taken_ne h)

/-- Without an item taken, BUF, EOS and PHASE stay, LazyInit included. -/
theorem registers_of_taken {s u : State} (hu : CursorRun (lazyInit s) u) (ht : u.taken = s.taken) :
    u.buf = s.buf ∧ u.eos = s.eos ∧ u.phase = s.phase := by
  obtain ⟨-, -, -, -, -, -, -, -, hle⟩ := hu.sameButCursor
  by_cases hun : s.phase = .unopened
  · have : (lazyInit s).taken = s.taken + 1 := by
      rw [lazyInit_of_unopened hun]; exact refill_taken s
    omega
  · rw [lazyInit_of_initialised hun] at hu
    exact ⟨(hu.buf_eos_of_taken ht).1, (hu.buf_eos_of_taken ht).2, hu.sameButCursor.phase_eq⟩

/-- A command other than CLOSE changes nothing, or answers after LazyInit and cursor moves; only
READ_TEXT may stay running, and only reads of a fixed width write ACC. -/
theorem exec_run {i : Instr} {s t : State} (hne : i ≠ .close) (h : exec i s = .next t) :
    s.phase ≠ .closed ∧ (t = raiseError .invalid s ∨
      ∃ u b running, CursorRun (lazyInit s) u ∧ t = (u.emit b).withText running ∧
        (i ≠ .readText → running = s.inText) ∧ (readWidth i = none → u.acc = s.acc)) := by
  have respond {u : State} (hu : CursorRun (lazyInit s) u) (st : Status) (d : Data) :
      u.respond st d = (u.emit ⟨st, true, d⟩).withText s.inText :=
    (State.withText_eq_self (s := u.respond st d)
      (hu.sameButCursor.inText_eq.trans (lazyInit_inText s))).symm
  have acc_eq : (lazyInit s).acc = s.acc := lazyInit_acc s
  obtain ⟨rfl, -⟩ | ⟨rfl, -⟩ | ⟨hp, -, rfl⟩ | ⟨hp, -, rfl⟩ | ⟨hp, -, -, rfl⟩ |
    ⟨hp, rfl, -, rfl⟩ | ⟨hp, w, r, hw, hr, rfl⟩ := exec_cases h
  · exact absurd rfl hne
  · exact absurd rfl hne
  · exact ⟨hp, .inl rfl⟩
  · exact ⟨hp, .inr ⟨_, _, _, .refl, respond .refl .., fun _ => rfl, fun _ => acc_eq⟩⟩
  · exact ⟨hp, .inr ⟨_, _, _, .refl, respond .refl .., fun _ => rfl, fun _ => acc_eq⟩⟩
  · have hacc := (byte1_acc (lazyInit s)).trans acc_eq
    obtain ⟨b, ⟨u, hu, ht⟩, -, -⟩ := textBeat_delivers (lazyInit s)
    refine ⟨hp, .inr ⟨u, b, _, hu, ht, fun hn => absurd rfl hn, fun _ => ?_⟩⟩
    obtain ⟨x, v, hv, hb⟩ | ⟨v, hv, hb⟩ := textBeat_cases (lazyInit s) <;> rw [hv] at hacc
    · exact (congrArg State.acc (ht.symm.trans hb)).trans hacc
    · exact (congrArg State.acc (ht.symm.trans hb)).trans hacc
  · obtain ⟨v, -, hf⟩ | ⟨-, hf⟩ := finish_cases r <;> rw [hf]
    · exact ⟨hp, .inr ⟨_, _, _, hr.cursorRun, respond hr.cursorRun .., fun _ => rfl, by simp [hw]⟩⟩
    · exact ⟨hp, .inr ⟨_, _, _, hr.cursorRun, respond hr.cursorRun .., fun _ => rfl, by simp [hw]⟩⟩

/-- Settles O44: nothing but one beat, or LazyInit, cursor moves and one beat. -/
theorem commandsLeaveTheRestUnchanged : Obligations.CommandsLeaveTheRestUnchanged := by
  intro i s t hne h
  obtain ⟨-, rfl | ⟨u, b, running, hu, rfl, hrun, hacc⟩⟩ := exec_run hne h
  · exact ⟨⟨_, rfl, rfl, rfl, rfl, rfl, rfl, le_rfl⟩, .inl rfl, fun _ => rfl, fun _ => rfl,
      fun _ => ⟨rfl, rfl, rfl⟩⟩
  · refine ⟨⟨b, answered_of_run hu b running⟩, ?_, hrun, hacc,
      registers_of_taken (u := u) hu⟩
    have hph := hu.sameButCursor.phase_eq.trans (lazyInit_phase s)
    by_cases hun : s.phase = .unopened
    · exact .inr ⟨hun, hph.trans (if_pos hun)⟩
    · exact .inl (hph.trans (if_neg hun))

/-- A read that has a next state has finished its loop. -/
theorem exec_read_next {i : Instr} {w : Nat} {s t : State} (hw : readWidth i = some w)
    (h : exec i s = .next t) :
    s.phase ≠ .closed ∧ ∃ r, ReadLoop w (lazyInit s) r ∧ t = finish r := by
  by_cases hp : s.phase = .closed
  · rw [exec_closed (by rintro rfl; cases hw) hp] at h
    cases h
  · obtain ⟨r, hr, he⟩ := exec_read hw hp
    exact ⟨hp, r, hr, Host.Outcome.next.inj (h.symm.trans he)⟩

/-- A read that answers OK delivers the value of its loop. -/
theorem exec_read_ok {i : Instr} {w : Nat} {s t : State} {b : Beat} (hw : readWidth i = some w)
    (h : exec i s = .next t) (hb : t.beats = s.beats ++ [b]) (hok : b.status = .ok) :
    ∃ v u, ReadLoop w (lazyInit s) (.got v, u) ∧ t = u.respond .ok v ∧ b = ⟨.ok, true, v⟩ := by
  obtain ⟨-, ⟨g, u⟩, hr, rfl⟩ := exec_read_next hw h
  have hbeats : u.beats = s.beats := by
    obtain ⟨-, -, -, -, -, -, hbeats, -⟩ := hr.sameButCursor
    exact hbeats.trans (lazyInit_beats s)
  cases g with
  | got v =>
    obtain rfl : ⟨.ok, true, v⟩ = b := by simpa [finish, hbeats] using hb
    exact ⟨v, u, hr, rfl, rfl⟩
  | exhausted =>
    obtain rfl : ⟨.exhaustedInput, true, 0⟩ = b := by
      simpa [finish, hbeats, ErrorKind.status] using hb
    cases hok

theorem shiftBits_lt {k a : Nat} {s t : State} {v : Data} (hs : s.acc.toNat < 2 ^ a)
    (hk : a + k ≤ 64) (h : shiftBits k s = (.got v, t)) : v.toNat < 2 ^ (a + k) := by
  induction k generalizing s a with
  | zero =>
    obtain ⟨hv, -⟩ := Prod.mk.inj h
    exact Got.got.inj hv ▸ hs
  | succ k ih =>
    have hacc := bit1_acc s
    cases hb : bit1 s with
    | mk r u =>
      rw [hb] at hacc
      cases r with
      | got b =>
        have hroom : s.acc.toNat < 2 ^ 63 :=
          hs.trans_le (Nat.pow_le_pow_right (by omega) (by omega))
        have hnew : (shiftInBit u.acc b).toNat < 2 ^ (a + 1) := by
          rw [hacc, shiftInBit_toNat _ _ hroom, pow_succ]
          have := Bool.toNat_le b
          omega
        rw [Nat.add_succ, ← Nat.succ_add]
        exact ih hnew (by omega) (shiftBits_got hb k ▸ h)
      | exhausted => simp [shiftBits_exhausted hb] at h

theorem shiftBytes_lt {k a : Nat} {s t : State} {v : Data} (hs : s.acc.toNat < 2 ^ a)
    (hk : a + 8 * k ≤ 64) (h : shiftBytes k s = (.got v, t)) : v.toNat < 2 ^ (a + 8 * k) := by
  induction k generalizing s a with
  | zero =>
    obtain ⟨hv, -⟩ := Prod.mk.inj h
    exact Got.got.inj hv ▸ hs
  | succ k ih =>
    have hacc := byte1_acc s
    cases hb : byte1 s with
    | mk r u =>
      rw [hb] at hacc
      cases r with
      | got x =>
        have hroom : s.acc.toNat < 2 ^ 56 :=
          hs.trans_le (Nat.pow_le_pow_right (by omega) (by omega))
        have hnew : (shiftInByte u.acc x).toNat < 2 ^ (a + 8) := by
          rw [hacc, shiftInByte_toNat _ _ hroom, pow_add]
          have := x.isLt
          omega
        rw [show a + 8 * (k + 1) = a + 8 + 8 * k by omega]
        exact ih hnew (by omega) (shiftBytes_got hb k ▸ h)
      | exhausted => simp [shiftBytes_exhausted hb] at h

theorem ReadLoop.lt {w : Nat} {s t : State} {v : Data} (h : ReadLoop w s (.got v, t)) :
    v.toNat < 2 ^ w := by
  have hzero : (0 : Data).toNat < 2 ^ 0 := by decide
  obtain ⟨-, h2, hr⟩ | ⟨k, rfl, -, h2, hr⟩ := h
  · have := shiftBits_lt (s := { s with acc := 0 }) hzero (by omega) hr.symm
    rwa [Nat.zero_add] at this
  · have := shiftBytes_lt (s := { s with acc := 0 }) hzero (by omega) hr.symm
    rwa [Nat.zero_add] at this

/-- Settles O33: the loop starts from ACC = 0 and shifts in `w` bits. -/
theorem resultsFitTheirWidth : Obligations.ResultsFitTheirWidth := by
  intro i w s t b hw h hb hok
  obtain ⟨v, u, hr, -, rfl⟩ := exec_read_ok hw h hb hok
  exact hr.lt

/-- From `s` to `t` the cursor consumed `w` bits: `8 · NB − CNT` grew by `w` (R24). -/
def Consumed (s t : State) (w : Nat) : Prop :=
  8 * t.byteCount + s.cnt.toNat = 8 * s.byteCount + t.cnt.toNat + w

theorem Consumed.trans {s t u : State} {a b : Nat} (h : Consumed s t a) (k : Consumed t u b) :
    Consumed s u (a + b) := by
  unfold Consumed at *
  omega

theorem byteCount_of_live {s : State} (he : s.eos = false) : s.byteCount = s.taken := by
  simp [State.byteCount, he]

theorem byteCount_of_ended {s : State} (he : s.eos = true) : s.byteCount = s.taken - 1 := by
  simp [State.byteCount, he]

/-- Refill consumes what is left of BUF: NB and CNT after it (R80). -/
theorem refill_consumes (s : State) :
    8 * (refill s).byteCount = 8 * s.taken + (refill s).cnt.toNat := by
  obtain ⟨⟨he, hc, -⟩, -⟩ | ⟨v, -, he, hc, -⟩ := refill_cases s
  · simp [byteCount_of_ended he, hc]
  · simp [byteCount_of_live he, hc]
    omega

theorem bit1_consumed {s t : State} {b : Bool} (hs : s.CursorOk) (h : bit1 s = (.got b, t)) :
    Consumed s t 1 := by
  obtain ⟨-, k⟩ | ⟨he, hne, k⟩ | ⟨he, h1, k⟩ := bit1_cases s <;>
    obtain ⟨hg, rfl⟩ := Prod.mk.inj (k.symm.trans h)
  · cases hg
  · have hcnt := hs.of_live he
    have h1 : s.cnt.toNat ≠ 1 := fun h => hne (BitVec.eq_of_toNat_eq h)
    have hsub : (s.cnt - 1).toNat = s.cnt.toNat - 1 := by bv_omega
    simp only [Consumed, State.byteCount, hsub]
    omega
  · have := refill_consumes s
    rw [refill_withCnt]
    simp only [Consumed, byteCount_of_live he, h1]
    simp
    omega

theorem byte1_consumed {s t : State} {x : Byte} (h : byte1 s = (.got x, t)) : Consumed s t 8 := by
  have hfill := refill_consumes s
  obtain ⟨-, k⟩ | ⟨he, h8, k⟩ | ⟨-, -, -, k⟩ | ⟨he, -, hr, k⟩ := byte1_cases s <;>
    obtain ⟨hg, rfl⟩ := Prod.mk.inj (k.symm.trans h)
  · cases hg
  · simp only [Consumed, byteCount_of_live he, h8]
    simp
    omega
  · cases hg
  · have hlive : State.byteCount { refill s with cnt := s.cnt } = s.taken + 1 := by
      simp [State.byteCount, hr]
    simp only [Consumed, hlive, byteCount_of_live he]
    omega

theorem shiftBits_consumed {k : Nat} {s t : State} {v : Data} (hs : s.CursorOk)
    (h : shiftBits k s = (.got v, t)) : Consumed s t k := by
  induction k generalizing s with
  | zero =>
    obtain ⟨-, rfl⟩ := Prod.mk.inj h
    rfl
  | succ k ih =>
    have hrun := (CursorRun.refl (s := s)).bit1
    cases hb : bit1 s with
    | mk r u =>
      rw [hb] at hrun
      cases r with
      | got b =>
        rw [Nat.add_comm]
        exact (bit1_consumed hs hb).trans
          (ih (s := { u with acc := shiftInBit u.acc b })
            (hrun.cursorOk hs) (shiftBits_got hb k ▸ h))
      | exhausted => simp [shiftBits_exhausted hb] at h

theorem shiftBytes_consumed {k : Nat} {s t : State} {v : Data}
    (h : shiftBytes k s = (.got v, t)) : Consumed s t (8 * k) := by
  induction k generalizing s with
  | zero =>
    obtain ⟨-, rfl⟩ := Prod.mk.inj h
    rfl
  | succ k ih =>
    cases hb : byte1 s with
    | mk r u =>
      cases r with
      | got x =>
        rw [Nat.mul_succ, Nat.add_comm]
        exact (byte1_consumed hb).trans
          (ih (s := { u with acc := shiftInByte u.acc x }) (shiftBytes_got hb k ▸ h))
      | exhausted => simp [shiftBytes_exhausted hb] at h

theorem ReadLoop.consumed {w : Nat} {s t : State} {v : Data} (h : ReadLoop w s (.got v, t))
    (hs : s.CursorOk) : Consumed s t w := by
  obtain ⟨-, -, hr⟩ | ⟨k, rfl, -, -, hr⟩ := h
  · exact shiftBits_consumed (s := { s with acc := 0 }) hs hr.symm
  · exact shiftBytes_consumed (s := { s with acc := 0 }) hr.symm

/-- Settles O34: the read consumes `w` bits and ends with 0 bits of an `End` or 1 to 8 of a byte. -/
theorem successfulReadsTakeTheStatedItems : Obligations.SuccessfulReadsTakeTheStatedItems := by
  intro i w s t b hw hs hp he h hb hok
  obtain ⟨v, u, hr, rfl, -⟩ := exec_read_ok hw h hb hok
  rw [lazyInit_of_initialised (by simp [hp])] at hr
  have hok : s.CursorOk := hs.1 (by simp [hp])
  have hcnt := hok.of_live he
  have hcons := hr.consumed hok
  rw [Consumed, byteCount_of_live he] at hcons
  have hrun : CursorRun s u := hr.cursorRun
  obtain ⟨-, -, -, -, -, -, -, -, hle⟩ := hrun.sameButCursor
  rw [State.respond_taken]
  obtain ⟨hend, hzero, -⟩ | ⟨hlive, h1, h8⟩ := hrun.cursorOk hok
  · have hmore : u.taken ≠ s.taken := fun heq => by
      have := (hrun.buf_eos_of_taken heq).2
      simp [hend, he] at this
    rw [byteCount_of_ended hend, hzero, BitVec.toNat_ofNat] at hcons
    omega
  · rw [byteCount_of_live hlive] at hcons
    omega

/-- The law of the item count of an initialised block, item by item: bytes, then the item taken
last, which EOS tells (R25, R31). -/
structure State.Counted (s : State) : Prop where
  taken : 1 ≤ s.taken
  bytes : ∀ k < s.taken - 1, isByte (s.item k) = true
  ended : s.eos = true ↔ s.item (s.taken - 1) = .endOfStream

theorem State.Counted.isByte_of_live {s : State} (h : s.Counted) (he : s.eos = false) :
    ∀ k < s.taken, isByte (s.item k) = true := by
  intro k hk
  by_cases hlast : k = s.taken - 1
  · subst hlast
    cases hi : s.item (s.taken - 1) with
    | byte v => rfl
    | endOfStream => simp [h.ended.2 hi] at he
  · exact h.bytes k (by omega)

/-- Refill counts one item more (R80). -/
theorem refill_counted {s : State} (h : ∀ k < s.taken, isByte (s.item k) = true) :
    (refill s).Counted := by
  refine ⟨by simp, fun k hk => ?_, ?_⟩
  · rw [refill_item]
    exact h k (by simpa using hk)
  · rw [refill_item, refill_taken, Nat.add_sub_cancel]
    obtain ⟨⟨he, -⟩, hn⟩ | ⟨v, hn, he, -⟩ := refill_cases s
    · exact ⟨fun _ => hn, fun _ => he⟩
    · rw [State.nextItem] at hn
      simp [he, hn]

theorem CursorRun.counted {s t : State} (h : CursorRun s t) (hs : s.Counted) : t.Counted := by
  induction h with
  | refl => exact hs
  | acc _ _ ih => exact ⟨ih.taken, ih.bytes, ih.ended⟩
  | count _ _ _ ih => exact ⟨ih.taken, ih.bytes, ih.ended⟩
  | fill _ he ih => exact refill_counted (ih.isByte_of_live he)
  | cross _ he _ _ ih =>
    have hfill := refill_counted (ih.isByte_of_live he)
    exact ⟨hfill.taken, hfill.bytes, hfill.ended⟩

theorem State.Counted.cnt_le {s : State} (h : s.Counted) (hc : s.CursorOk) :
    s.cnt.toNat ≤ 8 * s.byteCount := by
  have := h.taken
  obtain ⟨-, hzero, -⟩ | ⟨he, -, h8⟩ := hc
  · simp [hzero]
  · rw [byteCount_of_live he]
    omega

theorem State.Counted.taken_eq {s : State} (h : s.Counted) (hc : s.CursorOk) :
    s.taken = s.pos / 8 + 1 := by
  have := h.taken
  obtain ⟨he, hzero, -⟩ | ⟨he, h1, h8⟩ := hc
  · simp [State.pos, byteCount_of_ended he, hzero]
    omega
  · rw [State.pos, byteCount_of_live he]
    omega

theorem State.Counted.oneItemAhead {s : State} (h : s.Counted) (hc : s.CursorOk)
    (hp : s.phase ≠ .unopened) : s.OneItemAhead where
  unopened hun := absurd hun hp
  finite _ n hn := by
    have hle : s.taken - 1 ≤ n := by
      by_contra hlt
      have := h.bytes n (by omega)
      simp [hn.1, isByte] at this
    have := h.taken_eq hc
    omega
  goesOn _ _ := h.taken_eq hc
  ended _ := h.ended

theorem State.OneItemAhead.counted {s : State} (h : s.OneItemAhead) (hp : s.phase ≠ .unopened) :
    s.Counted := by
  obtain hall | ⟨n, hn, -⟩ := bitsRemain_or_short s (8 * (s.pos / 8)) 8
  · have ht := h.goesOn hp fun k hk => hall k (by omega)
    exact ⟨by omega, fun k hk => hall k (by omega), h.ended hp⟩
  · have ht := h.finite hp n hn
    exact ⟨by omega, fun k hk => hn.2 k (by omega), h.ended hp⟩

theorem State.OneItemAhead.takeWord {s : State} (h : s.OneItemAhead) : s.takeWord.OneItemAhead :=
  ⟨h.unopened, h.finite, h.goesOn, h.ended⟩

/-- LazyInit takes the first item and consumes nothing. -/
theorem State.OneItemAhead.lazyInit {s : State} (h : s.OneItemAhead) :
    (lazyInit s).Counted ∧ (lazyInit s).pos = s.pos := by
  by_cases hun : s.phase = .unopened
  · have ht := h.unopened hun
    have hfill := refill_counted (s := s) fun k hk => by omega
    have hcons := refill_consumes s
    rw [lazyInit_of_unopened hun]
    refine ⟨⟨hfill.taken, hfill.bytes, hfill.ended⟩, ?_⟩
    have hpos : (refill s).pos = 0 := by
      rw [State.pos]
      omega
    exact hpos.trans (pos_of_taken_zero ht).symm
  · rw [lazyInit_of_initialised hun]
    exact ⟨h.counted hun, rfl⟩

theorem Delivers.oneItemAhead {s t : State} {b : Beat} (h : Delivers s t b) (hs : s.Counted)
    (hc : s.CursorOk) (hp : s.phase ≠ .unopened) : t.OneItemAhead := by
  have hpt : t.phase ≠ .unopened := h.phase_eq ▸ hp
  obtain ⟨u, hu, rfl⟩ := h.run
  have hcount := hu.counted hs
  exact State.Counted.oneItemAhead ⟨hcount.taken, hcount.bytes, hcount.ended⟩ (hu.cursorOk hc) hpt

theorem step_keeps_oneItemAhead {s t : State} (hs : s.RegistersLegal) (h1 : s.OneItemAhead)
    (h : step s = .next t) : t.OneItemAhead := by
  have hw := h1.takeWord
  cases step_stepTo h with
  | idle => exact h1
  | close _ hp =>
    have hun : s.phase ≠ .unopened := by simp [hp]
    exact ⟨by simp, fun _ => h1.finite hun, fun _ => h1.goesOn hun, fun _ => h1.ended hun⟩
  | closeAgain => exact ⟨hw.unopened, hw.finite, hw.goesOn, hw.ended⟩
  | invalid => exact ⟨hw.unopened, hw.finite, hw.goesOn, hw.ended⟩
  | command _ _ hd =>
    exact hd.oneItemAhead hw.lazyInit.1 hs.takeWord.lazyInit_cursorOk
      (lazyInit_phase_ne_unopened _)
  | turn hi hd =>
    have hp : s.phase ≠ .unopened := by simp [(hs.text hi).1]
    exact hd.oneItemAhead (h1.counted hp) (hs.text hi).2 hp

/-- A read of `w` bits that answers OK moves POS by `w` (R24, R132). -/
theorem exec_read_pos {i : Instr} {w : Nat} {s t : State} {v : Data} (hs : s.RegistersLegal)
    (h1 : s.OneItemAhead) (hw : readWidth i = some w) (h : exec i s = .next t)
    (hb : t.beats = s.beats ++ [⟨.ok, true, v⟩]) : t.pos = s.pos + w := by
  obtain ⟨v, u, hr, rfl, -⟩ := exec_read_ok hw h hb rfl
  obtain ⟨hcount, hpos⟩ := h1.lazyInit
  have hok := hs.lazyInit_cursorOk
  have hcons := hr.consumed hok
  have hle := hcount.cnt_le hok
  change u.pos = _
  rw [Consumed] at hcons
  rw [← hpos, State.pos, State.pos]
  omega

/-- Settles O6: the law item by item is kept by every Refill, and POS grows by the bits consumed. -/
theorem itemsTakenIsOneAheadOfDelivered : Obligations.ItemsTakenIsOneAheadOfDelivered := by
  intro s t hs h1 h
  refine ⟨step_keeps_oneItemAhead hs h1 h, fun i w rest v hi hc hw hb => ?_⟩
  rw [step_of_decode_ok hi hc (decode_encode i)] at h
  exact exec_read_pos (s := { s with cmds := rest }) hs
    ⟨h1.unopened, h1.finite, h1.goesOn, h1.ended⟩ hw h hb

end Sys2Proof.Machine
end

section
/-! The reads as loops of bit steps and byte steps (spec/41_query_and_bit_reads.md R94,
spec/42_byte_and_char_reads.md R102 to R104, spec/43_composite_reads.md R110 to R116). -/

namespace Sys2Proof.Machine

theorem refill_withAcc (s : State) (a : Data) :
    refill { s with acc := a } = { refill s with acc := a } := refill_withCntAcc s s.cnt a

/-- `Byte1()` neither reads nor writes ACC (R28). -/
theorem byte1_withAcc (s : State) (a : Data) :
    byte1 { s with acc := a } = ((byte1 s).1, { (byte1 s).2 with acc := a }) := by
  simp only [byte1, refill_withAcc]
  split
  · rfl
  · split
    · rfl
    · split <;> rfl

/-- From ACC = 0 eight bit steps deliver the byte of the byte step (R102). -/
theorem shiftBits_eight_of_byte1 {s t : State} {x : Byte} (hs : s.CursorLegal) (h0 : s.acc = 0)
    (h : byte1 s = (.got x, t)) :
    shiftBits 8 s = (.got (byteData x), { t with acc := byteData x }) := by
  have hacc : t.acc = 0 := by
    have := byte1_acc s
    rwa [h, h0] at this
  rw [shiftBits_eight_of_got hs h, hacc]
  simp [shiftInByte, byteData]

/-- Settles O21: eight bit steps accumulate the byte, or raise where the byte step does (R102). -/
theorem byteStepIsEightBitSteps : Obligations.ByteStepIsEightBitSteps := by
  intro s hs hp
  have hcur : State.CursorLegal { s with acc := 0 } := by
    have := hs.lazyInit_cursorLegal
    rw [lazyInit_of_initialised (by simp [hp])] at this
    exact this.withAcc 0
  refine ⟨fun x t h => ?_, fun t h => ?_⟩
  · have hbyte : byte1 { s with acc := 0 } = (.got x, { t with acc := 0 }) := by
      rw [byte1_withAcc, h]
    exact ⟨_, shiftBits_eight_of_byte1 hcur rfl hbyte, rfl⟩
  · have hbyte : byte1 { s with acc := 0 } = (.exhausted, { t with acc := 0 }) := by
      rw [byte1_withAcc, h]
    obtain ⟨a, ha⟩ := shiftBits_eight_of_exhausted hcur hbyte
    exact ⟨_, ha, rfl⟩

/-- A bit loop raises only with EOS = 1 (R157). -/
theorem shiftBits_exhausted_eos {k : Nat} {s t : State} (h : shiftBits k s = (.exhausted, t)) :
    t.eos = true := by
  induction k generalizing s with
  | zero => simp [shiftBits_zero] at h
  | succ k ih =>
    cases hb : bit1 s with
    | mk r u =>
      cases r with
      | got b => exact ih (shiftBits_got hb k ▸ h)
      | exhausted =>
        obtain rfl := (Prod.mk.inj ((shiftBits_exhausted hb k).symm.trans h)).2
        exact bit1_exhausted_eos hb

/-- A byte loop raises only with EOS = 1 (R157). -/
theorem shiftBytes_exhausted_eos {k : Nat} {s t : State} (h : shiftBytes k s = (.exhausted, t)) :
    t.eos = true := by
  induction k generalizing s with
  | zero => simp [shiftBytes_zero] at h
  | succ k ih =>
    cases hb : byte1 s with
    | mk r u =>
      cases r with
      | got b => exact ih (shiftBytes_got hb k ▸ h)
      | exhausted =>
        obtain rfl := (Prod.mk.inj ((shiftBytes_exhausted hb k).symm.trans h)).2
        exact byte1_exhausted_eos hb

/-- A byte loop that succeeds leaves its value in ACC. -/
theorem shiftBytes_got_acc {k : Nat} {s t : State} {v : Data} (h : shiftBytes k s = (.got v, t)) :
    t.acc = v := by
  induction k generalizing s with
  | zero =>
    obtain ⟨hv, rfl⟩ := Prod.mk.inj h
    exact Got.got.inj hv
  | succ k ih =>
    cases hb : byte1 s with
    | mk r u =>
      cases r with
      | got b => exact ih (shiftBytes_got hb k ▸ h)
      | exhausted => simp [shiftBytes_exhausted hb] at h

/-- The answer of a loop that succeeded after LazyInit, over the record as it was. -/
theorem finish_got {s t : State} {v : Data} (h : SameButCursor (lazyInit s) t) :
    finish (.got v, t) = { t with beats := s.beats ++ [⟨.ok, true, v⟩] } := by
  rw [finish, respond_eq, h.beats_append, lazyInit_beats]

/-- The answer of a loop that raised after LazyInit, over the record as it was. -/
theorem finish_exhausted {s t : State} (h : SameButCursor (lazyInit s) t) :
    finish (.exhausted, t) = { t with beats := s.beats ++ [⟨.exhaustedInput, true, 0⟩] } := by
  rw [finish, raiseError, respond_eq, h.beats_append, lazyInit_beats]
  rfl

/-- READ_BIT is READ_BITS 1 (R93; log entry 3). -/
theorem exec_readBit (s : State) : exec .readBit s = exec (.readBits 1) s := rfl

/-- Settles O25: READ_BITS finishes the bit loop of its width. -/
theorem bitReadsAccumulateBitSteps : Obligations.BitReadsAccumulateBitSteps := by
  intro s t hp
  have hex (w : BitVec 8) (h1 : 1 ≤ w.toNat) (h2 : w.toNat ≤ 32) :=
    exec_readBits (legalBitsWidth_iff.2 ⟨h1, h2⟩) hp
  have hsame (k : Nat) {g : Got Data} (h : shiftBits k { lazyInit s with acc := 0 } = (g, t)) :
      SameButCursor (lazyInit s) t := by
    have := (sameButCursor_acc (lazyInit s) 0).trans (shiftBits_sameButCursor k _)
    rwa [h] at this
  refine ⟨fun w v h1 h2 h => ⟨shiftBits_got_acc h, ?_⟩,
    fun w h1 h2 h => ⟨shiftBits_exhausted_eos h, ?_⟩, exec_readBit s⟩
  · rw [hex w h1 h2, readBitsOp, h, finish_got (hsame _ h)]
  · rw [hex w h1 h2, readBitsOp, h, finish_exhausted (hsame _ h)]

/-- The commands that read whole bytes, with their number (R103, R111 to R113, R115, R116). -/
theorem exec_byteRead {i : Instr} {k : Nat} (s : State)
    (h : (i, k) ∈ [(Instr.readByte, 1), (.readShort, 2), (.readInt, 4), (.readLong, 8),
      (.readFloat, 4), (.readDouble, 8)]) :
    exec i s = unlessClosed s fun s => readBytesOp k (lazyInit s) := by
  simp only [List.mem_cons, Prod.mk.injEq, List.not_mem_nil, or_false] at h
  obtain ⟨rfl, rfl⟩ | ⟨rfl, rfl⟩ | ⟨rfl, rfl⟩ | ⟨rfl, rfl⟩ | ⟨rfl, rfl⟩ | ⟨rfl, rfl⟩ := h <;> rfl

/-- Settles O26: each of the six finishes the byte loop of its length. -/
theorem byteReadsAccumulateByteSteps : Obligations.ByteReadsAccumulateByteSteps := by
  intro i k s t hi hp
  have hex : exec i s = .next (readBytesOp k (lazyInit s)) :=
    (exec_byteRead s hi).trans (unlessClosed_next hp _)
  have hsame {g : Got Data} (h : shiftBytes k { lazyInit s with acc := 0 } = (g, t)) :
      SameButCursor (lazyInit s) t := by
    have := (sameButCursor_acc (lazyInit s) 0).trans (shiftBytes_sameButCursor k _)
    rwa [h] at this
  refine ⟨fun v h => ⟨shiftBytes_got_acc h, ?_⟩, fun h => ⟨shiftBytes_exhausted_eos h, ?_⟩⟩
  · rw [hex, readBytesOp, h, finish_got (hsame h)]
  · rw [hex, readBytesOp, h, finish_exhausted (hsame h)]

/-- READ_CHAR of a legal width is READ_BYTE for width 8, else READ_BITS (R104). -/
theorem exec_readChar {s : State} {w : BitVec 8} (hl : legalCharWidth w = true) :
    exec (.readChar w) s =
      if w.toNat = 8 then exec .readByte s else exec (.readBits w) s := by
  obtain ⟨h1, h2⟩ := legalCharWidth_iff.1 hl
  have hb := legalBitsWidth_iff.2 ⟨h1, by omega⟩
  split
  · next h8 => simp [exec, execReadChar, execReadByte, hl, widthOf, h8]
  · next h8 => simp [exec, execReadChar, execReadBits, hl, hb, widthOf, h8]

/-- Settles O29: the one width with a path of its own is 8, and there the byte step is eight bit
steps. -/
theorem readCharIsReadBits : Obligations.ReadCharIsReadBits := by
  intro s w hs hp h1 h2
  rw [exec_readChar (legalCharWidth_iff.2 ⟨h1, h2⟩)]
  have hb := legalBitsWidth_iff.2 ⟨h1, by omega⟩
  split
  · next h8 =>
    obtain ⟨t, u, ht, hu, h⟩ := exec_readBits_agrees hs hp (k := 1) (i := .readByte) hb h8 rfl
    exact ⟨u, t, hu, ht, h.symm⟩
  · exact ⟨_, _, exec_readBits hb hp, exec_readBits hb hp, rfl⟩

end Sys2Proof.Machine
end

section
/-! The tape law (spec/45_sequencing_and_arithmetic.md R132, R133) and what follows from it for one
read and for reads in a row. -/

namespace Sys2Proof.Machine

/-- An answer given after LazyInit and cursor moves from an idle or a running block. -/
theorem answered_respond {s u : State} (hu : CursorRun (lazyInit s) u) (st : Status) (d : Data) :
    Answered s (u.respond st d) ⟨st, true, d⟩ := answered_of_run hu ⟨st, true, d⟩ u.inText

/-- The state a command leaves from the tape position `p` on: the phase, READ_TEXT and POS. -/
theorem opened_of_run {s u : State} {q : Nat} (hp : s.phase ≠ .closed)
    (hu : CursorRun (lazyInit s) u) (hat : u.AtTape q) :
    u.phase = .opened ∧ u.inText = s.inText ∧ u.pos = q ∧ u.AtTape q := by
  have hsc := hu.sameButCursor
  exact ⟨hsc.phase_eq.trans (lazyInit_phase_opened hp), hsc.inText_eq.trans (lazyInit_inText s),
    hat.pos_eq, hat⟩

theorem lazyInit_streamLength (s : State) (n : Nat) :
    (lazyInit s).StreamLength n ↔ s.StreamLength n := by
  simp [State.StreamLength]

/-- A read with its bits there (R132). -/
theorem exec_read_got {i : Instr} {w p : Nat} {s : State} (hw : readWidth i = some w)
    (hp : s.phase ≠ .closed) (hat : (lazyInit s).AtTape p)
    (hb : ∀ k < (p + w + 7) / 8, isByte (s.item k) = true) :
    ∃ u, CursorRun (lazyInit s) u ∧ u.AtTape (p + w) ∧
      exec i s = .next (u.respond .ok (BitVec.ofNat 64 (s.tapeField p w))) := by
  obtain ⟨r, hr, hex⟩ := exec_read hw hp
  obtain ⟨v, u, rfl, hat, rfl⟩ := hr.got hat fun k hk => by
    rw [lazyInit_item]
    exact hb k hk
  rw [State.tapeField_congr (lazyInit_item s)] at hex
  exact ⟨u, hr.cursorRun, hat, hex⟩

/-- A read that runs out of bits (R95, R132). -/
theorem exec_read_short {i : Instr} {w p n : Nat} {s : State} (hw : readWidth i = some w)
    (hp : s.phase ≠ .closed) (hat : (lazyInit s).AtTape p) (hn : s.StreamLength n)
    (hlt : 8 * n < p + w) :
    ∃ u, CursorRun (lazyInit s) u ∧ u.AtTape (8 * n) ∧
      exec i s = .next (raiseError .exhausted u) := by
  obtain ⟨r, hr, hex⟩ := exec_read hw hp
  have hn' := (lazyInit_streamLength s n).2 hn
  obtain ⟨u, rfl, hat⟩ := hr.short hat hn' (hat.le_length hn') hlt
  exact ⟨u, hr.cursorRun, hat, hex⟩

theorem lazyInit_of_opened {s : State} (hp : s.phase = .opened) : lazyInit s = s :=
  lazyInit_of_initialised (by simp [hp])

/-- A read in OPEN with its bits there. -/
theorem exec_read_got_opened {i : Instr} {w p : Nat} {s : State} (hw : readWidth i = some w)
    (hp : s.phase = .opened) (hat : s.AtTape p)
    (hb : ∀ k < (p + w + 7) / 8, isByte (s.item k) = true) :
    ∃ u, CursorRun s u ∧ u.AtTape (p + w) ∧
      exec i s = .next (u.respond .ok (BitVec.ofNat 64 (s.tapeField p w))) := by
  have hinit := lazyInit_of_opened hp
  have h := exec_read_got hw (by simp [hp]) (hinit.symm ▸ hat) hb
  rwa [hinit] at h

/-- A read in OPEN that runs out of bits. -/
theorem exec_read_short_opened {i : Instr} {w p n : Nat} {s : State} (hw : readWidth i = some w)
    (hp : s.phase = .opened) (hat : s.AtTape p) (hn : s.StreamLength n) (hlt : 8 * n < p + w) :
    ∃ u, CursorRun s u ∧ u.AtTape (8 * n) ∧ exec i s = .next (raiseError .exhausted u) := by
  have hinit := lazyInit_of_opened hp
  have h := exec_read_short hw (by simp [hp]) (hinit.symm ▸ hat) hn hlt
  rwa [hinit] at h

/-- The registers at the end of the tape (R157). -/
theorem State.AtTape.atEnd {s : State} {n : Nat} (h : s.AtTape (8 * n))
    (hn : s.item n = .endOfStream) : s.AtEnd := by
  have hdiv : 8 * n / 8 = n := Nat.mul_div_cancel_left n (by omega)
  obtain ⟨-, -, -, hend⟩ := h
  exact (hend (hdiv.symm ▸ hn)).2

theorem CursorRun.item {s u : State} (hu : CursorRun (lazyInit s) u) (k : Nat) :
    u.item k = s.item k := (hu.sameButCursor.item k).trans (lazyInit_item s k)

/-- Settles O22: the loop of the read delivers, or raises at the end of the tape. -/
theorem readsFollowTheTapeLaw : Obligations.ReadsFollowTheTapeLaw := by
  intro i w s hw hs hp
  refine ⟨fun hb => ?_, fun n hn hlt => ?_⟩
  · obtain ⟨u, hu, hat, hex⟩ := exec_read_got hw hp hs.lazyInit hb
    exact ⟨_, hex, answered_respond hu .., opened_of_run (u := u) hp hu hat⟩
  · obtain ⟨u, hu, hat, hex⟩ := exec_read_short hw hp hs.lazyInit hn hlt
    obtain ⟨hopen, htext, hpos, hat⟩ := opened_of_run hp hu hat
    exact ⟨_, hex, answered_respond hu .., hopen, htext, hpos, hat,
      hat.atEnd ((hu.item n).trans hn.1)⟩

/-- Settles O23: EOS after LazyInit tells whether the item at POS is `End`. -/
theorem isAtEndTellsTheEndOfTheTape : Obligations.IsAtEndTellsTheEndOfTheTape := by
  intro s hs hp
  have hat := hs.lazyInit
  obtain ⟨hopen, htext, hpos, -⟩ := opened_of_run hp .refl hat
  refine ⟨_, _, exec_isAtEnd hp, answered_respond .refl .., hopen, htext, lazyInit_acc s, hpos, hat,
    ?_⟩
  rw [flagData_eq]
  cases he : (lazyInit s).eos with
  | true =>
    obtain ⟨hend, hmod, -⟩ := hat.ended he
    obtain ⟨-, hbytes, -⟩ := hat
    rw [lazyInit_item] at hend
    exact .inl ⟨rfl, hmod, hend, fun k hk => lazyInit_item s k ▸ hbytes k hk⟩
  | false => exact .inr ⟨rfl, lazyInit_item s _ ▸ hat.eos_iff.1 he⟩

end Sys2Proof.Machine
end

section
/-! Reads in a row (spec/41_query_and_bit_reads.md R97, spec/45_sequencing_and_arithmetic.md R133).
The tape position fixes the registers and the item count, so two ways to read the same bits leave
the same state, answers and ACC apart. -/

namespace Sys2Proof.Machine

/-- The state without the cursor, ACC and the record of beats. -/
def State.forgetCursor (s : State) : State :=
  { s with buf := 0, cnt := 0, eos := false, acc := 0, taken := 0, beats := [] }

theorem SameButCursor.forgetCursor_eq {s t : State} (h : SameButCursor s t) :
    t.forgetCursor = s.forgetCursor := by
  obtain ⟨h1, h2, h3, h4, h5, h6, -, h8, -⟩ := h
  simp only [State.forgetCursor, h1, h2, h3, h4, h5, h6, h8]

theorem State.AtTape.registers_unique {t u : State} {q : Nat} (ht : t.AtTape q) (hu : u.AtTape q)
    (hitem : ∀ k, t.item k = u.item k) :
    t.buf = u.buf ∧ t.cnt = u.cnt ∧ t.eos = u.eos ∧ t.taken = u.taken := by
  have htaken : t.taken = u.taken := ht.1.trans hu.1.symm
  cases he : t.eos with
  | false =>
    have heu := hu.eos_iff.2 (hitem _ ▸ ht.eos_iff.1 he)
    obtain ⟨v, hv, hbuf, hcnt⟩ := ht.live he
    obtain ⟨v', hv', hbuf', hcnt'⟩ := hu.live heu
    obtain rfl : v = v' := SrcItem.byte.inj (hv.symm.trans ((hitem _).trans hv'))
    exact ⟨hbuf.trans hbuf'.symm, BitVec.eq_of_toNat_eq (hcnt.trans hcnt'.symm), heu.symm, htaken⟩
  | true =>
    obtain ⟨hend, -, -, hc, hb⟩ := ht.ended he
    obtain ⟨-, -, -, hend'⟩ := hu
    obtain ⟨-, he', hc', hb'⟩ := hend' (hitem _ ▸ hend)
    exact ⟨hb.trans hb'.symm, hc.trans hc'.symm, he'.symm, htaken⟩

/-- At one tape position there is one state, answers and ACC apart. -/
theorem forgetAnswers_eq_of_atTape {t u : State} {q : Nat} (h : t.forgetCursor = u.forgetCursor)
    (ht : t.AtTape q) (hu : u.AtTape q) : t.forgetAnswers = u.forgetAnswers := by
  have hsrc : t.forgetCursor.src = u.forgetCursor.src := by rw [h]
  have horigin : t.forgetCursor.origin = u.forgetCursor.origin := by rw [h]
  obtain ⟨hbuf, hcnt, heos, htaken⟩ :=
    ht.registers_unique hu fun k => State.item_eq_of_source hsrc horigin k
  have hput (r : State) : r.forgetAnswers =
      { r.forgetCursor with buf := r.buf, cnt := r.cnt, eos := r.eos, taken := r.taken } := rfl
  rw [hput, hput, h, hbuf, hcnt, heos, htaken]

theorem readWidth_le {i : Instr} {w : Nat} (h : readWidth i = some w) : w ≤ 64 := by
  obtain ⟨-, h2, -⟩ | ⟨k, hk, -, h8, -⟩ := exec_of_readWidth h <;> omega

/-- A field of at most 64 bits fits the response data (R11). -/
theorem toNat_tapeField (s : State) (p : Nat) {w : Nat} (hw : w ≤ 64) :
    (BitVec.ofNat 64 (s.tapeField p w)).toNat = s.tapeField p w := by
  rw [BitVec.toNat_ofNat, Nat.mod_eq_of_lt]
  exact (s.tapeField_lt p w).trans_le (Nat.pow_le_pow_right (by omega) hw)

theorem CursorRun.beats_eq {s u : State} (hu : CursorRun (lazyInit s) u) : u.beats = s.beats := by
  obtain ⟨-, -, -, -, -, -, hbeats, -⟩ := hu.sameButCursor
  exact hbeats.trans (lazyInit_beats s)

/-- Settles O32: the two fields concatenate, and the states stand at one tape position. -/
theorem consecutiveReadsConcatenate : Obligations.ConsecutiveReadsConcatenate := by
  intro s i j m a b hs hp hi hj hm hb
  have hat := hs.lazyInit
  obtain ⟨x, hx, hxat, hxex⟩ := exec_read_got hm hp hat hb
  obtain ⟨t, ht, htat, htex⟩ := exec_read_got hi hp hat fun k hk => hb k (by omega)
  have hopen : t.phase = .opened := ht.sameButCursor.phase_eq.trans (lazyInit_phase_opened hp)
  have hitem (k : Nat) : t.item k = s.item k := ht.item k
  let t' := t.respond .ok (BitVec.ofNat 64 (s.tapeField s.pos a))
  obtain ⟨u, hu, huat, huex⟩ := exec_read_got_opened (s := t') (p := s.pos + a) hj hopen htat
    fun k hk => (congrArg isByte (hitem k)).trans (hb k (by omega))
  rw [State.tapeField_congr (s := s) (t := t') hitem] at huex
  have hbeats := hu.sameButCursor.beats_append
    ⟨.ok, true, BitVec.ofNat 64 (s.tapeField (s.pos + a) b)⟩
  refine ⟨_, _, _, .ofNat 64 (s.tapeField s.pos a), .ofNat 64 (s.tapeField (s.pos + a) b),
    .ofNat 64 (s.tapeField s.pos (a + b)), htex, huex, hxex, ?_, ?_, ?_, ?_⟩
  · rw [State.respond_beats, hbeats, State.respond_beats, ht.beats_eq, List.append_assoc]
    rfl
  · rw [State.respond_beats, hx.beats_eq]
  · rw [toNat_tapeField _ _ (readWidth_le hi), toNat_tapeField _ _ (readWidth_le hj),
      toNat_tapeField _ _ (readWidth_le hm), State.tapeField_add]
  · have hframe : u.forgetCursor = x.forgetCursor := hu.sameButCursor.forgetCursor_eq.trans
      (ht.sameButCursor.forgetCursor_eq.trans hx.sameButCursor.forgetCursor_eq.symm)
    exact forgetAnswers_eq_of_atTape hframe huat (Nat.add_assoc .. ▸ hxat)

/-- The next `w` tape bits from `p` on. -/
def State.tapeBits (s : State) (p w : Nat) : List Bool :=
  (List.range w).map fun j => s.tapeBit (p + j)

theorem State.tapeBits_succ (s : State) (p w : Nat) :
    s.tapeBits p (w + 1) = s.tapeBit p :: s.tapeBits (p + 1) w := by
  simp [State.tapeBits, List.range_succ_eq_map, Nat.add_assoc, Nat.add_comm 1]

theorem State.tapeBits_congr {s t : State} (h : ∀ k, t.item k = s.item k) (p w : Nat) :
    t.tapeBits p w = s.tapeBits p w := by
  simp [State.tapeBits, State.tapeBit_congr h]

/-- The bits compose, the most significant first, to the field (R9, R97). -/
theorem foldl_tapeBits (s : State) {p w : Nat} {a : Data}
    (ha : a.toNat * 2 ^ w + 2 ^ w ≤ 2 ^ 64) :
    ((s.tapeBits p w).foldl shiftInBit a).toNat = a.toNat * 2 ^ w + s.tapeField p w := by
  induction w generalizing p a with
  | zero => simp [State.tapeBits, State.tapeField_zero]
  | succ w ih =>
    have hone := Nat.one_le_two_pow (n := w)
    have hbit := Bool.toNat_le (s.tapeBit p)
    rw [pow_succ] at ha
    have hshift : (shiftInBit a (s.tapeBit p)).toNat = 2 * a.toNat + (s.tapeBit p).toNat :=
      shiftInBit_toNat _ _ (by nlinarith)
    rw [State.tapeBits_succ, List.foldl_cons, ih (by rw [hshift]; nlinarith), hshift,
      State.tapeField_succ]
    ring

theorem foldl_tapeBits_zero (s : State) (p : Nat) {w : Nat} (hw : w ≤ 32) :
    (s.tapeBits p w).foldl shiftInBit 0 = BitVec.ofNat 64 (s.tapeField p w) := by
  have h0 : (0 : Data).toNat = 0 := rfl
  refine BitVec.eq_of_toNat_eq ?_
  rw [toNat_tapeField _ _ (by omega), foldl_tapeBits, h0, Nat.zero_mul, Nat.zero_add]
  rw [h0, Nat.zero_mul, Nat.zero_add]
  exact Nat.pow_le_pow_right (by omega) (by omega)

/-- A bit delivered as a number (R68). -/
theorem tapeField_one (s : State) (p : Nat) :
    BitVec.ofNat 64 (s.tapeField p 1) = if s.tapeBit p then 1 else 0 := by
  rw [State.tapeField_succ, State.tapeField_zero]
  cases s.tapeBit p <;> rfl

theorem runSteps_add {s t : State} {a : Nat} (h : runSteps a s = .next t) (b : Nat) :
    runSteps (a + b) s = runSteps b t := by
  induction a generalizing s with
  | zero =>
    obtain rfl : s = t := Host.Outcome.next.inj h
    rw [Nat.zero_add]
  | succ a ih =>
    rw [Nat.succ_add]
    cases hst : step s with
    | next u =>
      rw [runSteps_succ_of_step hst] at h ⊢
      exact ih h
    | fault r =>
      have h' : Sys2Proof.core.step s = .fault r := hst
      simp [runSteps, Host.Core.run, h'] at h
    | refused r =>
      have h' : Sys2Proof.core.step s = .refused r := hst
      simp [runSteps, Host.Core.run, h'] at h

/-- The state without the cursor, ACC, the record of beats and the words to come. -/
def State.forgetWords (s : State) : State := { s.forgetCursor with cmds := [] }

theorem forgetCursor_eq_of_forgetWords {s t : State} (h : s.forgetWords = t.forgetWords)
    (hc : s.cmds = t.cmds) : s.forgetCursor = t.forgetCursor := by
  have hput (r : State) : r.forgetCursor = { r.forgetWords with cmds := r.cmds } := rfl
  rw [hput, hput, h, hc]

/-- With a command's word next, an idle block takes it and executes the command (R60, R72). -/
theorem step_of_encode {s : State} {i : Instr} {rest : List CmdWord} (hi : s.inText = false)
    (hc : s.cmds = encode i :: rest) : step s = exec i s.takeWord ∧ s.takeWord.cmds = rest := by
  obtain rfl : s.cmds.tail = rest := by rw [hc, List.tail_cons]
  exact ⟨step_of_decode_ok hi hc (decode_encode i), rfl⟩

/-- An open, idle block at the tape position `p` with `k` READ_BIT presented, `rest` after them. -/
structure ReadBitsAhead (s : State) (p k : Nat) (rest : List CmdWord) : Prop where
  opened : s.phase = .opened
  idle : s.inText = false
  atTape : s.AtTape p
  cmds : s.cmds = List.replicate k (encode .readBit) ++ rest

/-- A READ_BIT that answers after cursor moves to `q` leaves `k` more ahead. -/
theorem ReadBitsAhead.answered {s u : State} {p q k : Nat} {rest : List CmdWord}
    (h : ReadBitsAhead s p (k + 1) rest) (hu : CursorRun s.takeWord u) (hat : u.AtTape q)
    (st : Status) (d : Data) :
    ReadBitsAhead (u.respond st d) q k rest ∧ (u.respond st d).forgetWords = s.forgetWords ∧
      (u.respond st d).beats = s.beats ++ [⟨st, true, d⟩] ∧ ∀ j, u.item j = s.item j := by
  have hwords : s.takeWord.cmds = List.replicate k (encode .readBit) ++ rest := by
    rw [State.takeWord, h.cmds, List.replicate_succ, List.cons_append, List.tail_cons]
  have hsc := hu.sameButCursor
  have hframe := congrArg (fun r : State => { r with cmds := [] }) hsc.forgetCursor_eq
  have hitem := hsc.item
  obtain ⟨hphase, -, htext, -, -, hcmds, hbeats, -⟩ := hsc
  exact ⟨⟨hphase.trans h.opened, htext.trans h.idle, hat, hcmds.trans hwords⟩, hframe,
    by rw [State.respond_beats, hbeats]; rfl, hitem⟩

/-- READ_BITs with their bits there. -/
theorem ReadBitsAhead.run_got {s : State} {p k : Nat} {rest : List CmdWord}
    (h : ReadBitsAhead s p k rest) (hb : ∀ j < (p + k + 7) / 8, isByte (s.item j) = true) :
    ∃ u, runSteps k s = .next u ∧ ReadBitsAhead u (p + k) 0 rest ∧
      u.forgetWords = s.forgetWords ∧
      u.beats = s.beats ++ (s.tapeBits p k).map (fun b => ⟨.ok, true, if b then 1 else 0⟩) := by
  induction k generalizing s p with
  | zero => exact ⟨s, rfl, h, rfl, by simp [State.tapeBits]⟩
  | succ k ih =>
    have hstep := (step_of_encode h.idle h.cmds).1
    obtain ⟨u, hu, hat, hex⟩ := exec_read_got_opened (i := .readBit) (w := 1) (s := s.takeWord) rfl
      h.opened h.atTape fun j hj => hb j (by omega)
    obtain ⟨hahead, hframe, hbeats, hitem⟩ := h.answered hu hat .ok
      (BitVec.ofNat 64 (s.takeWord.tapeField p 1))
    obtain ⟨v, hv, hvahead, hvframe, hvbeats⟩ := ih hahead fun j hj =>
      (congrArg isByte (hitem j)).trans (hb j (by omega))
    refine ⟨v, (runSteps_succ_of_step (hstep.trans hex) k).trans hv,
      by rwa [Nat.add_right_comm] at hvahead, hvframe.trans hframe, ?_⟩
    have hbits : State.tapeBits
        (u.respond .ok (BitVec.ofNat 64 (s.takeWord.tapeField p 1))) (p + 1) k =
        s.tapeBits (p + 1) k := State.tapeBits_congr hitem _ _
    rw [hvbeats, hbeats, hbits, tapeField_one, State.tapeBits_succ, List.append_assoc]
    rfl

/-- READ_BITs at the end of the tape. -/
theorem ReadBitsAhead.run_short {s : State} {n k : Nat} {rest : List CmdWord}
    (h : ReadBitsAhead s (8 * n) k rest) (hn : s.StreamLength n) :
    ∃ u, runSteps k s = .next u ∧ ReadBitsAhead u (8 * n) 0 rest ∧
      u.forgetWords = s.forgetWords ∧
      u.beats = s.beats ++ List.replicate k ⟨.exhaustedInput, true, 0⟩ := by
  induction k generalizing s with
  | zero => exact ⟨s, rfl, h, rfl, by simp⟩
  | succ k ih =>
    have hstep := (step_of_encode h.idle h.cmds).1
    obtain ⟨u, hu, hat, hex⟩ := exec_read_short_opened (i := .readBit) (w := 1) (s := s.takeWord)
      rfl h.opened h.atTape hn (by omega)
    obtain ⟨hahead, hframe, hbeats, hitem⟩ := h.answered hu hat .exhaustedInput 0
    obtain ⟨v, hv, hvahead, hvframe, hvbeats⟩ := ih hahead
      ⟨(hitem n).trans hn.1, fun j hj => (congrArg isByte (hitem j)).trans (hn.2 j hj)⟩
    refine ⟨v, (runSteps_succ_of_step (hstep.trans hex) k).trans hv, hvahead,
      hvframe.trans hframe, ?_⟩
    rw [hvbeats, hbeats, List.append_assoc, List.replicate_succ, List.singleton_append]

/-- READ_BITs that run out of bits: `m` deliver one, and the other `l` raise (R97). -/
theorem ReadBitsAhead.run_got_then_short {s : State} {p n k m l : Nat} {rest : List CmdWord}
    (h : ReadBitsAhead s p k rest) (hn : s.StreamLength n) (hm : 8 * n = p + m) (hk : k = m + l) :
    ∃ u, runSteps k s = .next u ∧ ReadBitsAhead u (8 * n) 0 rest ∧
      u.forgetWords = s.forgetWords ∧
      u.beats = s.beats ++ (s.tapeBits p m).map (fun b => ⟨.ok, true, if b then 1 else 0⟩) ++
        List.replicate l ⟨.exhaustedInput, true, 0⟩ := by
  subst hk
  have hfirst : ReadBitsAhead s p m (List.replicate l (encode .readBit) ++ rest) :=
    ⟨h.opened, h.idle, h.atTape, by rw [h.cmds, List.replicate_add, List.append_assoc]⟩
  obtain ⟨t, ht, htahead, htframe, htbeats⟩ := hfirst.run_got fun j hj => hn.2 j (by omega)
  have hsrc : t.forgetWords.src = s.forgetWords.src := by rw [htframe]
  have horigin : t.forgetWords.origin = s.forgetWords.origin := by rw [htframe]
  have hitem := State.item_eq_of_source (s := s) (t := t) hsrc horigin
  have hthen : ReadBitsAhead t (8 * n) l rest :=
    ⟨htahead.opened, htahead.idle, hm ▸ htahead.atTape, htahead.cmds⟩
  obtain ⟨u, hu, huahead, huframe, hubeats⟩ := hthen.run_short
    ⟨(hitem n).trans hn.1, fun j hj => (congrArg isByte (hitem j)).trans (hn.2 j hj)⟩
  exact ⟨u, (runSteps_add ht l).trans hu, huahead, huframe.trans htframe, by rw [hubeats, htbeats]⟩

theorem lazyInit_withCmds (s : State) (cmds : List CmdWord) :
    lazyInit { s with cmds := cmds } = { lazyInit s with cmds := cmds } := by
  have hn : State.nextItem { s with cmds := cmds } = s.nextItem := rfl
  unfold lazyInit
  split
  · cases h : s.nextItem with
    | byte v => rw [refill_byte h, refill_byte (hn.trans h)]
    | endOfStream => rw [refill_end h, refill_end (hn.trans h)]
  · rfl

/-- A first READ_BIT does not see whether LazyInit has run already, nor do the steps after it. -/
theorem runSteps_readBit_lazyInit {s : State} {c : List CmdWord} (hi : s.inText = false)
    (hp : s.phase ≠ .closed) (hc : s.cmds = encode .readBit :: c) (k : Nat) :
    runSteps (k + 1) s = runSteps (k + 1) (lazyInit s) := by
  have hcomm : lazyInit s.takeWord = (lazyInit s).takeWord := by
    rw [State.takeWord, lazyInit_withCmds, State.takeWord, lazyInit_cmds]
  have hstep : step s = step (lazyInit s) := by
    rw [(step_of_encode hi hc).1, exec_lazyInit (s := s.takeWord) rfl (by simp) hp, hcomm,
      (step_of_encode ((lazyInit_inText s).trans hi) ((lazyInit_cmds s).trans hc)).1]
  obtain ⟨t, ht⟩ : ∃ t, step s = .next t := by
    rw [(step_of_encode hi hc).1]
    exact exec_next (by simp) hp
  rw [runSteps_succ_of_step ht, runSteps_succ_of_step (hstep.symm.trans ht)]

/-- `w` READ_BIT from an idle block, as READ_BITs of the initialised one. -/
theorem readBitsAhead_of_coherent {s : State} (hs : s.Coherent) (hp : s.phase ≠ .closed)
    (hi : s.inText = false) {w : Nat} (hw : 1 ≤ w) :
    ∃ s', runSteps w { s with cmds := List.replicate w (encode .readBit) ++ s.cmds } =
      runSteps w s' ∧
      ReadBitsAhead s' s.pos w s.cmds ∧ s'.forgetWords = (lazyInit s).forgetWords ∧
      s'.beats = s.beats ∧ ∀ j, s'.item j = s.item j := by
  obtain ⟨k, rfl⟩ := Nat.exists_eq_add_of_le' hw
  refine ⟨_, runSteps_readBit_lazyInit
    (s := { s with cmds := List.replicate (k + 1) (encode .readBit) ++ s.cmds }) hi hp rfl k, ?_⟩
  rw [lazyInit_withCmds]
  exact ⟨⟨lazyInit_phase_opened hp, (lazyInit_inText s).trans hi, hs.lazyInit, rfl⟩, rfl,
    lazyInit_beats s, lazyInit_item s⟩

/-- READ_BITS and the READ_BITs end at one tape position with one frame. -/
theorem ReadBitsAhead.forgetAnswers_eq {s u t : State} {q : Nat}
    (hu : ReadBitsAhead u q 0 s.cmds) (hframe : u.forgetWords = (lazyInit s).forgetWords)
    (ht : CursorRun (lazyInit s) t) (hat : t.AtTape q) : t.forgetAnswers = u.forgetAnswers := by
  refine (forgetAnswers_eq_of_atTape ?_ hu.atTape hat).symm
  exact (forgetCursor_eq_of_forgetWords hframe (hu.cmds.trans (lazyInit_cmds s).symm)).trans
    ht.sameButCursor.forgetCursor_eq.symm

/-- Settles O31: READ_BITS by the tape law, and the READ_BITs by induction on their number: those
with a bit left, then those at the end of the tape. -/
theorem readBitsIsReadBitRepeated : Obligations.ReadBitsIsReadBitRepeated := by
  intro s w hs hp hi h1 h32
  have hw : readWidth (.readBits w) = some w.toNat := by
    rw [readWidth, if_pos (legalBitsWidth_iff.2 ⟨h1, h32⟩)]
  obtain ⟨s', hruns, hahead, hframe, hbeats, hitem⟩ := readBitsAhead_of_coherent hs hp hi h1
  refine ⟨fun hb => ?_, fun n hn hlt => ?_⟩
  · obtain ⟨t, ht, hat, hex⟩ := exec_read_got hw hp hs.lazyInit hb
    obtain ⟨u, hu, huahead, huframe, hubeats⟩ := hahead.run_got fun j hj =>
      (congrArg isByte (hitem j)).trans (hb j hj)
    refine ⟨_, u, s.tapeBits s.pos w.toNat, hex, hruns.trans hu, by simp [State.tapeBits], ?_, ?_,
      huahead.forgetAnswers_eq (t := t) (huframe.trans hframe) ht hat⟩
    · rw [State.respond_beats, ht.beats_eq, foldl_tapeBits_zero s s.pos h32]
    · rw [hubeats, hbeats, State.tapeBits_congr hitem]
  · obtain ⟨t, ht, hat, hex⟩ := exec_read_short hw hp hs.lazyInit hn hlt
    have hn' : s'.StreamLength n :=
      ⟨(hitem n).trans hn.1, fun j hj => (congrArg isByte (hitem j)).trans (hn.2 j hj)⟩
    obtain ⟨m, hm⟩ := Nat.exists_eq_add_of_le (hahead.atTape.le_length hn')
    obtain ⟨l, hl⟩ := Nat.exists_eq_add_of_le (show m ≤ w.toNat by omega)
    obtain ⟨u, hu, huahead, huframe, hubeats⟩ := hahead.run_got_then_short hn' hm hl
    refine ⟨_, u, s.tapeBits s.pos m, hex, hruns.trans hu, by simp [State.tapeBits, hm], ?_, ?_,
      huahead.forgetAnswers_eq (t := t) (huframe.trans hframe) ht hat⟩
    · rw [raiseError_beats, ht.beats_eq]
      rfl
    · rw [hubeats, hbeats, State.tapeBits_congr hitem]
      simp [State.tapeBits, hl]

end Sys2Proof.Machine
end

section
/-! READ_TEXT (spec/44_text_and_close.md R120 to R123). Its first turn is the step of a running one
after LazyInit, so the whole command is a run of turns, each of which moves eight bits on along the
tape. -/

namespace Sys2Proof.Machine

/-- A turn with eight bits there delivers them, flagged last at end (R120). -/
theorem textBeat_got {s : State} {p : Nat} (hat : s.AtTape p)
    (hb : ∀ k < (p + 8 + 7) / 8, isByte (s.item k) = true) :
    ∃ u, CursorRun s u ∧ u.AtTape (p + 8) ∧ textBeat s =
      (u.emit ⟨.ok, u.eos, BitVec.ofNat 64 (s.tapeField p 8)⟩).withText (!u.eos) := by
  obtain ⟨x, u, hx, hval, hu⟩ := byte1_atTape hat hb
  have hrun := (CursorRun.refl (s := s)).byte1
  rw [hx] at hrun
  have hdata : byteData x = BitVec.ofNat 64 (s.tapeField p 8) := by
    rw [← hval]
    exact BitVec.eq_of_toNat_eq (by simp [byteData])
  exact ⟨u, hrun, hu, by rw [← hdata, textBeat, hx]⟩

/-- A turn with fewer than eight bits left raises at the end of the tape (R121, R122). -/
theorem textBeat_short {s : State} {p n : Nat} (hat : s.AtTape p) (hn : s.StreamLength n)
    (hlt : 8 * n < p + 8) :
    ∃ u, CursorRun s u ∧ u.AtTape (8 * n) ∧
      textBeat s = (raiseError .exhausted u).withText false := by
  obtain ⟨u, hx, hu⟩ := byte1_short hat hn (hat.le_length hn) hlt
  have hrun := (CursorRun.refl (s := s)).byte1
  rw [hx] at hrun
  exact ⟨u, hrun, hu, by rw [textBeat, hx]⟩

/-- Settles O35: the entry test is EOS at POS, and the first turn delivers the next eight bits. -/
theorem readTextDeliversItsFirstUnit : Obligations.ReadTextDeliversItsFirstUnit := by
  intro s hs hp _
  have hat := hs.lazyInit
  refine ⟨fun hb => ?_, fun hn hmod => ?_⟩
  · have he : (lazyInit s).eos = false :=
      hat.eos_iff.2 ((congrArg isByte (lazyInit_item s _)).trans (hb _ (by omega)))
    obtain ⟨u, hu, huat, hbeat⟩ := textBeat_got hat fun k hk =>
      (congrArg isByte (lazyInit_item s k)).trans (hb k hk)
    rw [State.tapeField_congr (lazyInit_item s)] at hbeat
    obtain ⟨hopen, -, hpos, -⟩ := opened_of_run hp hu huat
    have hex := exec_readText hp
    rw [if_neg (by simp [he]), hbeat] at hex
    exact ⟨_, hex, answered_of_run hu .., rfl, hopen, hpos, huat⟩
  · have hend : (lazyInit s).item (s.pos / 8) = .endOfStream := (lazyInit_item s _).trans hn.1
    obtain ⟨-, -, -, hatEnd⟩ := hat
    obtain ⟨-, heos, hcnt⟩ := hatEnd hend
    exact ⟨by rw [exec_readText hp, if_pos heos]; rfl, heos, hcnt⟩

theorem refill_withText (s : State) (r : Bool) : refill (s.withText r) = (refill s).withText r := by
  have hn : (s.withText r).nextItem = s.nextItem := rfl
  cases h : s.nextItem with
  | byte v => rw [refill_byte h, refill_byte (hn.trans h)]; rfl
  | endOfStream => rw [refill_end h, refill_end (hn.trans h)]; rfl

/-- A turn does not read whether READ_TEXT runs. -/
theorem textBeat_withText (s : State) (r : Bool) : textBeat (s.withText r) = textBeat s := by
  have hbyte : byte1 (s.withText r) = ((byte1 s).1, (byte1 s).2.withText r) := by
    simp only [byte1, refill_withText]
    change (if s.eos then _ else _) = _
    split
    · rfl
    · change (if s.cnt = 8#4 then _ else _) = _
      split
      · rfl
      · change (if (refill s).eos then _ else _) = _
        split <;> rfl
  obtain ⟨x, u, hx, h⟩ | ⟨u, hx, h⟩ := textBeat_cases s <;> rw [h, textBeat, hbyte, hx] <;> rfl

/-- A READ_TEXT runs, with the registers at the tape position `p`. -/
structure TextRunning (s : State) (p : Nat) : Prop where
  opened : s.phase = .opened
  running : s.inText = true
  atTape : s.AtTape p

theorem TextRunning.step {s : State} {p : Nat} (h : TextRunning s p) :
    Machine.step s = .next (textBeat s) := by
  rw [Machine.step, if_pos h.running]

/-- The source, the words to come and the past of a READ_TEXT are as they were before its turns. -/
def SameChannels (s t : State) : Prop :=
  (∀ k, t.item k = s.item k) ∧ t.cmds = s.cmds ∧ t.past = s.past ∧ t.phase = s.phase

theorem SameChannels.trans {s t u : State} (h : SameChannels s t) (k : SameChannels t u) :
    SameChannels s u := by
  obtain ⟨h1, h2, h3, h4⟩ := h
  obtain ⟨k1, k2, k3, k4⟩ := k
  exact ⟨fun j => (k1 j).trans (h1 j), k2.trans h2, k3.trans h3, k4.trans h4⟩

theorem CursorRun.sameChannels {s u : State} (h : CursorRun s u) (b : Beat) (r : Bool) :
    SameChannels s ((u.emit b).withText r) ∧ ((u.emit b).withText r).beats = s.beats ++ [b] := by
  have hsc := h.sameButCursor
  have hbeats := hsc.beats_append b
  have hitem := hsc.item
  obtain ⟨hphase, -, -, -, -, hcmds, -, hpast, -⟩ := hsc
  exact ⟨⟨hitem, hcmds, hpast, hphase⟩, hbeats⟩

/-- A turn with a unit left (R120). -/
theorem TextRunning.turn_got {s : State} {p : Nat} (h : TextRunning s p)
    (hb : ∀ k < (p + 8 + 7) / 8, isByte (s.item k) = true) :
    ∃ t, Machine.step s = .next t ∧ t.AtTape (p + 8) ∧ SameChannels s t ∧ t.inText = (!t.eos) ∧
      t.beats = s.beats ++ [⟨.ok, t.eos, BitVec.ofNat 64 (s.tapeField p 8)⟩] := by
  obtain ⟨u, hu, hat, hbeat⟩ := textBeat_got h.atTape hb
  obtain ⟨hsame, hbeats⟩ := hu.sameChannels _ _
  exact ⟨_, h.step.trans (congrArg _ hbeat), hat, hsame, rfl, hbeats⟩

/-- The turn that cannot fill a unit (R121). -/
theorem TextRunning.turn_short {s : State} {p n : Nat} (h : TextRunning s p)
    (hn : s.StreamLength n) (hlt : 8 * n < p + 8) :
    ∃ t, Machine.step s = .next t ∧ t.AtTape (8 * n) ∧ SameChannels s t ∧ t.inText = false ∧
      t.beats = s.beats ++ [⟨.exhaustedInput, true, 0⟩] := by
  obtain ⟨u, hu, hat, hbeat⟩ := textBeat_short h.atTape hn hlt
  obtain ⟨hsame, hbeats⟩ := hu.sameChannels ⟨.exhaustedInput, true, 0⟩ false
  exact ⟨_, h.step.trans (congrArg _ hbeat), hat, hsame, rfl, hbeats⟩

/-- `k` turns while the stream goes on: `k` units, none of them last (R123). -/
theorem TextRunning.run {s : State} {p : Nat} (h : TextRunning s p) (k : Nat)
    (hb : ∀ j ≤ p / 8 + k, isByte (s.item j) = true) :
    ∃ t, runSteps k s = .next t ∧ TextRunning t (p + 8 * k) ∧ SameChannels s t ∧
      t.beats = s.beats ++ (List.range k).map fun j =>
        ⟨.ok, false, BitVec.ofNat 64 (s.tapeField (p + 8 * j) 8)⟩ := by
  induction k generalizing s p with
  | zero => exact ⟨s, rfl, h, ⟨fun _ => rfl, rfl, rfl, rfl⟩, by simp⟩
  | succ k ih =>
    obtain ⟨t, hstep, hat, hsame, htext, hbeats⟩ := h.turn_got fun j hj => hb j (by omega)
    obtain ⟨hitem, -, -, hphase⟩ := id hsame
    have he : t.eos = false :=
      hat.eos_iff.2 ((congrArg isByte (hitem _)).trans (hb _ (by omega)))
    have ht : TextRunning t (p + 8) := ⟨hphase.trans h.opened, by rw [htext, he]; rfl, hat⟩
    obtain ⟨u, hu, hurun, husame, hubeats⟩ := ih ht fun j hj =>
      (congrArg isByte (hitem j)).trans (hb j (by omega))
    refine ⟨u, (runSteps_succ_of_step hstep k).trans hu,
      by rwa [show p + 8 * (k + 1) = p + 8 + 8 * k by omega], hsame.trans husame, ?_⟩
    rw [hubeats, hbeats, he, List.range_succ_eq_map, List.map_cons, List.map_map, List.append_assoc]
    simp only [State.tapeField_congr hitem, Function.comp_def, Nat.mul_succ, Nat.mul_zero,
      Nat.add_zero, List.singleton_append, Nat.add_assoc, Nat.add_comm 8]

/-- A READ_TEXT not entered at end is a run of turns from the state after LazyInit. -/
theorem readText_running {s : State} {rest : List CmdWord} (hs : s.Coherent)
    (hi : s.inText = false) (hp : s.phase ≠ .closed) (hc : s.cmds = encode .readText :: rest)
    (hb : isByte (s.item (s.pos / 8)) = true) :
    ∃ s', (∀ k, runSteps (k + 1) s = runSteps (k + 1) s') ∧ TextRunning s' s.pos ∧
      (∀ k, s'.item k = s.item k) ∧ s'.cmds = rest ∧ s'.past = s.past ∧ s'.beats = s.beats := by
  have hinit : (lazyInit s.takeWord).AtTape s.pos := (hs.withCmds s.cmds.tail).lazyInit
  have hitem (k : Nat) : (lazyInit s.takeWord).item k = s.item k := lazyInit_item s.takeWord k
  have he : (lazyInit s.takeWord).eos = false :=
    hinit.eos_iff.2 ((congrArg isByte (hitem _)).trans hb)
  have hrun : TextRunning ((lazyInit s.takeWord).withText true) s.pos :=
    ⟨lazyInit_phase_opened (s := s.takeWord) hp, rfl, hinit⟩
  obtain ⟨hstep, hrest⟩ := step_of_encode hi hc
  rw [exec_readText (s := s.takeWord) hp, if_neg (by simp [he])] at hstep
  refine ⟨_, fun k => ?_, hrun, hitem, (lazyInit_cmds s.takeWord).trans hrest,
    lazyInit_past s.takeWord, lazyInit_beats s.takeWord⟩
  rw [runSteps_succ_of_step hstep, runSteps_succ_of_step hrun.step, textBeat_withText]

/-- Settles O38: a run of turns none of which meets the end. -/
theorem readTextGoesOnWithTheStream : Obligations.ReadTextGoesOnWithTheStream := by
  intro s rest k hs hi hp hc hk hb
  obtain ⟨s', hruns, hrun, hitem, hcmds, -, hbeats⟩ :=
    readText_running hs hi hp hc (hb _ (by omega))
  obtain ⟨t, ht, htrun, ⟨-, htcmds, -⟩, htbeats⟩ := hrun.run k fun j hj =>
    (congrArg isByte (hitem j)).trans (hb j hj)
  obtain ⟨l, rfl⟩ := Nat.exists_eq_add_of_le' hk
  refine ⟨t, (hruns l).trans ht, htrun.running, htcmds.trans hcmds, ?_⟩
  rw [htbeats, hbeats]
  simp only [State.tapeField_congr hitem]

/-- A response is complete with its last beat: what comes after it begins anew (R69). -/
theorem gather_append_of_last {l : List Beat} {b : Beat} (hl : l.getLast? = some b)
    (hb : b.last = true) (units : List Data) (m : List Beat) :
    gather units (l ++ m) = gather units l ++ gather [] m := by
  induction l generalizing units with
  | nil => cases hl
  | cons c l ih =>
    obtain ⟨st, last, d⟩ := c
    cases l with
    | nil =>
      obtain rfl := Option.some.inj hl
      obtain rfl : last = true := hb
      cases st <;> rfl
    | cons c' l =>
      have ih := ih (by simpa using hl)
      cases last with
      | false => exact ih _
      | true => cases st <;> exact congrArg (_ :: ·) (ih [])

/-- The responses of an idle block, and those the beats of a command add (R122). -/
theorem responses_append {s t : State} {bs : List Beat} (hs : s.BeatsInStep)
    (hi : s.inText = false) (hpast : t.past = s.past) (hbeats : t.beats = s.beats ++ bs) :
    t.responses = s.responses ++ gather [] bs := by
  rw [responses_eq, responses_eq, hpast, hbeats, List.append_assoc]
  congr 1
  rw [State.BeatsInStep, hi] at hs
  cases hl : s.beats.getLast? with
  | none =>
    rw [List.getLast?_eq_none_iff.1 hl]
    rfl
  | some b =>
    rw [hl] at hs
    exact gather_append_of_last hl (by simpa using hs.symm) [] bs

/-- Units not flagged last are gathered. -/
theorem gather_units (units l : List Data) (m : List Beat) :
    gather units (l.map (fun d => ⟨.ok, false, d⟩) ++ m) = gather (units ++ l) m := by
  induction l generalizing units with
  | nil => simp
  | cons d l ih => simpa [gather] using ih (units ++ [d])

/-- On a byte boundary the next eight bits are the byte (R9). -/
theorem tapeField_byte (s : State) (k : Nat) :
    BitVec.ofNat 64 (s.tapeField (8 * k) 8) = byteData (s.streamByte k) := by
  have hbits : (s.streamByte k).toNat = s.tapeField (8 * k) 8 := toNat_eq_tapeField fun i hi => by
    rw [State.tapeBit, show (8 * k + i) / 8 = k by omega, show (8 * k + i) % 8 = i by omega,
      bitOf_eq]
  rw [← hbits]
  exact BitVec.eq_of_toNat_eq (by simp [byteData])

/-- All units of a READ_TEXT but its last beat, on a stream of `n` bytes: the state before that
beat, one unit for each byte between POS and the last byte. -/
theorem readText_upToLast {s : State} {rest : List CmdWord} {n m : Nat} (hs : s.Coherent)
    (hi : s.inText = false) (hp : s.phase ≠ .closed) (hc : s.cmds = encode .readText :: rest)
    (hn : s.StreamLength n) (hm : n = s.pos / 8 + m + 1) :
    ∃ t, (∀ u, step t = .next u → runSteps (m + 1) s = .next u) ∧ TextRunning t (s.pos + 8 * m) ∧
      (∀ k, t.item k = s.item k) ∧ t.cmds = rest ∧ t.past = s.past ∧
      t.beats = s.beats ++ (List.range m).map fun j =>
        ⟨.ok, false, BitVec.ofNat 64 (s.tapeField (s.pos + 8 * j) 8)⟩ := by
  obtain ⟨s', hruns, hrun, hitem, hcmds, hpast, hbeats⟩ :=
    readText_running hs hi hp hc (hn.2 _ (by omega))
  obtain ⟨t, ht, htrun, ⟨htitem, htcmds, htpast, -⟩, htbeats⟩ := hrun.run m fun j hj =>
    (congrArg isByte (hitem j)).trans (hn.2 j (by omega))
  refine ⟨t, fun u hu => ?_, htrun, fun k => (htitem k).trans (hitem k), htcmds.trans hcmds,
    htpast.trans hpast, ?_⟩
  · rw [hruns, runSteps_add ht 1, runSteps_succ_of_step hu]
    rfl
  · rw [htbeats, hbeats]
    simp only [State.tapeField_congr hitem]

/-- Settles O36: all units but one, and the turn that meets the end with the last one. -/
theorem alignedReadTextDeliversTheRest : Obligations.AlignedReadTextDeliversTheRest := by
  intro s rest n hs hstep hi hp hc hn hmod hlt
  obtain ⟨m, hm⟩ := Nat.exists_eq_add_of_le (show s.pos / 8 + 1 ≤ n by omega)
  obtain ⟨t, hruns, hrun, hitem, hcmds, hpast, hbeats⟩ :=
    readText_upToLast (m := m) hs hi hp hc hn (by omega)
  obtain ⟨u, hu, hat, ⟨huitem, hucmds, hupast, huphase⟩, hutext, hubeats⟩ :=
    hrun.turn_got fun j hj => (congrArg isByte (hitem j)).trans (hn.2 j (by omega))
  have hcount : n - s.pos / 8 = m + 1 := by omega
  have hfield (j : Nat) : BitVec.ofNat 64 (s.tapeField (s.pos + 8 * j) 8) =
      byteData (s.streamByte (s.pos / 8 + j)) := by
    rw [show s.pos + 8 * j = 8 * (s.pos / 8 + j) by omega, tapeField_byte]
  have hat' : u.AtTape (8 * n) := by rwa [show 8 * n = s.pos + 8 * m + 8 by omega]
  have hend := hat'.atEnd ((huitem n).trans ((hitem n).trans hn.1))
  rw [hend.1, State.tapeField_congr hitem, hbeats, List.append_assoc] at hubeats
  simp only [hfield] at hubeats
  have hall := responses_append hstep hi (hupast.trans hpast) hubeats
  rw [hcount]
  refine ⟨u, hruns u hu, by rw [hutext, hend.1]; rfl, hucmds.trans hcmds, huphase.trans hrun.opened,
    hat', hend, ?_, ?_⟩
  · rw [hubeats, List.range_succ, List.map_append]
    congr 2
    · refine List.map_congr_left fun j hj => ?_
      have hne : decide (j + 1 = m + 1) = false := by
        have := List.mem_range.1 hj
        simp
        omega
      rw [hne]
    · simp
  · have hmap : (List.range m).map
      (fun j => (⟨.ok, false, byteData (s.streamByte (s.pos / 8 + j))⟩ : Beat)) =
        ((List.range m).map fun j => byteData (s.streamByte (s.pos / 8 + j))).map
          (fun d => ⟨.ok, false, d⟩) := by
      rw [List.map_map]
      rfl
    rw [hall, hmap, gather_units, List.range_succ, List.map_append]
    rfl

/-- Settles O37: all units, and the turn that cannot fill another one. -/
theorem unalignedReadTextFails : Obligations.UnalignedReadTextFails := by
  intro s rest n hs hstep hi hp hc hn hmod hlt
  obtain ⟨m, hm⟩ := Nat.exists_eq_add_of_le (show s.pos / 8 + 1 ≤ n by omega)
  obtain ⟨t, hruns, hrun, hitem, hcmds, hpast, hbeats⟩ :=
    readText_upToLast (m := m) hs hi hp hc hn (by omega)
  obtain ⟨u, hu, hat, ⟨huitem, hucmds, hupast, huphase⟩, hutext, hubeats⟩ :=
    hrun.turn_short (n := n) ⟨(hitem n).trans hn.1, fun j hj =>
      (congrArg isByte (hitem j)).trans (hn.2 j hj)⟩ (by omega)
  have hcount : n - s.pos / 8 = m + 1 := by omega
  have hunits : n - (s.pos + 7) / 8 = m := by omega
  rw [hbeats] at hubeats
  have hall := responses_append hstep hi (hupast.trans hpast) (hubeats.trans (List.append_assoc ..))
  rw [hcount, hunits]
  refine ⟨u, hruns u hu, hutext, hucmds.trans hcmds, huphase.trans hrun.opened, hat,
    hat.atEnd ((huitem n).trans ((hitem n).trans hn.1)), hubeats, ?_⟩
  have hmap : (List.range m).map
      (fun j => (⟨.ok, false, BitVec.ofNat 64 (s.tapeField (s.pos + 8 * j) 8)⟩ : Beat)) =
      ((List.range m).map fun j => BitVec.ofNat 64 (s.tapeField (s.pos + 8 * j) 8)).map
        (fun d => ⟨.ok, false, d⟩) := by
    rw [List.map_map]
    rfl
  rw [hall, hmap, gather_units]
  rfl

end Sys2Proof.Machine
end

section
/-! Items after the first `End` (spec/20_memory.md R44). The block reads the source only where
Refill takes the next item, and that is never past the first `End`; so exchanging the source for one
that agrees up to there commutes with every operation. -/

namespace Sys2Proof.Machine

/-- The state over another list of items. -/
def State.withSrc (s : State) (src : List SrcItem) : State := { s with src := src }

/-- On the tape of a stream of `n` bytes, `src` lists the same items up to the `End`. -/
structure SameUpToEnd (s : State) (src : List SrcItem) (n : Nat) : Prop where
  length : s.StreamLength n
  agree : ∀ k ≤ n, srcAt src (s.origin + k) = s.item k
  onTape : ∃ p, s.AtTape p

theorem SameUpToEnd.run {s u : State} {src : List SrcItem} {n : Nat} (h : SameUpToEnd s src n)
    (hu : CursorRun s u) : SameUpToEnd u src n := by
  obtain ⟨p, hat⟩ := h.onTape
  obtain ⟨q, -, hq⟩ := hu.atTape hat
  have hitem := hu.sameButCursor.item
  obtain ⟨-, -, -, -, horigin, -⟩ := hu.sameButCursor
  refine ⟨⟨(hitem n).trans h.length.1,
    fun k hk => (congrArg isByte (hitem k)).trans (h.length.2 k hk)⟩,
    fun k hk => ?_, q, hq⟩
  rw [horigin, h.agree k hk, hitem]

/-- Not at end, the item taken next lies not beyond the `End`. -/
theorem SameUpToEnd.nextItem {s : State} {src : List SrcItem} {n : Nat} (h : SameUpToEnd s src n)
    (he : s.eos = false) : (s.withSrc src).nextItem = s.nextItem := by
  obtain ⟨p, hat⟩ := h.onTape
  have hle := hat.le_length h.length
  have hne : p / 8 ≠ n := fun heq => by
    have := hat.eos_iff.1 he
    rw [heq, h.length.1] at this
    cases this
  refine h.agree s.taken ?_
  rw [hat.1]
  omega

theorem refill_withSrc {s : State} {src : List SrcItem}
    (h : (s.withSrc src).nextItem = s.nextItem) :
    refill (s.withSrc src) = (refill s).withSrc src := by
  cases hi : s.nextItem with
  | byte v => rw [refill_byte hi, refill_byte (h.trans hi)]; rfl
  | endOfStream => rw [refill_end hi, refill_end (h.trans hi)]; rfl

theorem bit1_withSrc {s : State} {src : List SrcItem} {n : Nat} (h : SameUpToEnd s src n) :
    bit1 (s.withSrc src) = ((bit1 s).1, (bit1 s).2.withSrc src) := by
  obtain ⟨he, k⟩ | ⟨he, hc, k⟩ | ⟨he, hc, k⟩ := bit1_cases s
  · rw [k, bit1_atEnd (s := s.withSrc src) he]
  · obtain ⟨he', -⟩ | ⟨-, -, k'⟩ | ⟨-, hc', -⟩ := bit1_cases (s.withSrc src)
    · exact absurd he' (by simp [State.withSrc, he])
    · rw [k, k']
      rfl
    · exact absurd hc' hc
  · obtain ⟨he', -⟩ | ⟨-, hc', -⟩ | ⟨-, -, k'⟩ := bit1_cases (s.withSrc src)
    · exact absurd he' (by simp [State.withSrc, he])
    · exact absurd hc hc'
    · rw [k, k', refill_withCnt, refill_withCnt, refill_withSrc (h.nextItem he)]
      rfl

theorem byte1_withSrc {s : State} {src : List SrcItem} {n : Nat} (h : SameUpToEnd s src n) :
    byte1 (s.withSrc src) = ((byte1 s).1, (byte1 s).2.withSrc src) := by
  cases he : s.eos with
  | true => rw [byte1_atEnd he, byte1_atEnd (s := s.withSrc src) he]
  | false =>
    have hn := h.nextItem he
    have hfill := refill_withSrc hn
    by_cases hc : s.cnt = 8#4
    · rw [byte1_aligned he hc, byte1_aligned (s := s.withSrc src) he hc, hfill]
      rfl
    · cases hi : s.nextItem with
      | byte v =>
        rw [byte1_unaligned_byte he hc hi,
          byte1_unaligned_byte (s := s.withSrc src) he hc (hn.trans hi), hfill]
        rfl
      | endOfStream =>
        rw [byte1_unaligned_end he hc hi,
          byte1_unaligned_end (s := s.withSrc src) he hc (hn.trans hi), hfill]

theorem shiftBits_withSrc {s : State} {src : List SrcItem} {n : Nat} (h : SameUpToEnd s src n)
    (k : Nat) :
    shiftBits k (s.withSrc src) = ((shiftBits k s).1, (shiftBits k s).2.withSrc src) := by
  induction k generalizing s with
  | zero => rfl
  | succ k ih =>
    have hstep := bit1_withSrc h
    have hrun := (CursorRun.refl (s := s)).bit1
    cases hb : bit1 s with
    | mk r u =>
      rw [hb] at hstep hrun
      cases r with
      | got b => rw [shiftBits_got hb, shiftBits_got hstep]; exact ih (h.run (hrun.acc _))
      | exhausted => rw [shiftBits_exhausted hb, shiftBits_exhausted hstep]

theorem shiftBytes_withSrc {s : State} {src : List SrcItem} {n : Nat} (h : SameUpToEnd s src n)
    (k : Nat) :
    shiftBytes k (s.withSrc src) = ((shiftBytes k s).1, (shiftBytes k s).2.withSrc src) := by
  induction k generalizing s with
  | zero => rfl
  | succ k ih =>
    have hstep := byte1_withSrc h
    have hrun := (CursorRun.refl (s := s)).byte1
    cases hb : byte1 s with
    | mk r u =>
      rw [hb] at hstep hrun
      cases r with
      | got b => rw [shiftBytes_got hb, shiftBytes_got hstep]; exact ih (h.run (hrun.acc _))
      | exhausted => rw [shiftBytes_exhausted hb, shiftBytes_exhausted hstep]

theorem finish_withSrc (r : Got Data × State) (src : List SrcItem) :
    finish (r.1, r.2.withSrc src) = (finish r).withSrc src := by
  obtain ⟨g, t⟩ := r
  cases g <;> rfl

theorem textBeat_withSrc {s : State} {src : List SrcItem} {n : Nat} (h : SameUpToEnd s src n) :
    textBeat (s.withSrc src) = (textBeat s).withSrc src := by
  have hbyte := byte1_withSrc h
  obtain ⟨x, u, hx, ht⟩ | ⟨u, hx, ht⟩ := textBeat_cases s <;> rw [ht, textBeat, hbyte, hx] <;> rfl

theorem lazyInit_withSrc {s : State} {src : List SrcItem}
    (h : s.phase = .unopened → (s.withSrc src).nextItem = s.nextItem) :
    lazyInit (s.withSrc src) = (lazyInit s).withSrc src := by
  by_cases hu : s.phase = .unopened
  · rw [lazyInit_of_unopened hu, lazyInit_of_unopened (s := s.withSrc src) hu,
      refill_withSrc (h hu)]
    rfl
  · rw [lazyInit_of_initialised hu, lazyInit_of_initialised (s := s.withSrc src) hu]

/-- A command outside CLOSED other than CLOSE, over the other list of items. -/
theorem exec_withSrc {i : Instr} {s t : State} {src : List SrcItem} {n : Nat} (hne : i ≠ .close)
    (hp : s.phase ≠ .closed) (hinit : lazyInit (s.withSrc src) = (lazyInit s).withSrc src)
    (h : SameUpToEnd (lazyInit s) src n) (ht : exec i s = .next t) :
    exec i (s.withSrc src) = .next (t.withSrc src) := by
  have hp' : (s.withSrc src).phase ≠ .closed := hp
  obtain ⟨w, hw⟩ | hf | rfl | rfl | rfl := readWidth_or i
  · have hacc : SameUpToEnd { lazyInit s with acc := 0 } src n := h.run (.acc 0 .refl)
    obtain ⟨-, -, hex⟩ | ⟨k, -, -, -, hex⟩ := exec_of_readWidth hw
    · rw [hex, unlessClosed_next hp] at ht
      rw [hex, unlessClosed_next hp', hinit, ← Host.Outcome.next.inj ht, readBitsOp, readBitsOp,
        ← finish_withSrc, ← shiftBits_withSrc hacc]
      rfl
    · rw [hex, unlessClosed_next hp] at ht
      rw [hex, unlessClosed_next hp', hinit, ← Host.Outcome.next.inj ht, readBytesOp, readBytesOp,
        ← finish_withSrc, ← shiftBytes_withSrc hacc]
      rfl
  · rw [exec_illFormed hf hp] at ht
    rw [exec_illFormed hf hp', ← Host.Outcome.next.inj ht]
    rfl
  · rw [exec_isAtEnd hp] at ht
    rw [exec_isAtEnd hp', hinit, ← Host.Outcome.next.inj ht]
    rfl
  · rw [exec_readText hp] at ht
    rw [exec_readText hp', hinit, ← Host.Outcome.next.inj ht, textBeat_withSrc h]
    change Host.Outcome.next (if (lazyInit s).eos then _ else _) = _
    split <;> rfl
  · exact absurd rfl hne

/-- CLOSE, over the other list of items. -/
theorem exec_close_withSrc {s t : State} (src : List SrcItem) (ht : exec .close s = .next t) :
    exec .close (s.withSrc src) = .next (t.withSrc src) := by
  cases hp : s.phase with
  | unopened => simp [exec_close_unopened hp] at ht
  | opened =>
    rw [exec_close_opened hp] at ht
    rw [exec_close_opened (s := s.withSrc src) hp, ← Host.Outcome.next.inj ht]
    rfl
  | closed =>
    rw [exec_close_closed hp] at ht
    rw [exec_close_closed (s := s.withSrc src) hp, ← Host.Outcome.next.inj ht]
    rfl

/-- A step, over the other list of items. -/
theorem step_withSrc {s t : State} {src : List SrcItem} {n : Nat} (hs : s.Coherent)
    (hn : s.StreamLength n) (hagree : ∀ k ≤ n, srcAt src (s.origin + k) = s.item k)
    (ht : step s = .next t) : step (s.withSrc src) = .next (t.withSrc src) := by
  obtain ⟨hi, hst⟩ | ⟨hi, hc, hst⟩ | ⟨c, rest, hi, hc, hst⟩ := step_cases s
  · have hsame : SameUpToEnd s src n := ⟨hn, hagree, _, (hs.text_atTape hi).2⟩
    rw [← Host.Outcome.next.inj (hst.symm.trans ht), ← textBeat_withSrc hsame, step,
      if_pos (show (s.withSrc src).inText = true from hi)]
  · rw [← Host.Outcome.next.inj (hst.symm.trans ht)]
    exact idleBlockStaysAsItIs _ ⟨hi, hc⟩
  · obtain ⟨i, hd, hst⟩ | ⟨e, hd, hst⟩ := hst
    · rw [hst] at ht
      rw [step_of_decode_ok (s := s.withSrc src) hi hc hd]
      by_cases hcl : i = .close
      · subst hcl
        exact exec_close_withSrc src ht
      · have hw := hs.withCmds rest
        have hp := (exec_delivers (s := { s with cmds := rest }) hcl hi ht).1
        refine exec_withSrc hcl hp (lazyInit_withSrc fun hu => ?_)
          ⟨(lazyInit_streamLength _ n).2 hn, fun k hk => ?_, _, hw.lazyInit⟩ ht
        · exact hagree s.taken (by rw [(hs.unopened hu).1]; omega)
        · rw [lazyInit_origin, lazyInit_item]
          exact hagree k hk
    · rw [hst] at ht
      rw [step_of_decode_error (s := s.withSrc src) hi hc hd, eq_raiseError_of_execReserved ht]
      refine execReserved_next (s := { s.withSrc src with cmds := rest }) fun hp => ?_
      rw [execReserved_closed (s := { s with cmds := rest }) hp] at ht
      cases ht

/-- Settles O48: a step commutes with the exchange of the items, and a misuse does not look at the
source. -/
theorem itemsAfterTheEndDoNotMatter : Obligations.ItemsAfterTheEndDoNotMatter := by
  intro s src n hs hn hagree
  refine ⟨fun t ht => step_withSrc hs hn hagree ht, fun r hr => ?_⟩
  obtain ⟨t, ht⟩ | ⟨r', hmis⟩ := step_next_or_misuse s
  · simp [hr] at ht
  · obtain rfl := Host.Outcome.fault.inj (hr.symm.trans hmis.step_eq_fault)
    exact State.Misuse.step_eq_fault (s := { s with src := src }) hmis

end Sys2Proof.Machine
end

section
/-! The signal level edge by edge (spec/45_sequencing_and_arithmetic.md R137 to R139). Without reset
an edge either makes the block's one next move or only waits, so a schedule of delays is a
stuttering of one sequence of moves. -/

namespace Sys2Proof.Machine.Signal

/-- Settles O54, output by output. -/
theorem outputsFollowTheSequencerState : Obligations.OutputsFollowTheSequencerState := by
  intro b
  refine ⟨by simp [Block.outputs], by simp [Block.outputs], by simp [Block.outputs], fun hq => ?_,
    fun hq => ?_, rfl⟩ <;> simp [Block.outputs, hq]

/-- The block released from reset. -/
def Block.awake (b : Block) : Block := { b with inReset := false }

theorem Block.awake_eq_self {b : Block} (h : b.inReset = false) : b.awake = b := by
  rw [Block.awake, ← h]

/-- An edge without reset in each sequencer state (R138). -/
def Block.edge (b : Block) (i : Inputs) : Seq → Block
  | .idle => if b.outputs.cmdReady && i.cmdValid then b.awake.accept i.cmd else b.awake
  | .decode => b.awake.onDecode
  | .step => b.awake.onStep
  | .fill => if i.srcValid then b.awake.onItem i.item else b.awake
  | .resp => if i.rspReady then b.awake.onTaken else b.awake
  | .dead => b.awake

theorem clock_eq_edge (b : Block) {i : Inputs} (h : i.rst = false) :
    b.clock i = b.edge i b.seq := by
  rw [Block.clock, if_neg (by simp [h])]
  rfl

theorem clock_of_rst (b : Block) {i : Inputs} (h : i.rst = true) : b.clock i = Block.reset :=
  if_pos h

/-- Settles O55: in each of the four cases an edge only clears the reset flag, which is clear. -/
theorem theBlockWaitsForEver : Obligations.TheBlockWaitsForEver := by
  intro b i hr hb h
  rw [clock_eq_edge b hr]
  obtain ⟨hq, hi⟩ | ⟨hq, hi⟩ | ⟨hq, hi⟩ | hq := h <;> rw [hq, Block.edge]
  · rw [hi, Bool.and_false, if_neg Bool.false_ne_true, Block.awake_eq_self hb]
  · rw [hi, if_neg Bool.false_ne_true, Block.awake_eq_self hb]
  · rw [hi, if_neg Bool.false_ne_true, Block.awake_eq_self hb]
  · exact Block.awake_eq_self hb

/-- An edge with reset takes no account of what the block was doing (R170 to R172). -/
theorem tick_of_rst (y : System) {e : Choice} (h : e.rst = true) :
    (y.tick e).block = Block.reset ∧ (y.tick e).taken = 0 ∧ (y.tick e).beats = [] ∧
      (y.tick e).origin =
        y.origin + if y.block.seq = .fill ∧ e.offerItem = true then y.taken + 1 else y.taken := by
  refine ⟨clock_of_rst _ h, if_pos h, if_pos h, ?_⟩
  simp [System.tick, h, Block.outputs, System.inputs]

theorem nextItem_of_rst (y : System) {e : Choice} (h : e.rst = true) :
    (y.tick e).nextItem = srcAt y.src (y.tick e).origin := by
  obtain ⟨-, htaken, -⟩ := tick_of_rst y h
  rw [System.nextItem, htaken]
  rfl

/-- Settles O57: the reset registers, the outputs they show, and the source's next item by whether
one is transferred at the edge. -/
theorem resetEdgeFromAnyState : Obligations.ResetEdgeFromAnyState := by
  refine ⟨fun b i hr => ?_, fun b i hr hq => ?_, fun y e hr => ?_⟩
  · rw [clock_of_rst b hr]
    refine ⟨rfl, rfl, rfl, rfl, rfl, rfl, rfl, rfl, fun j hj => ?_⟩
    simp [Block.clock, hj, Block.reset, Block.outputs]
  · rw [clock_eq_edge b hr, hq]
    exact hq
  · obtain ⟨hblock, htaken, hbeats, horigin⟩ := tick_of_rst y hr
    refine ⟨fun hno => ?_, fun hyes => ?_, ?_⟩
    · rw [nextItem_of_rst y hr, horigin, if_neg hno]
      rfl
    · rw [nextItem_of_rst y hr, horigin, if_pos hyes]
      rfl
    · rw [System.Agrees, hblock, htaken, hbeats]
      exact ⟨rfl, rfl, rfl, rfl, rfl, rfl, rfl, rfl, rfl, rfl, rfl, rfl⟩

/-- The system with its block released from reset. -/
def System.awake (y : System) : System := { y with block := y.block.awake }

/-- The block's next move, in each sequencer state, with what it transfers. -/
def System.move (y : System) : Seq → System
  | .idle =>
    match y.cmds with
    | [] => y.awake
    | c :: rest => { y with block := y.block.awake.accept c, cmds := rest }
  | .decode => { y with block := y.block.awake.onDecode }
  | .step => { y with block := y.block.awake.onStep }
  | .fill => { y with block := y.block.awake.onItem y.nextItem, taken := y.taken + 1 }
  | .resp => { y with block := y.block.awake.onTaken, beats := y.beats ++ [y.block.beat] }
  | .dead => y.awake

/-- The next move of the system. -/
def System.advance (y : System) : System := y.move y.block.seq

/-- Whether an edge with these choices makes the move. -/
def System.moves (y : System) (e : Choice) : Seq → Bool
  | .idle => y.cmds.isEmpty || (!y.block.inReset && e.offerCmd)
  | .fill => e.offerItem
  | .resp => e.takeBeat
  | .decode | .step | .dead => true

/-- However the source shows it, an item offered is the next one (R42, R185). -/
theorem inputs_item (y : System) {e : Choice} (h : e.offerItem = true) :
    (y.inputs e).item = y.nextItem := by
  cases hn : y.nextItem with
  | byte v => simp [Inputs.item, System.inputs, h, hn]
  | endOfStream =>
    cases hw : e.endWires <;>
      simp [Inputs.item, System.inputs, h, hn, hw, EndWires.srcEos, EndWires.srcErr]

/-- An edge without reset, transfer by transfer. -/
theorem tick_of_no_rst (y : System) {e : Choice} (h : e.rst = false) :
    y.tick e = { y with
      block := y.block.edge (y.inputs e) y.block.seq
      taken := if y.block.seq = .fill ∧ e.offerItem = true then y.taken + 1 else y.taken
      cmds := if y.block.outputs.cmdReady && (y.inputs e).cmdValid then y.cmds.tail else y.cmds
      beats := if y.block.seq = .resp ∧ e.takeBeat = true then y.beats ++ [y.block.beat]
        else y.beats } := by
  have hr : (y.inputs e).rst = false := h
  simp only [System.tick, clock_eq_edge y.block hr, h]
  simp [Block.outputs, System.inputs]

/-- An edge without reset makes the move, or changes nothing but the reset flag. -/
theorem tick_eq (y : System) {e : Choice} (h : e.rst = false) :
    y.tick e = if y.moves e y.block.seq then y.advance else y.awake := by
  rw [tick_of_no_rst y h, System.advance]
  have hready : y.block.outputs.cmdReady = (decide (y.block.seq = .idle) && !y.block.inReset) := rfl
  have hvalid : (y.inputs e).cmdValid = (y.offeredCmd e).isSome := rfl
  have hcmd : (y.inputs e).cmd = (y.offeredCmd e).getD e.noise.cmd := rfl
  have hsrc : (y.inputs e).srcValid = e.offerItem := rfl
  have hrsp : (y.inputs e).rspReady = e.takeBeat := rfl
  cases hq : y.block.seq with
  | idle =>
    cases hc : y.cmds with
    | nil =>
      simp [Block.edge, System.moves, System.move, System.awake, hvalid, System.offeredCmd, hc]
    | cons c rest =>
      cases hi : y.block.inReset <;> cases ho : e.offerCmd <;>
        simp [Block.edge, System.moves, System.move, System.awake, hready, hvalid, hcmd,
          System.offeredCmd, hq, hc, hi, ho]
  | fill =>
    cases ho : e.offerItem with
    | true => simp [Block.edge, System.moves, System.move, hready, hsrc, hq, ho, inputs_item y ho]
    | false => simp [Block.edge, System.moves, System.awake, hready, hsrc, hq, ho]
  | resp =>
    cases ho : e.takeBeat <;>
      simp [Block.edge, System.moves, System.move, System.awake, hready, hrsp, hq, ho]
  | decode => simp [Block.edge, System.moves, System.move, hready, hq]
  | step => simp [Block.edge, System.moves, System.move, hready, hq]
  | dead => simp [Block.edge, System.moves, System.move, System.awake, hready, hq]

theorem advance_awake (y : System) : y.awake.advance = y.advance := rfl

/-- Systems that differ at most in the reset flag make the same move. -/
theorem advance_congr {y z : System} (h : y.awake = z.awake) : y.advance = z.advance :=
  (advance_awake y).symm.trans ((congrArg System.advance h).trans (advance_awake z))

theorem seq_of_awake {y z : System} (h : y.awake = z.awake) : y.block.seq = z.block.seq :=
  show y.awake.block.seq = z.awake.block.seq by rw [h]

theorem cmds_of_awake {y z : System} (h : y.awake = z.awake) : y.cmds = z.cmds :=
  show y.awake.cmds = z.awake.cmds by rw [h]

theorem beats_of_awake {y z : System} (h : y.awake = z.awake) : y.beats = z.beats :=
  show y.awake.beats = z.awake.beats by rw [h]

/-- The moves one after another. -/
def System.moved (y : System) : Nat → System
  | 0 => y
  | j + 1 => (y.moved j).advance

theorem moved_succ (y : System) (j : Nat) : y.moved (j + 1) = y.advance.moved j := by
  induction j with
  | zero => rfl
  | succ j ih => exact congrArg System.advance ih

theorem moved_congr {y z : System} (h : y.awake = z.awake) (j : Nat) :
    (y.moved j).awake = (z.moved j).awake := by
  cases j with
  | zero => exact h
  | succ j => rw [moved_succ, moved_succ, advance_congr h]

/-- A schedule without reset makes some of the moves, at most one at each edge. -/
theorem ticks_moved (y : System) {sched : List Choice} (h : ∀ e ∈ sched, e.rst = false) :
    ∃ j ≤ sched.length, (y.ticks sched).awake = (y.moved j).awake := by
  induction sched generalizing y with
  | nil => exact ⟨0, le_rfl, rfl⟩
  | cons e l ih =>
    obtain ⟨he, hl⟩ := List.forall_mem_cons.1 h
    obtain ⟨j, hj, heq⟩ := ih (y.tick e) hl
    rw [System.ticks, heq, tick_eq y he]
    split
    · exact ⟨j + 1, by simpa using hj, by rw [moved_succ]⟩
    · exact ⟨j, Nat.le_succ_of_le hj, moved_congr (y := y.awake) (z := y) rfl j⟩

/-- The same of an unbounded schedule. -/
theorem run_moved (y : System) {sched : Nat → Choice} (h : ∀ k, (sched k).rst = false) (k : Nat) :
    ∃ j ≤ k, ((y.run sched k).awake = (y.moved j).awake) := by
  induction k with
  | zero => exact ⟨0, le_rfl, rfl⟩
  | succ k ih =>
    obtain ⟨j, hj, heq⟩ := ih
    rw [System.run, tick_eq _ (h k)]
    split
    · exact ⟨j + 1, by omega, congrArg System.awake (advance_congr heq)⟩
    · exact ⟨j, by omega, heq⟩

/-- The last step of a numeric read offers ACC (R138). -/
theorem countStep_last {b : Block} (h : b.iter - 1 = 0) : b.countStep =
    { b with seq := .step, pending := .nothing, iter := b.iter - 1 }.offer ⟨.ok, true, b.acc⟩ :=
  if_pos h

/-- Every other step of a numeric read is counted (R138). -/
theorem countStep_more {b : Block} (h : b.iter - 1 ≠ 0) :
    b.countStep = { b with seq := .step, pending := .nothing, iter := b.iter - 1 } :=
  if_neg h

theorem bitStep_eos {b : Block} (h : b.eos = true) : b.bitStep = b.offerError .exhausted :=
  if_pos h

/-- The register writes of a bit step (R92, R94). -/
def Block.shiftBit (b : Block) : Block :=
  { b with cnt := b.cnt - 1, acc := shiftInBit b.acc (bitOf b.buf (b.cnt - 1).toNat) }

/-- A bit step that takes the last bit of BUF asks for the next item (R92). -/
theorem bitStep_fill {b : Block} (h : b.eos = false) (hc : b.cnt - 1 = 0) :
    b.bitStep = b.shiftBit.fillFor .bit :=
  (if_neg (by simp [h])).trans (if_pos hc)

/-- Every other bit step is finished at once (R92). -/
theorem bitStep_count {b : Block} (h : b.eos = false) (hc : b.cnt - 1 ≠ 0) :
    b.bitStep = b.shiftBit.countStep :=
  (if_neg (by simp [h])).trans (if_neg hc)

/-- The registers that every state but S_IDLE and S_FILL leaves as they are. -/
structure Block.Keeps (b c : Block) : Prop where
  opc : c.opc = b.opc
  eos : c.eos = b.eos
  inReset : c.inReset = b.inReset

theorem Block.Keeps.of_eq {b c d : Block} (h : c.Keeps d) (hopc : c.opc = b.opc)
    (heos : c.eos = b.eos) (hreset : c.inReset = b.inReset) : b.Keeps d :=
  ⟨h.opc.trans hopc, h.eos.trans heos, h.inReset.trans hreset⟩

theorem countStep_keeps (b : Block) : b.Keeps b.countStep := by
  by_cases h : b.iter - 1 = 0
  · rw [countStep_last h]
    exact ⟨rfl, rfl, rfl⟩
  · rw [countStep_more h]
    exact ⟨rfl, rfl, rfl⟩

theorem finishByte_keeps (b : Block) (x : Byte) : b.Keeps (b.finishByte x) := by
  unfold Block.finishByte
  split
  · exact ⟨rfl, rfl, rfl⟩
  · exact (countStep_keeps _).of_eq rfl rfl rfl

theorem onDecode_keeps (b : Block) : b.Keeps b.onDecode := by
  unfold Block.onDecode
  repeat' split
  all_goals exact ⟨rfl, rfl, rfl⟩

theorem bitStep_keeps (b : Block) : b.Keeps b.bitStep := by
  cases he : b.eos with
  | true => rw [bitStep_eos he]; exact ⟨rfl, rfl, rfl⟩
  | false =>
    by_cases hc : b.cnt - 1 = 0
    · rw [bitStep_fill he hc]
      exact ⟨rfl, rfl, rfl⟩
    · rw [bitStep_count he hc]
      exact (countStep_keeps _).of_eq rfl rfl rfl

theorem byteStep_keeps (b : Block) : b.Keeps b.byteStep := by
  unfold Block.byteStep
  repeat' split
  all_goals exact ⟨rfl, rfl, rfl⟩

theorem onStep_keeps (b : Block) : b.Keeps b.onStep := by
  unfold Block.onStep
  split
  · exact countStep_keeps b
  · exact finishByte_keeps b _
  · split
    · exact ⟨rfl, rfl, rfl⟩
    · exact (finishByte_keeps _ _).of_eq rfl rfl rfl
  all_goals
    split
    · exact byteStep_keeps b
    · exact bitStep_keeps b

/-- An item changes neither OPC nor the reset flag. -/
theorem onItem_keeps (b : Block) (item : SrcItem) :
    (b.onItem item).opc = b.opc ∧ (b.onItem item).inReset = b.inReset := by
  unfold Block.onItem
  cases item <;> cases b.pending <;> exact ⟨rfl, rfl⟩

theorem onTaken_keeps (b : Block) : b.Keeps b.onTaken := by
  unfold Block.onTaken
  split <;> exact ⟨rfl, rfl, rfl⟩

/-- After a move the block is released from reset. -/
theorem advance_inReset (y : System) : y.advance.block.inReset = false := by
  unfold System.advance
  cases y.block.seq with
  | idle => cases hc : y.cmds <;> simp only [System.move, hc] <;> rfl
  | decode => exact (onDecode_keeps y.block.awake).inReset
  | step => exact (onStep_keeps y.block.awake).inReset
  | fill => exact (onItem_keeps y.block.awake _).2
  | resp => exact (onTaken_keeps y.block.awake).inReset
  | dead => rfl

/-- An edge with everyone ready makes the move of a block released from reset. -/
theorem tick_prompt {y : System} (h : y.block.inReset = false) :
    y.tick promptChoice = y.advance := by
  have hm : y.moves promptChoice y.block.seq = true := by
    cases y.block.seq <;> simp [System.moves, promptChoice, h]
  rw [tick_eq y rfl, if_pos hm]

theorem prompt_moved {y : System} (h : y.block.inReset = false) (k : Nat) :
    y.prompt k = y.moved k := by
  induction k generalizing y with
  | zero => rfl
  | succ k ih =>
    rw [moved_succ, ← ih (advance_inReset y), ← tick_prompt h]
    rfl

end Sys2Proof.Machine.Signal
end

section
/-! What a step does to a state is independent of ACC, ACC apart (spec/10_state.md R28). -/

namespace Sys2Proof.Machine

/-- The outcome of a step, ACC apart. -/
def forgetAccOf : Host.Outcome State Fault Refusal → Host.Outcome State Fault Refusal
  | .next t => .next t.forgetAcc
  | .fault r => .fault r
  | .refused r => .refused r

theorem lazyInit_withAcc (s : State) (a : Data) :
    lazyInit { s with acc := a } = { lazyInit s with acc := a } := by
  by_cases hu : s.phase = .unopened
  · rw [lazyInit_of_unopened hu, lazyInit_of_unopened (s := { s with acc := a }) hu, refill_withAcc]
  · rw [lazyInit_of_initialised hu, lazyInit_of_initialised (s := { s with acc := a }) hu]

theorem textBeat_withAcc (s : State) (a : Data) :
    (textBeat { s with acc := a }).forgetAcc = (textBeat s).forgetAcc := by
  obtain ⟨x, u, hx, h⟩ | ⟨u, hx, h⟩ := textBeat_cases s <;>
    rw [h, textBeat, byte1_withAcc, hx] <;> rfl

theorem exec_withAcc (i : Instr) (s : State) (a : Data) :
    forgetAccOf (exec i { s with acc := a }) = forgetAccOf (exec i s) := by
  by_cases hi : i = .close
  · subst hi
    by_cases hu : s.phase = .unopened
    · rw [exec_close_unopened hu, exec_close_unopened (s := { s with acc := a }) hu]
    · by_cases ho : s.phase = .opened
      · rw [exec_close_opened ho, exec_close_opened (s := { s with acc := a }) ho]
        rfl
      · have hp : s.phase = .closed := by cases h : s.phase <;> simp_all
        rw [exec_close_closed hp, exec_close_closed (s := { s with acc := a }) hp]
        rfl
  · by_cases hp : s.phase = .closed
    · rw [exec_closed hi hp, exec_closed (s := { s with acc := a }) hi hp]
    · have hp' : ({ s with acc := a } : State).phase ≠ .closed := hp
      obtain ⟨w, hw⟩ | hf | rfl | rfl | rfl := readWidth_or i
      · obtain ⟨-, -, hex⟩ | ⟨k, -, -, -, hex⟩ := exec_of_readWidth hw
        · rw [hex, hex, unlessClosed_next hp, unlessClosed_next hp', lazyInit_withAcc]
          rfl
        · rw [hex, hex, unlessClosed_next hp, unlessClosed_next hp', lazyInit_withAcc]
          rfl
      · rw [exec_illFormed hf hp, exec_illFormed hf hp']
        rfl
      · rw [exec_isAtEnd hp, exec_isAtEnd hp', lazyInit_withAcc]
        rfl
      · rw [exec_readText hp, exec_readText hp', lazyInit_withAcc]
        by_cases he : (lazyInit s).eos = true
        · rw [if_pos he, if_pos (show (lazyInit s).eos = true from he)]
          rfl
        · rw [if_neg he, if_neg (show ¬ (lazyInit s).eos = true from he)]
          exact congrArg Host.Outcome.next (textBeat_withAcc (lazyInit s) a)
      · exact absurd rfl hi

/-- What a command word does, once it has been taken (R72). -/
def execWord (c : CmdWord) (s : State) : Host.Outcome State Fault Refusal :=
  match decode c with
  | .ok i => exec i s
  | .error _ => execReserved s

theorem execWord_ok {c : CmdWord} {i : Instr} (h : decode c = .ok i) (s : State) :
    execWord c s = exec i s := by
  rw [execWord, h]

theorem execWord_error {c : CmdWord} {e : Reserved} (h : decode c = .error e) (s : State) :
    execWord c s = execReserved s := by
  rw [execWord, h]

theorem step_of_word {s : State} {c : CmdWord} {rest : List CmdWord} (hi : s.inText = false)
    (hc : s.cmds = c :: rest) : step s = execWord c { s with cmds := rest } := by
  cases hd : decode c with
  | ok i => rw [execWord_ok hd, step_of_decode_ok hi hc hd]
  | error e => rw [execWord_error hd, step_of_decode_error hi hc hd]

theorem execWord_withAcc (c : CmdWord) (s : State) (a : Data) :
    forgetAccOf (execWord c { s with acc := a }) = forgetAccOf (execWord c s) := by
  cases hd : decode c with
  | ok i => rw [execWord_ok hd, execWord_ok hd, exec_withAcc]
  | error e =>
    rw [execWord_error hd, execWord_error hd]
    by_cases hp : s.phase = .closed
    · rw [execReserved_closed hp, execReserved_closed (s := { s with acc := a }) hp]
    · rw [execReserved_next hp, execReserved_next (s := { s with acc := a }) hp]
      rfl

end Sys2Proof.Machine
end

section
/-! The reference design and the steps (spec/45_sequencing_and_arithmetic.md R138, R140). While a
command runs, the block stands at a stage of it, and the registers tell what the transaction-level
step will have done when the block is through, `Doing`. Every move keeps that outcome. -/

namespace Sys2Proof.Machine.Signal

/-- The loop of a command (R134): bit steps, byte steps, or READ_TEXT's turn. -/
inductive Loop where
  | bits
  | bytes
  | text

/-- What is left of a loop with `k` steps to go. -/
def Loop.rest (l : Loop) (k : Nat) (s : State) : State :=
  match l with
  | .bits => finish (shiftBits k s)
  | .bytes => finish (shiftBytes k s)
  | .text => textBeat s

/-- What is left once a byte step has its byte, with `k` steps to go before it. -/
def Loop.byteDone (l : Loop) (k : Nat) (x : Byte) (s : State) : State :=
  match l with
  | .text => (s.emit ⟨.ok, s.eos, byteData x⟩).withText (!s.eos)
  | .bits | .bytes => l.rest (k - 1) { s with acc := shiftInByte s.acc x }

/-- What is left after the refill a step waited for, with `k` steps to go before that step. -/
def Pending.done (p : Pending) (l : Loop) (k : Nat) (s : State) : State :=
  match p with
  | .bit => l.rest (k - 1) s
  | .wholeByte x => l.byteDone k x s
  | .splitByte n hi =>
    if s.eos then raiseError .exhausted s
    else l.byteDone k (joinByte hi n.toNat s.buf) { s with cnt := n }
  | .nothing | .initial => s

/-- The step that waits is one of the loop's. -/
def Pending.Fits (p : Pending) (l : Loop) : Prop :=
  match p with
  | .bit => l = .bits
  | .wholeByte _ | .splitByte _ _ => l ≠ .bits
  | .nothing | .initial => False

/-- The loop of the command in OPC. -/
def Block.loop (b : Block) : Loop :=
  if b.isText then .text else if b.stepsAreBytes then .bytes else .bits

/-- The transaction-level state the system's registers and lists show. -/
def System.stateWith (y : System) (b : Block) : State where
  buf := b.buf
  cnt := b.cnt
  eos := b.eos
  phase := b.phase
  acc := b.acc
  srcClose := b.srcClose
  inText := false
  src := y.src
  origin := y.origin
  taken := y.taken
  cmds := y.cmds
  beats := y.beats
  past := y.past

/-- Where a command stands. -/
inductive Stage where
  | decode
  /-- LazyInit's refill. -/
  | initial
  /-- `k` steps to go, the next one not begun. -/
  | fresh (k : Nat)
  /-- `k` steps to go, the next one waiting for its item. -/
  | filling (k : Nat)
  /-- `k` steps to go, the next one with its item. -/
  | filled (k : Nat)
  /-- A beat offered. -/
  | respond (last : Bool)

/-- The block `b` is at a stage of a command which, with the registers and lists of `s`, will have
the outcome `o`. -/
inductive Doing (b : Block) (s : State) : Stage → Host.Outcome State Fault Refusal → Prop
  | decode (hq : b.seq = .decode) (hp : b.pending = .nothing) :
      Doing b s .decode (execWord b.opc s)
  | initial (hq : b.seq = .fill) (hp : b.pending = .initial) (hu : b.phase = .unopened) :
      Doing b s .initial (execWord b.opc { refill s with phase := .opened })
  | fresh {k : Nat} (hq : b.seq = .step) (hp : b.pending = .nothing) (hk : b.iter.toNat = k)
      (h1 : 1 ≤ k) : Doing b s (.fresh k) (.next (b.loop.rest k s))
  | filling {k : Nat} (hq : b.seq = .fill) (hp : b.pending.Fits b.loop) (hk : b.iter.toNat = k)
      (h1 : 1 ≤ k) (he : b.eos = false) :
      Doing b s (.filling k) (.next (b.pending.done b.loop k (refill s)))
  | filled {k : Nat} (hq : b.seq = .step) (hp : b.pending.Fits b.loop) (hk : b.iter.toNat = k)
      (h1 : 1 ≤ k) : Doing b s (.filled k) (.next (b.pending.done b.loop k s))
  | respond (hq : b.seq = .resp) (hp : b.pending = .nothing)
      (hl : b.beat.last = false → b.loop = .text) :
      Doing b s (.respond b.beat.last) (.next ((s.emit b.beat).withText (!b.beat.last)))

/-- The system is at a stage of a command with the outcome `o`, ACC apart. -/
def System.Does (y : System) (st : Stage) (o : Host.Outcome State Fault Refusal) : Prop :=
  y.block.inReset = false ∧
    ∃ o', Doing y.block (y.stateWith y.block) st o' ∧ forgetAccOf o' = forgetAccOf o

theorem isText_iff {b : Block} : b.isText = true ↔ decode b.opc = .ok .readText := by
  unfold Block.isText
  split <;> simp_all

theorem loop_of_text {b : Block} (h : decode b.opc = .ok .readText) : b.loop = .text := by
  rw [Block.loop, if_pos (isText_iff.2 h)]

theorem isText_of_loop {b : Block} : b.isText = true ↔ b.loop = .text := by
  unfold Block.loop
  split
  · simp [*]
  · split <;> simp [*]

theorem stepsAreBytes_iff {b : Block} : b.stepsAreBytes = true ↔ b.loop ≠ .bits := by
  by_cases h : b.isText = true
  · have hb : b.stepsAreBytes = true := by
      rw [Block.stepsAreBytes, isText_iff.1 h]
      rfl
    simp [hb, isText_of_loop.1 h]
  · rw [Block.loop, if_neg h]
    split <;> simp [*]

/-- The loop of a kind of steps. -/
def StepKind.loop : StepKind → Loop
  | .bits => .bits
  | .bytes => .bytes

theorem loop_of_stepsOf {b : Block} {i : Instr} {kind : StepKind} {k : Nat}
    (hd : decode b.opc = .ok i) (hi : i ≠ .readText) (h : stepsOf i = some (kind, k)) :
    b.loop = kind.loop := by
  have ht : ¬ b.isText = true := fun ht => hi (Except.ok.inj (hd.symm.trans (isText_iff.1 ht)))
  rw [Block.loop, if_neg ht, Block.stepsAreBytes, hd]
  cases kind <;> simp [h, StepKind.loop]

/-- The number of steps of a legal read, and its meaning as its loop (R134). -/
theorem exec_of_stepsOf {i : Instr} {kind : StepKind} {k : Nat} (hw : i.wellFormed = true)
    (hi : i ≠ .readText) (h : stepsOf i = some (kind, k)) :
    1 ≤ k ∧ k ≤ 32 ∧ ∀ s, exec i s =
      unlessClosed s fun s => kind.loop.rest k { lazyInit s with acc := 0 } := by
  cases i with
  | isAtEnd => cases h
  | readText => exact absurd rfl hi
  | close => cases h
  | readBits w =>
    obtain ⟨rfl, rfl⟩ : StepKind.bits = kind ∧ w.toNat = k := by simpa [stepsOf, widthOf] using h
    obtain ⟨h1, h32⟩ := legalBitsWidth_iff.1 hw
    refine ⟨h1, h32, fun s => ?_⟩
    have hl : legalBitsWidth w = true := hw
    simp only [exec, execReadBits, hl, if_true]
    rfl
  | readChar w =>
    have hl : legalCharWidth w = true := hw
    obtain ⟨h1, h16⟩ := legalCharWidth_iff.1 hl
    by_cases h8 : w.toNat = 8
    · obtain ⟨rfl, rfl⟩ : StepKind.bytes = kind ∧ 1 = k := by simpa [stepsOf, widthOf, h8] using h
      refine ⟨le_rfl, by omega, fun s => ?_⟩
      simp only [exec, execReadChar, hl, widthOf, h8, if_true]
      rfl
    · obtain ⟨rfl, rfl⟩ : StepKind.bits = kind ∧ w.toNat = k := by
        simpa [stepsOf, widthOf, h8] using h
      refine ⟨h1, by omega, fun s => ?_⟩
      simp only [exec, execReadChar, hl, widthOf, h8, if_true, if_false]
      rfl
  | _ =>
    obtain ⟨rfl, rfl⟩ := Prod.mk.inj (Option.some.inj h)
    exact ⟨by decide, by decide, fun s => rfl⟩

/-- A loop entered at end raises at once (R95, R110, R122). -/
theorem rest_of_eos (l : Loop) {k : Nat} {s : State} (hk : 1 ≤ k) (he : s.eos = true)
    (hi : s.inText = false) : l.rest k s = raiseError .exhausted s := by
  cases l with
  | bits => exact congrArg finish (shiftBits_atEnd he (by omega))
  | bytes => exact congrArg finish (shiftBytes_atEnd he (by omega))
  | text =>
    rw [Loop.rest, textBeat, byte1_atEnd he]
    exact State.withText_eq_self (s := raiseError .exhausted s) hi

/-- A bit step that takes the last bit of BUF, in its loop (R92). -/
theorem rest_bits_fill {k : Nat} {s : State} (he : s.eos = false) (hc : s.cnt - 1 = 0) :
    Loop.bits.rest (k + 1) s = Loop.bits.rest k (refill { s with
      cnt := s.cnt - 1, acc := shiftInBit s.acc (bitOf s.buf (s.cnt - 1).toNat) }) := by
  have hb : bit1 s = (.got (bitOf s.buf (s.cnt - 1).toNat), refill s) := by
    rw [bit1, if_neg (by simp [he])]
    dsimp only
    rw [if_pos hc, refill_withCnt]
  rw [refill_withCntAcc, Loop.rest, shiftBits_got hb, refill_acc]
  rfl

/-- Every other bit step, in its loop (R92). -/
theorem rest_bits_count {k : Nat} {s : State} (he : s.eos = false) (hc : s.cnt - 1 ≠ 0) :
    Loop.bits.rest (k + 1) s = Loop.bits.rest k { s with
      cnt := s.cnt - 1, acc := shiftInBit s.acc (bitOf s.buf (s.cnt - 1).toNat) } := by
  have hb : bit1 s = (.got (bitOf s.buf (s.cnt - 1).toNat), { s with cnt := s.cnt - 1 }) := by
    simp only [bit1, he, hc, Bool.false_eq_true, if_false]
  rw [Loop.rest, shiftBits_got hb]
  rfl

/-- An aligned byte step, in its loop or turn (R100). -/
theorem rest_wholeByte {l : Loop} {k : Nat} {s : State} (hl : l ≠ .bits) (hk : 1 ≤ k)
    (he : s.eos = false) (hc : s.cnt = 8#4) :
    l.rest k s = (Pending.wholeByte s.buf).done l k (refill s) := by
  obtain ⟨k, rfl⟩ := Nat.exists_eq_add_of_le' hk
  have hb := byte1_aligned he hc
  cases l with
  | bits => exact absurd rfl hl
  | bytes => exact congrArg finish (shiftBytes_got hb k)
  | text => rw [Loop.rest, textBeat, hb]; rfl

/-- An unaligned byte step, in its loop or turn (R100, R101). -/
theorem rest_splitByte {l : Loop} {k : Nat} {s : State} (hl : l ≠ .bits) (hk : 1 ≤ k)
    (he : s.eos = false) (hc : s.cnt ≠ 8#4) (hi : s.inText = false) :
    l.rest k s = (Pending.splitByte s.cnt (lowBits s.buf s.cnt.toNat)).done l k (refill s) := by
  obtain ⟨k, rfl⟩ := Nat.exists_eq_add_of_le' hk
  obtain ⟨he', -⟩ | ⟨-, h8, -⟩ | ⟨-, -, hr, hb⟩ | ⟨-, -, hr, hb⟩ := byte1_cases s
  · simp [he] at he'
  · exact absurd h8 hc
  · rw [Pending.done, if_pos hr]
    cases l with
    | bits => exact absurd rfl hl
    | bytes => exact congrArg finish (shiftBytes_exhausted hb k)
    | text =>
      rw [Loop.rest, textBeat, hb]
      exact State.withText_eq_self (s := raiseError .exhausted (refill s))
        ((refill_inText s).trans hi)
  · rw [Pending.done, if_neg (by simp [hr])]
    cases l with
    | bits => exact absurd rfl hl
    | bytes => exact congrArg finish (shiftBytes_got hb k)
    | text => rw [Loop.rest, textBeat, hb]; rfl

end Sys2Proof.Machine.Signal
end

section
/-! The moves of a running command lead from stage to stage and keep its outcome
(spec/45_sequencing_and_arithmetic.md R138, R140). -/

namespace Sys2Proof.Machine.Signal

/-- Which stage a move of a running command may lead to, by the registers before the move. -/
inductive Stage.Next (p : Phase) (l : Loop) (e : Bool) : Stage → Stage → Prop
  | answer (h : l = .text → p ≠ .unopened ∧ e = true) : Next p l e .decode (.respond true)
  | initialise (hu : p = .unopened) : Next p l e .decode .initial
  | begin {k : Nat} (hk : k ≤ 32) (ho : p = .opened) (he : e = false) :
      Next p l e .decode (.fresh k)
  | opened : Next p l e .initial .decode
  | finish {k : Nat} (h : l = .text → e = true) : Next p l e (.fresh k) (.respond true)
  | count {k : Nat} (hl : l = .bits) : Next p l e (.fresh (k + 1)) (.fresh k)
  | ask {k : Nat} (he : e = false) : Next p l e (.fresh k) (.filling k)
  | item {k : Nat} : Next p l e (.filling k) (.filled k)
  | result {k : Nat} (h : l = .text → e = true) : Next p l e (.filled k) (.respond true)
  | counted {k : Nat} (hl : l ≠ .text) : Next p l e (.filled (k + 1)) (.fresh k)
  | unit {k : Nat} (hl : l = .text) (he : e = false) : Next p l e (.filled k) (.respond false)

/-- The block has moved from the stage `st` on, with the same outcome `o`. -/
def Moved (y : System) (b b' : Block) (st : Stage) (o : Host.Outcome State Fault Refusal) : Prop :=
  ∃ st', Stage.Next b.phase b.loop b.eos st st' ∧ Doing b' (y.stateWith b') st' o

/-- An error is answered by its one beat (R68, R157). -/
theorem offerError_doing (y : System) (b : Block) (k : ErrorKind) :
    Doing (b.offerError k) (y.stateWith (b.offerError k)) (.respond true)
      (.next (raiseError k (y.stateWith b))) :=
  .respond rfl rfl (fun h => Bool.noConfusion h)

/-- A finished step of a numeric read is the last, or leaves one step less (R138). -/
theorem countStep_doing (y : System) {b : Block} {k : Nat} (hl : b.loop ≠ .text)
    (hk : b.iter.toNat = k + 1) :
    ∃ st, (st = .respond true ∨ st = .fresh k) ∧ Doing b.countStep (y.stateWith b.countStep) st
      (.next (b.loop.rest k (y.stateWith b))) := by
  have hleft : (b.iter - 1).toNat = k := by
    rw [BitVec.toNat_sub_of_le (by rw [BitVec.le_def, hk]; exact Nat.le_add_left 1 k), hk]
    rfl
  by_cases h0 : b.iter - 1 = 0
  · obtain rfl : k = 0 := by rw [← hleft, h0]; rfl
    have hrest : b.loop.rest 0 (y.stateWith b) = (y.stateWith b).respond .ok b.acc := by
      cases hb : b.loop with
      | text => exact absurd hb hl
      | bits => rfl
      | bytes => rfl
    rw [hrest, countStep_last h0]
    exact ⟨_, .inl rfl, .respond rfl rfl (fun h => Bool.noConfusion h)⟩
  · have h1 : 1 ≤ k := by
      by_contra hlt
      exact h0 (BitVec.eq_of_toNat_eq (hleft.trans (by simpa using hlt)))
    rw [countStep_more h0]
    exact ⟨_, .inr rfl, .fresh rfl rfl hleft h1⟩

/-- A finished byte step, of READ_TEXT or of a numeric read (R138). -/
theorem finishByte_moved (y : System) {b : Block} {k : Nat} (x : Byte)
    (hk : b.iter.toNat = k) (h1 : 1 ≤ k) :
    Moved y b (b.finishByte x) (.filled k) (.next (b.loop.byteDone k x (y.stateWith b))) := by
  obtain ⟨k, rfl⟩ := Nat.exists_eq_add_of_le' h1
  by_cases ht : b.isText = true
  · have hlt := isText_of_loop.1 ht
    have hf : b.finishByte x = b.offer ⟨.ok, b.eos, byteData x⟩ := if_pos ht
    rw [hf, hlt]
    refine ⟨.respond b.eos, ?_, .respond rfl rfl fun _ => hlt⟩
    cases he : b.eos with
    | true => exact .result fun _ => rfl
    | false => exact .unit hlt rfl
  · have hlt : b.loop ≠ .text := fun h => ht (isText_of_loop.2 h)
    have hf : b.finishByte x = { b with acc := shiftInByte b.acc x }.countStep := if_neg ht
    have hdone : b.loop.byteDone (k + 1) x (y.stateWith b) =
        b.loop.rest k { y.stateWith b with acc := shiftInByte b.acc x } := by
      cases hb : b.loop with
      | text => exact absurd hb hlt
      | bits => rfl
      | bytes => rfl
    rw [hf, hdone]
    obtain ⟨st, rfl | rfl, hst⟩ :=
      countStep_doing y (b := { b with acc := shiftInByte b.acc x }) hlt hk
    · exact ⟨_, .result fun h => absurd h hlt, hst⟩
    · exact ⟨_, .counted hlt, hst⟩

/-- S_STEP with a step that has its item (R138). -/
theorem Doing.onStep_filled {y : System} {b : Block} {k : Nat}
    {o : Host.Outcome State Fault Refusal} (h : Doing b (y.stateWith b) (.filled k) o) :
    Moved y b b.onStep (.filled k) o := by
  obtain _ | _ | _ | _ | ⟨-, hp, hk, h1⟩ | _ := h
  cases hpend : b.pending with
  | nothing => simp [hpend, Pending.Fits] at hp
  | initial => simp [hpend, Pending.Fits] at hp
  | bit =>
    have hl : b.loop = .bits := by simpa [hpend, Pending.Fits] using hp
    have hlt : b.loop ≠ .text := by simp [hl]
    have hstep : b.onStep = b.countStep := by rw [Block.onStep, hpend]
    obtain ⟨k, rfl⟩ := Nat.exists_eq_add_of_le' h1
    obtain ⟨st, rfl | rfl, hst⟩ := countStep_doing y hlt hk <;> rw [← hstep] at hst
    · exact ⟨_, .result fun h => absurd h hlt, hst⟩
    · exact ⟨_, .counted hlt, hst⟩
  | wholeByte x =>
    have hstep : b.onStep = b.finishByte x := by rw [Block.onStep, hpend]
    rw [hstep]
    exact finishByte_moved y x hk h1
  | splitByte n hi =>
    have hstep : b.onStep = if b.eos then b.offerError .exhausted
        else { b with cnt := n }.finishByte (joinByte hi n.toNat b.buf) := by
      rw [Block.onStep, hpend]
    rw [hstep, Pending.done]
    by_cases he : b.eos = true
    · rw [if_pos he, if_pos (show (y.stateWith b).eos = true from he)]
      exact ⟨_, .result fun _ => he, offerError_doing y b .exhausted⟩
    · rw [if_neg he, if_neg (show ¬ (y.stateWith b).eos = true from he)]
      exact finishByte_moved y (b := { b with cnt := n }) _ hk h1

/-- A fresh bit step (R92). -/
theorem bitStep_moved (y : System) {b : Block} {k : Nat} (hl : b.loop = .bits)
    (he : b.eos = false) (hk : b.iter.toNat = k + 1) :
    Moved y b b.bitStep (.fresh (k + 1)) (.next (b.loop.rest (k + 1) (y.stateWith b))) := by
  have hes : (y.stateWith b).eos = false := he
  have hlt : b.loop ≠ .text := by simp [hl]
  rw [hl]
  by_cases hc : b.cnt - 1 = 0
  · rw [bitStep_fill he hc, rest_bits_fill hes hc, ← hl]
    exact ⟨_, .ask he, .filling rfl hl hk (Nat.le_add_left 1 k) he⟩
  · rw [bitStep_count he hc, rest_bits_count hes hc, ← hl]
    obtain ⟨st, rfl | rfl, hst⟩ := countStep_doing y (b := b.shiftBit) hlt hk
    · exact ⟨_, .finish fun h => absurd h hlt, hst⟩
    · exact ⟨_, .count hl, hst⟩

/-- A fresh byte step (R100). -/
theorem byteStep_moved (y : System) {b : Block} {k : Nat} (hl : b.loop ≠ .bits)
    (he : b.eos = false) (hk : b.iter.toNat = k) (h1 : 1 ≤ k) :
    Moved y b b.byteStep (.fresh k) (.next (b.loop.rest k (y.stateWith b))) := by
  have hes : (y.stateWith b).eos = false := he
  rw [Block.byteStep, if_neg (by simp [he])]
  by_cases hc : b.cnt = 8#4
  · rw [if_pos hc, rest_wholeByte hl h1 hes hc]
    exact ⟨_, .ask he, .filling rfl hl hk h1 he⟩
  · rw [if_neg hc, rest_splitByte hl h1 hes hc rfl]
    exact ⟨_, .ask he, .filling rfl hl hk h1 he⟩

/-- S_STEP with a step not begun (R138). -/
theorem Doing.onStep_fresh {y : System} {b : Block} {k : Nat}
    {o : Host.Outcome State Fault Refusal} (h : Doing b (y.stateWith b) (.fresh k) o) :
    Moved y b b.onStep (.fresh k) o := by
  obtain _ | _ | ⟨-, hp, hk, h1⟩ | _ | _ | _ := h
  have hstep : b.onStep = if b.stepsAreBytes then b.byteStep else b.bitStep := by
    rw [Block.onStep, hp]
  have hes : (y.stateWith b).eos = b.eos := rfl
  rw [hstep]
  cases he : b.eos with
  | true =>
    rw [rest_of_eos _ h1 (hes.trans he) rfl]
    have hraise : (if b.stepsAreBytes then b.byteStep else b.bitStep) =
        b.offerError .exhausted := by
      rw [Block.byteStep, if_pos he, bitStep_eos he, ite_self]
    rw [hraise]
    exact ⟨_, .finish fun _ => he, offerError_doing y b .exhausted⟩
  | false =>
    by_cases hl : b.loop = .bits
    · obtain ⟨k, rfl⟩ := Nat.exists_eq_add_of_le' h1
      rw [if_neg (fun h => stepsAreBytes_iff.1 h hl)]
      exact bitStep_moved y hl he hk
    · rw [if_pos (stepsAreBytes_iff.2 hl)]
      exact byteStep_moved y hl he hk h1

end Sys2Proof.Machine.Signal
end

section
/-! S_DECODE against the order of R72 (spec/45_sequencing_and_arithmetic.md R138). -/

namespace Sys2Proof.Machine.Signal

/-- In CLOSED everything but CLOSE is a misuse (R125). -/
theorem onDecode_closed {b : Block} (hp : b.phase = .closed) (h : decode b.opc ≠ .ok .close) :
    b.onDecode = { b with seq := .dead } := by
  unfold Block.onDecode
  rw [hp]
  split <;> simp_all

theorem onDecode_close_closed {b : Block} (hp : b.phase = .closed)
    (h : decode b.opc = .ok .close) : b.onDecode = b.offer ⟨.ok, true, 0⟩ := by
  unfold Block.onDecode
  rw [hp, h]

theorem onDecode_close_opened {b : Block} (hp : b.phase = .opened)
    (h : decode b.opc = .ok .close) :
    b.onDecode = { b with phase := .closed, srcClose := true }.offer ⟨.ok, true, 0⟩ := by
  unfold Block.onDecode
  rw [hp, h]

theorem onDecode_close_unopened {b : Block} (hp : b.phase = .unopened)
    (h : decode b.opc = .ok .close) : b.onDecode = { b with seq := .dead } := by
  unfold Block.onDecode
  rw [hp, h]

theorem onDecode_error {b : Block} {e : Reserved} (hp : b.phase ≠ .closed)
    (h : decode b.opc = .error e) : b.onDecode = b.offerError .invalid := by
  unfold Block.onDecode
  rw [h]
  cases hp' : b.phase with
  | closed => exact absurd hp' hp
  | unopened => rfl
  | opened => rfl

theorem onDecode_unopened {b : Block} {i : Instr} (hp : b.phase = .unopened)
    (h : decode b.opc = .ok i) (hi : i ≠ .close) :
    b.onDecode = if i.wellFormed then b.fillFor .initial else b.offerError .invalid := by
  unfold Block.onDecode
  rw [hp, h]
  cases i with
  | close => exact absurd rfl hi
  | _ => rfl

/-- What S_DECODE does with a legal command in OPEN: IS_AT_END is answered, a read begins unless the
block is at end. -/
def Block.dispatch (b : Block) (steps : Option (StepKind × Nat)) : Block :=
  match steps with
  | none => b.offer ⟨.ok, true, flagData b.eos⟩
  | some (_, k) =>
    if b.eos then b.offerError .exhausted
    else { b with seq := .step, iter := BitVec.ofNat 6 k, acc := 0 }

theorem onDecode_opened {b : Block} {i : Instr} (hp : b.phase = .opened)
    (h : decode b.opc = .ok i) (hi : i ≠ .close) :
    b.onDecode = if i.wellFormed then b.dispatch (stepsOf i) else b.offerError .invalid := by
  unfold Block.onDecode Block.dispatch
  rw [hp, h]
  cases i with
  | close => exact absurd rfl hi
  | _ => rfl

theorem onDecode_illFormed {b : Block} {i : Instr} (hp : b.phase ≠ .closed)
    (h : decode b.opc = .ok i) (hf : i.wellFormed = false) :
    b.onDecode = b.offerError .invalid := by
  have hi : i ≠ .close := fun hi => by rw [hi] at hf; cases hf
  cases hp' : b.phase with
  | closed => exact absurd hp' hp
  | unopened => rw [onDecode_unopened hp' h hi, if_neg (by simp [hf])]
  | opened => rw [onDecode_opened hp' h hi, if_neg (by simp [hf])]

theorem dispatch_raise {b : Block} {kind : StepKind} {k : Nat} (he : b.eos = true) :
    b.dispatch (some (kind, k)) = b.offerError .exhausted := if_pos he

theorem dispatch_begin {b : Block} {kind : StepKind} {k : Nat} (he : b.eos = false) :
    b.dispatch (some (kind, k)) = { b with seq := .step, iter := BitVec.ofNat 6 k, acc := 0 } :=
  if_neg (by simp [he])

/-- What S_DECODE can lead to: a fault of the command, or its first stage after decoding, with the
same outcome but for ACC, which a read clears. -/
def Decoded (y : System) (b b' : Block) (o : Host.Outcome State Fault Refusal) : Prop :=
  (b'.seq = .dead ∧ ∃ r, o = .fault r) ∨
    ∃ o', Moved y b b' .decode o' ∧ forgetAccOf o' = forgetAccOf o

/-- The loop of a command other than READ_TEXT is not READ_TEXT's. -/
theorem loop_ne_text {b : Block} (h : decode b.opc ≠ .ok .readText) : b.loop ≠ .text :=
  fun ht => h (isText_iff.1 (isText_of_loop.2 ht))

/-- A beat offered in S_DECODE is the whole answer. -/
theorem Decoded.of_offer (y : System) {b b' : Block} {beat : Beat} (hl : beat.last = true)
    (h : b.loop = .text → b.phase ≠ .unopened ∧ b.eos = true) :
    Decoded y b (b'.offer beat) (.next ((y.stateWith b').emit beat)) := by
  obtain ⟨st, last, data⟩ := beat
  obtain rfl : last = true := hl
  exact .inr ⟨_, ⟨_, .answer h, .respond rfl rfl (fun h => Bool.noConfusion h)⟩, rfl⟩

theorem Decoded.of_answer (y : System) {b b' : Block} {beat : Beat}
    (h : decode b.opc ≠ .ok .readText) (hl : beat.last = true) :
    Decoded y b (b'.offer beat) (.next ((y.stateWith b').emit beat)) :=
  .of_offer y hl fun ht => absurd ht (loop_ne_text h)

/-- A read not at end in OPEN begins with its first step (R138). -/
theorem Decoded.of_begin (y : System) {b : Block} {kind : StepKind} {k : Nat}
    {o : Host.Outcome State Fault Refusal} (hp : b.phase = .opened) (he : b.eos = false)
    (hpend : b.pending = .nothing) (h1 : 1 ≤ k) (h32 : k ≤ 32)
    (ho : forgetAccOf (.next (b.loop.rest k { y.stateWith b with acc := 0 })) = forgetAccOf o) :
    Decoded y b (b.dispatch (some (kind, k))) o := by
  have hk : (BitVec.ofNat 6 k).toNat = k :=
    Nat.mod_eq_of_lt (Nat.lt_of_le_of_lt h32 (by decide))
  rw [dispatch_begin he]
  exact .inr ⟨_, ⟨_, .begin h32 hp he, .fresh rfl hpend hk h1⟩, ho⟩

/-- IS_AT_END alone of the commands but CLOSE has no steps (R134). -/
theorem eq_isAtEnd_of_stepsOf {i : Instr} (hi : i ≠ .close) (h : stepsOf i = none) :
    i = .isAtEnd := by
  cases i with
  | isAtEnd => rfl
  | close => exact absurd rfl hi
  | readChar w =>
    rw [stepsOf] at h
    split at h <;> cases h
  | _ => cases h

theorem decoded_readText (y : System) {b : Block} (hp : b.phase = .opened)
    (hd : decode b.opc = .ok .readText) (hpend : b.pending = .nothing) :
    Decoded y b b.onDecode (exec .readText (y.stateWith b)) := by
  have hs : (y.stateWith b).phase = .opened := hp
  rw [onDecode_opened hp hd (by decide), if_pos (show Instr.readText.wellFormed = true from rfl),
    exec_readText (by simp [hs]),
    lazyInit_of_initialised (by simp [hs])]
  by_cases he : b.eos = true
  · rw [if_pos (show (y.stateWith b).eos = true from he), stepsOf, dispatch_raise he]
    exact .of_offer y rfl fun _ => ⟨by simp [hp], he⟩
  · rw [if_neg (show ¬ (y.stateWith b).eos = true from he)]
    refine .of_begin y hp (by simpa using he) hpend le_rfl (by decide) ?_
    rw [loop_of_text hd]
    exact congrArg Host.Outcome.next (textBeat_withAcc _ 0)

/-- A legal command but CLOSE, decoded in OPEN. -/
theorem decoded_opened (y : System) {b : Block} {i : Instr} (hp : b.phase = .opened)
    (hd : decode b.opc = .ok i) (hi : i ≠ .close) (hw : i.wellFormed = true)
    (hpend : b.pending = .nothing) : Decoded y b b.onDecode (exec i (y.stateWith b)) := by
  by_cases ht : i = .readText
  · subst ht
    exact decoded_readText y hp hd hpend
  · have hs : (y.stateWith b).phase = .opened := hp
    have hlazy : lazyInit (y.stateWith b) = y.stateWith b := lazyInit_of_initialised (by simp [hs])
    rw [onDecode_opened hp hd hi, if_pos hw]
    cases hsteps : stepsOf i with
    | none =>
      obtain rfl := eq_isAtEnd_of_stepsOf hi hsteps
      rw [exec_isAtEnd (by simp [hs]), hlazy]
      exact .of_answer y (by simp [hd]) rfl
    | some p =>
      obtain ⟨kind, k⟩ := p
      obtain ⟨h1, h32, hex⟩ := exec_of_stepsOf hw ht hsteps
      rw [hex, unlessClosed_next (by simp [hs]), hlazy, ← loop_of_stepsOf hd ht hsteps]
      cases he : b.eos with
      | true =>
        rw [rest_of_eos (s := { y.stateWith b with acc := 0 }) _ h1 he rfl, dispatch_raise he]
        have hnot : decode b.opc ≠ .ok .readText := by simpa [hd] using ht
        exact .inr ⟨_, ⟨_, .answer fun h => absurd h (loop_ne_text hnot),
          offerError_doing y b .exhausted⟩, rfl⟩
      | false => exact .of_begin y hp he hpend h1 h32 rfl

theorem decoded_closed (y : System) {b : Block} (hp : b.phase = .closed)
    (h : decode b.opc ≠ .ok .close) : Decoded y b b.onDecode (execWord b.opc (y.stateWith b)) := by
  have hs : (y.stateWith b).phase = .closed := hp
  rw [onDecode_closed hp h]
  refine .inl ⟨rfl, .useAfterClose, ?_⟩
  cases hd : decode b.opc with
  | ok i => rw [execWord_ok hd, exec_closed (fun hi => h (hi ▸ hd)) hs]
  | error e => rw [execWord_error hd, execReserved_closed hs]

theorem decoded_close (y : System) {b : Block} (h : decode b.opc = .ok .close) :
    Decoded y b b.onDecode (exec .close (y.stateWith b)) := by
  cases hp : b.phase with
  | unopened =>
    rw [onDecode_close_unopened hp h, exec_close_unopened (s := y.stateWith b) hp]
    exact .inl ⟨rfl, _, rfl⟩
  | opened =>
    rw [onDecode_close_opened hp h, exec_close_opened (s := y.stateWith b) hp]
    exact .of_answer y (b' := { b with phase := .closed, srcClose := true }) (by simp [h]) rfl
  | closed =>
    rw [onDecode_close_closed hp h, exec_close_closed (s := y.stateWith b) hp]
    exact .of_answer y (by simp [h]) rfl

/-- S_DECODE, in the order of R72. -/
theorem onDecode_decoded (y : System) (b : Block) (hpend : b.pending = .nothing) :
    Decoded y b b.onDecode (execWord b.opc (y.stateWith b)) := by
  by_cases hcl : decode b.opc = .ok .close
  · rw [execWord_ok hcl]
    exact decoded_close y hcl
  by_cases hc : b.phase = .closed
  · exact decoded_closed y hc hcl
  have hs : (y.stateWith b).phase ≠ .closed := hc
  cases hd : decode b.opc with
  | error e =>
    rw [onDecode_error hc hd, execWord_error hd, execReserved_next hs]
    exact .of_answer y (by simp [hd]) rfl
  | ok i =>
    have hi : i ≠ .close := fun h => hcl (h ▸ hd)
    rw [execWord_ok hd]
    cases hw : i.wellFormed with
    | false =>
      rw [onDecode_illFormed hc hd hw, exec_illFormed hw hs]
      exact .of_answer y (fun ht => by cases hd.symm.trans ht; cases hw) rfl
    | true =>
      cases hp : b.phase with
      | closed => exact absurd hp hc
      | opened => exact decoded_opened y hp hd hi hw hpend
      | unopened =>
        have hlazy : lazyInit (y.stateWith b) = { refill (y.stateWith b) with phase := .opened } :=
          lazyInit_of_unopened hp
        rw [onDecode_unopened hp hd hi, if_pos hw, exec_lazyInit hw hi hs, hlazy, ← execWord_ok hd]
        exact .inr ⟨_, ⟨_, .initialise hp, .initial rfl rfl hp⟩, rfl⟩

end Sys2Proof.Machine.Signal
end

section
/-! The closed system keeps the outcome of the running command, so the reference design refines the
steps (spec/45_sequencing_and_arithmetic.md R140). -/

namespace Sys2Proof.Machine.Signal

theorem onItem_initial {b : Block} (h : b.pending = .initial) (y : System) :
    (b.onItem y.nextItem).seq = .decode ∧ (b.onItem y.nextItem).pending = .nothing ∧
      (b.onItem y.nextItem).opc = b.opc ∧ (b.onItem y.nextItem).phase = .opened ∧
      System.stateWith { y with taken := y.taken + 1 } (b.onItem y.nextItem) =
        { refill (y.stateWith b) with phase := .opened } := by
  have hn : (y.stateWith b).nextItem = y.nextItem := rfl
  unfold Block.onItem
  rw [h]
  cases hi : y.nextItem with
  | byte v => exact ⟨rfl, rfl, rfl, rfl, by rw [refill_byte (hn.trans hi)]; rfl⟩
  | endOfStream => exact ⟨rfl, rfl, rfl, rfl, by rw [refill_end (hn.trans hi)]; rfl⟩

theorem onItem_step {b : Block} (h : b.pending ≠ .initial) (y : System) :
    (b.onItem y.nextItem).seq = .step ∧ (b.onItem y.nextItem).pending = b.pending ∧
      (b.onItem y.nextItem).opc = b.opc ∧ (b.onItem y.nextItem).iter = b.iter ∧
      System.stateWith { y with taken := y.taken + 1 } (b.onItem y.nextItem) =
        refill (y.stateWith b) := by
  have hn : (y.stateWith b).nextItem = y.nextItem := rfl
  unfold Block.onItem
  cases hi : y.nextItem with
  | byte v =>
    rw [refill_byte (hn.trans hi)]
    cases hp : b.pending with
    | initial => exact absurd hp h
    | _ => exact ⟨rfl, rfl, rfl, rfl, rfl⟩
  | endOfStream =>
    rw [refill_end (hn.trans hi)]
    cases hp : b.pending with
    | initial => exact absurd hp h
    | _ => exact ⟨rfl, rfl, rfl, rfl, rfl⟩

theorem Block.loop_congr {b b' : Block} (h : b'.opc = b.opc) : b'.loop = b.loop := by
  have hopc : b'.loop = { b with opc := b'.opc }.loop := rfl
  rw [hopc, h]

/-- The item a step waited for (R80, R138). -/
theorem Doing.onItem {y : System} {b : Block} {k : Nat} {o : Host.Outcome State Fault Refusal}
    (h : Doing b (y.stateWith b) (.filling k) o) :
    Doing (b.onItem y.nextItem)
      (System.stateWith { y with taken := y.taken + 1 } (b.onItem y.nextItem)) (.filled k) o := by
  obtain _ | _ | _ | ⟨-, hp, hk, h1, -⟩ | _ | _ := h
  have hne : b.pending ≠ .initial := fun hi => by simp [hi, Pending.Fits] at hp
  obtain ⟨hseq, hpend, hopc, hiter, hstate⟩ := onItem_step hne y
  rw [hstate, ← hpend, ← Block.loop_congr hopc]
  exact .filled hseq (by rwa [hpend, Block.loop_congr hopc]) (hiter ▸ hk) h1

theorem textBeat_congr {s t : State} (h : s.forgetAcc = t.forgetAcc) :
    (textBeat s).forgetAcc = (textBeat t).forgetAcc := by
  have hforget : ∀ u : State, (textBeat u.forgetAcc).forgetAcc = (textBeat u).forgetAcc :=
    fun u => textBeat_withAcc u 0
  rw [← hforget s, h, hforget t]

theorem execWord_congr {s t : State} (c : CmdWord) (h : s.forgetAcc = t.forgetAcc) :
    forgetAccOf (execWord c s) = forgetAccOf (execWord c t) := by
  have hforget : ∀ u : State, forgetAccOf (execWord c u.forgetAcc) = forgetAccOf (execWord c u) :=
    fun u => execWord_withAcc c u 0
  rw [← hforget s, h, hforget t]

/-- An outcome that is a fault is one, ACC apart. -/
theorem fault_of_forgetAccOf {o : Host.Outcome State Fault Refusal} {r : Fault}
    (h : forgetAccOf (.fault r) = forgetAccOf o) : o = .fault r := by
  cases o with
  | fault r' => exact h.symm
  | next t => cases h
  | refused r' => cases h

theorem next_of_forgetAccOf {o : Host.Outcome State Fault Refusal} {u : State}
    (h : forgetAccOf (.next u) = forgetAccOf o) : ∃ t, o = .next t ∧ u.forgetAcc = t.forgetAcc := by
  cases o with
  | next t => exact ⟨t, rfl, Host.Outcome.next.inj h⟩
  | fault r => cases h
  | refused r => cases h

/-- The sequencer state of a stage. -/
def Stage.seq : Stage → Seq
  | .decode => .decode
  | .initial | .filling _ => .fill
  | .fresh _ | .filled _ => .step
  | .respond _ => .resp

theorem Stage.respond_or (st : Stage) :
    (∀ last, st ≠ .respond last) ∨ st = .respond true ∨ st = .respond false := by
  cases st with
  | respond last => cases last <;> simp
  | _ => exact .inl fun _ => Stage.noConfusion

theorem System.Does.seq_eq {y : System} {st : Stage} {o : Host.Outcome State Fault Refusal}
    (h : y.Does st o) : y.block.seq = st.seq := by
  obtain ⟨-, o', hdo, -⟩ := h
  cases hdo <;> assumption

theorem advance_of_decode {y : System} (hi : y.block.inReset = false) (hq : y.block.seq = .decode) :
    y.advance = { y with block := y.block.onDecode } := by
  rw [System.advance, hq, System.move, Block.awake_eq_self hi]

theorem advance_of_step {y : System} (hi : y.block.inReset = false) (hq : y.block.seq = .step) :
    y.advance = { y with block := y.block.onStep } := by
  rw [System.advance, hq, System.move, Block.awake_eq_self hi]

theorem advance_of_fill {y : System} (hi : y.block.inReset = false) (hq : y.block.seq = .fill) :
    y.advance = { y with block := y.block.onItem y.nextItem, taken := y.taken + 1 } := by
  rw [System.advance, hq, System.move, Block.awake_eq_self hi]

theorem advance_of_resp {y : System} (hi : y.block.inReset = false) (hq : y.block.seq = .resp) :
    y.advance = { y with block := y.block.onTaken, beats := y.beats ++ [y.block.beat] } := by
  rw [System.advance, hq, System.move, Block.awake_eq_self hi]

/-- A move other than the answer's keeps the outcome, and leads to a next stage or to S_DEAD where
the outcome is a fault. -/
theorem System.Does.advance {y : System} {st : Stage} {o : Host.Outcome State Fault Refusal}
    (h : y.Does st o) (hst : ∀ last, st ≠ .respond last) :
    (y.advance.block.seq = .dead ∧ ∃ r, o = .fault r) ∨
      ∃ st', Stage.Next y.block.phase y.block.loop y.block.eos st st' ∧ y.advance.Does st' o := by
  have hawake := advance_inReset y
  obtain ⟨hi, o', hdo, ho⟩ := id h
  have hq := h.seq_eq
  cases st with
  | respond last => exact absurd rfl (hst last)
  | decode =>
    obtain ⟨-, hp⟩ := hdo
    rw [advance_of_decode hi hq] at hawake ⊢
    obtain ⟨hdead, r, hr⟩ | ⟨o'', ⟨st', hnext, hdo'⟩, ho'⟩ := onDecode_decoded y y.block hp
    · exact .inl ⟨hdead, r, fault_of_forgetAccOf (hr ▸ ho)⟩
    · exact .inr ⟨st', hnext, hawake, o'', hdo', ho'.trans ho⟩
  | initial =>
    obtain _ | ⟨-, hp, -⟩ := hdo
    rw [advance_of_fill hi hq] at hawake ⊢
    obtain ⟨hseq, hpend, hopc, -, hstate⟩ := onItem_initial hp y
    refine .inr ⟨_, .opened, hawake, _, .decode hseq hpend, ?_⟩
    rw [← ho, ← hopc]
    exact congrArg (fun s => forgetAccOf (execWord _ s)) hstate
  | fresh k =>
    rw [advance_of_step hi hq] at hawake ⊢
    obtain ⟨st', hnext, hdo'⟩ := hdo.onStep_fresh
    exact .inr ⟨st', hnext, hawake, o', hdo', ho⟩
  | filling k =>
    rw [advance_of_fill hi hq] at hawake ⊢
    exact .inr ⟨_, .item, hawake, o', hdo.onItem, ho⟩
  | filled k =>
    rw [advance_of_step hi hq] at hawake ⊢
    obtain ⟨st', hnext, hdo'⟩ := hdo.onStep_filled
    exact .inr ⟨st', hnext, hawake, o', hdo', ho⟩

/-- Agreement with a state is equality of the registers and lists, ACC apart (R140). -/
theorem agrees_iff {y : System} {s : State} :
    y.Agrees s ↔ (y.stateWith y.block).forgetAcc = s.forgetAcc := by
  obtain ⟨⟩ := s
  simp [System.Agrees, System.stateWith, State.forgetAcc]
  tauto

/-- Taking the last beat of a command leaves the block idle in the state the command led to. -/
theorem System.Does.taken_last {y : System} {o : Host.Outcome State Fault Refusal}
    (h : y.Does (.respond true) o) :
    ∃ t, o = .next t ∧ y.advance.block.seq = .idle ∧ y.advance.Agrees t := by
  obtain ⟨hi, o', hdo, ho⟩ := id h
  generalize hlast : true = last at hdo
  obtain _ | _ | _ | _ | _ | ⟨hq, -, -⟩ := hdo
  obtain ⟨t, rfl, ht⟩ := next_of_forgetAccOf ho
  rw [← hlast] at ht
  have htaken : y.block.onTaken = { y.block with seq := .idle } := if_pos hlast.symm
  rw [advance_of_resp hi hq, htaken]
  exact ⟨t, rfl, rfl, agrees_iff.2 ht⟩

/-- Taking another beat of READ_TEXT begins the next turn (R69, R120). -/
theorem System.Does.taken_more {y : System} {o : Host.Outcome State Fault Refusal}
    (h : y.Does (.respond false) o) :
    ∃ t, o = .next t ∧ step t = .next (textBeat t) ∧
      y.advance.Does (.fresh 1) (.next (textBeat t)) := by
  have hawake := advance_inReset y
  obtain ⟨hi, o', hdo, ho⟩ := id h
  generalize hlast : false = last at hdo
  obtain _ | _ | _ | _ | _ | ⟨hq, hpend, hl⟩ := hdo
  obtain ⟨t, rfl, ht⟩ := next_of_forgetAccOf ho
  rw [← hlast] at ht
  have htaken : y.block.onTaken = { y.block with seq := .step, iter := 1 } :=
    if_neg (by simp [← hlast])
  rw [advance_of_resp hi hq, htaken] at hawake ⊢
  have hloop : y.block.loop = .text := hl hlast.symm
  have htext : t.inText = true := (congrArg State.inText ht).symm
  have hstep : step t = .next (textBeat t) := if_pos htext
  have hrest : (y.block.loop.rest 1 ((y.stateWith y.block).emit y.block.beat)).forgetAcc =
      (textBeat t).forgetAcc := by
    rw [hloop, ← textBeat_congr ht, textBeat_withText]
    rfl
  exact ⟨t, rfl, hstep, hawake, _, .fresh rfl hpend rfl le_rfl, congrArg Host.Outcome.next hrest⟩

/-- An idle block that agrees with a state and accepts a word does what the step does (R60). -/
theorem System.Agrees.accept {y : System} {s : State} {c : CmdWord} {rest : List CmdWord}
    (h : y.Agrees s) (hq : y.block.seq = .idle) (hc : y.cmds = c :: rest) :
    y.advance.Does .decode (step s) := by
  have hawake := advance_inReset y
  have hagree := agrees_iff.1 h
  have hadv : y.advance = { y with block := y.block.awake.accept c, cmds := rest } := by
    rw [System.advance, hq, System.move, hc]
  have hcmds : s.cmds = c :: rest := (congrArg State.cmds hagree).symm.trans hc
  have htext : s.inText = false := (congrArg State.inText hagree).symm
  rw [hadv] at hawake ⊢
  rw [step_of_word htext hcmds]
  exact ⟨hawake, _, .decode rfl rfl,
    execWord_congr c (congrArg (fun u => { u with cmds := rest }) hagree)⟩

/-- An idle block with no word to come stays idle. -/
theorem advance_of_no_word {y : System} (hq : y.block.seq = .idle) (hc : y.cmds = []) :
    y.advance = y.awake := by
  rw [System.advance, hq, System.move, hc]

theorem advance_of_dead {y : System} (hq : y.block.seq = .dead) : y.advance = y.awake := by
  rw [System.advance, hq, System.move]

/-- The system is where some number of steps from `s` have led, or on the way of the next one
(R140). -/
def System.Tracks (y : System) (s : State) : Prop :=
  ∃ k t, runSteps k s = .next t ∧
    ((y.block.seq = .idle ∧ y.Agrees t) ∨ (∃ st, y.Does st (step t)) ∨
      (y.block.seq = .dead ∧ ∃ r, step t = .fault r))

theorem runSteps_step {s t u : State} {k : Nat} (h : runSteps k s = .next t)
    (hs : step t = .next u) :
    runSteps (k + 1) s = .next u := by
  rw [runSteps_add h 1, runSteps_succ_of_step hs 0]
  rfl

theorem System.Tracks.advance {y : System} {s : State} (h : y.Tracks s) : y.advance.Tracks s := by
  obtain ⟨k, t, hk, ⟨hq, hagree⟩ | ⟨st, hdoes⟩ | ⟨hq, hr⟩⟩ := h
  · cases hc : y.cmds with
    | nil =>
      rw [advance_of_no_word hq hc]
      exact ⟨k, t, hk, .inl ⟨hq, hagree⟩⟩
    | cons c rest => exact ⟨k, t, hk, .inr (.inl ⟨_, hagree.accept hq hc⟩)⟩
  · obtain hst | rfl | rfl := st.respond_or
    · obtain ⟨hdead, hr⟩ | ⟨st', -, hdoes'⟩ := hdoes.advance hst
      · exact ⟨k, t, hk, .inr (.inr ⟨hdead, hr⟩)⟩
      · exact ⟨k, t, hk, .inr (.inl ⟨st', hdoes'⟩)⟩
    · obtain ⟨u, hu, hq, hagree⟩ := hdoes.taken_last
      exact ⟨k + 1, u, runSteps_step hk hu, .inl ⟨hq, hagree⟩⟩
    · obtain ⟨u, hu, hstep, hdoes'⟩ := hdoes.taken_more
      exact ⟨k + 1, u, runSteps_step hk hu, .inr (.inl ⟨_, hstep ▸ hdoes'⟩)⟩
  · rw [advance_of_dead hq]
    exact ⟨k, t, hk, .inr (.inr ⟨hq, hr⟩)⟩

theorem System.Tracks.moved {y : System} {s : State} (h : y.Tracks s) (j : Nat) :
    (y.moved j).Tracks s := by
  induction j with
  | zero => exact h
  | succ j ih => exact ih.advance

theorem runSteps_fault {s t : State} {k : Nat} {r : Fault} (h : runSteps k s = .next t)
    (hr : step t = .fault r) : runSteps (k + 1) s = .fault r := by
  have hr' : Sys2Proof.core.step t = .fault r := hr
  rw [runSteps_add h 1]
  simp only [runSteps, Host.Core.run, hr']
  rfl

/-- A block at a stage of a command is neither idle nor dead. -/
theorem System.Does.busy {y : System} {st : Stage} {o : Host.Outcome State Fault Refusal}
    (h : y.Does st o) : y.block.seq ≠ .idle ∧ y.block.seq ≠ .dead := by
  rw [h.seq_eq]
  cases st <;> simp [Stage.seq]

theorem agrees_of_awake {y z : System} {s : State} (h : y.awake = z.awake) (hz : z.Agrees s) :
    y.Agrees s := by
  have hy : y.awake.Agrees s := by
    rw [h]
    exact hz
  exact hy

/-- Settles O58: a schedule without reset makes some of the block's moves (`ticks_moved`), and each
keeps it on the way of the steps. -/
theorem referenceDesignRefinesTheSteps : Obligations.ReferenceDesignRefinesTheSteps := by
  intro y s sched hagree hq hsched
  obtain ⟨j, -, hj⟩ := ticks_moved y hsched
  have hstart : y.Tracks s := ⟨0, s, rfl, .inl ⟨hq, hagree⟩⟩
  rw [seq_of_awake hj]
  obtain ⟨k, t, hk, ⟨hidle, hagree'⟩ | ⟨st, hdoes⟩ | ⟨hdead, r, hr⟩⟩ := hstart.moved j
  · refine ⟨fun _ => ⟨k, t, hk, agrees_of_awake hj hagree'⟩, fun h => ?_⟩
    rw [hidle] at h
    cases h
  · obtain ⟨hidle, hdead⟩ := hdoes.busy
    exact ⟨fun h => absurd h hidle, fun h => absurd h hdead⟩
  · refine ⟨fun h => ?_, fun _ => ⟨k + 1, r, runSteps_fault hk hr⟩⟩
    rw [hdead] at h
    cases h

end Sys2Proof.Machine.Signal
end

section
/-! Progress (spec/70_reset_and_hazards.md R183): with every move made, a command other than
READ_TEXT is through after a bounded number of them, and READ_TEXT when it meets the end of the
stream. -/

namespace Sys2Proof.Machine.Signal

/-- Within `m` moves the block is dead, or idle with beats as `P` says more. -/
def System.EndsIn (y : System) (m : Nat) (P : List Beat → Prop) : Prop :=
  ∃ j ≤ m, (y.moved j).cmds = y.cmds ∧
    ((y.moved j).block.seq = .dead ∨
      (y.moved j).block.seq = .idle ∧ ∃ bs, P bs ∧ (y.moved j).beats = y.beats ++ bs)

theorem System.EndsIn.mono {y : System} {m n : Nat} {P : List Beat → Prop} (h : y.EndsIn m P)
    (hmn : m ≤ n) : y.EndsIn n P := by
  obtain ⟨j, hj, hend⟩ := h
  exact ⟨j, hj.trans hmn, hend⟩

theorem System.EndsIn.of_dead {y : System} {P : List Beat → Prop} (h : y.block.seq = .dead)
    (m : Nat) : y.EndsIn m P :=
  ⟨0, Nat.zero_le m, rfl, .inl h⟩

/-- After a move that delivers the beats `bs`. -/
theorem System.EndsIn.of_advance {y : System} {m : Nat} {P Q : List Beat → Prop} {bs : List Beat}
    (h : y.advance.EndsIn m P) (hcmds : y.advance.cmds = y.cmds)
    (hbeats : y.advance.beats = y.beats ++ bs) (hP : ∀ l, P l → Q (bs ++ l)) :
    y.EndsIn (m + 1) Q := by
  obtain ⟨j, hj, hc, hend⟩ := h
  refine ⟨j + 1, Nat.succ_le_succ hj, ?_⟩
  rw [moved_succ]
  refine ⟨hc.trans hcmds, hend.imp_right fun ⟨hidle, l, hl, hb⟩ => ⟨hidle, bs ++ l, hP l hl, ?_⟩⟩
  rw [hb, hbeats, List.append_assoc]

/-- A response of several beats, the last of them flagged. -/
def Closed (bs : List Beat) : Prop := ∃ init b, bs = init ++ [b] ∧ b.last = true

/-- A response of one beat, flagged. -/
def Single (bs : List Beat) : Prop := ∃ b, bs = [b] ∧ b.last = true

theorem Single.closed {bs : List Beat} (h : Single bs) : Closed bs := by
  obtain ⟨b, rfl, hb⟩ := h
  exact ⟨[], b, rfl, hb⟩

theorem Closed.cons {bs : List Beat} (h : Closed bs) (a : Beat) : Closed ([a] ++ bs) := by
  obtain ⟨init, b, rfl, hb⟩ := h
  exact ⟨a :: init, b, rfl, hb⟩

theorem System.EndsIn.closed {y : System} {m : Nat} (h : y.EndsIn m Single) :
    y.EndsIn m Closed := by
  obtain ⟨j, hj, hc, hend⟩ := h
  exact ⟨j, hj, hc, hend.imp_right fun ⟨hidle, bs, hbs, hb⟩ => ⟨hidle, bs, hbs.closed, hb⟩⟩

/-- What a beat taken leaves of the lists and the command (R138). -/
theorem System.Does.advance_respond {y : System} {last : Bool}
    {o : Host.Outcome State Fault Refusal} (h : y.Does (.respond last) o) :
    y.advance = { y with block := y.block.onTaken, beats := y.beats ++ [y.block.beat] } ∧
      y.block.beat.last = last ∧ (last = false → y.block.loop = .text) := by
  obtain ⟨hi, o', hdo, -⟩ := id h
  obtain _ | _ | _ | _ | _ | ⟨hq, -, hl⟩ := hdo
  exact ⟨advance_of_resp hi hq, rfl, hl⟩

/-- A move other than the answer's leaves the words, the beats and the command (R138). -/
theorem System.Does.advance_frame {y : System} {st : Stage} {o : Host.Outcome State Fault Refusal}
    (h : y.Does st o) (hst : ∀ last, st ≠ .respond last) :
    y.advance.cmds = y.cmds ∧ y.advance.beats = y.beats ∧ y.advance.block.loop = y.block.loop := by
  obtain ⟨hi, -⟩ := id h
  have hq := h.seq_eq
  cases st with
  | respond last => exact absurd rfl (hst last)
  | decode =>
    rw [advance_of_decode hi hq]
    exact ⟨rfl, rfl, Block.loop_congr (onDecode_keeps _).opc⟩
  | initial =>
    rw [advance_of_fill hi hq]
    exact ⟨rfl, rfl, Block.loop_congr (onItem_keeps _ _).1⟩
  | filling k =>
    rw [advance_of_fill hi hq]
    exact ⟨rfl, rfl, Block.loop_congr (onItem_keeps _ _).1⟩
  | fresh k =>
    rw [advance_of_step hi hq]
    exact ⟨rfl, rfl, Block.loop_congr (onStep_keeps _).opc⟩
  | filled k =>
    rw [advance_of_step hi hq]
    exact ⟨rfl, rfl, Block.loop_congr (onStep_keeps _).opc⟩

/-- The command stays when a beat is taken. -/
theorem System.Does.loop_respond {y : System} {last : Bool} {o : Host.Outcome State Fault Refusal}
    (h : y.Does (.respond last) o) : y.advance.block.loop = y.block.loop := by
  obtain ⟨hadv, -⟩ := h.advance_respond
  rw [hadv]
  exact Block.loop_congr (onTaken_keeps _).opc

/-- LazyInit's refill opens the block (R83). -/
theorem System.Does.advance_initial {y : System} {o : Host.Outcome State Fault Refusal}
    (h : y.Does .initial o) : y.advance.block.phase = .opened := by
  obtain ⟨hi, o', hdo, -⟩ := id h
  obtain _ | ⟨hq, hp, -⟩ := hdo
  obtain ⟨-, -, -, hopen, -⟩ := onItem_initial hp y
  rw [advance_of_fill hi hq]
  exact hopen

theorem System.Does.endsIn_last {y : System} {o : Host.Outcome State Fault Refusal}
    (h : y.Does (.respond true) o) : y.EndsIn 1 Single := by
  obtain ⟨hadv, hlast, -⟩ := h.advance_respond
  obtain ⟨-, -, hidle, -⟩ := h.taken_last
  have hcmds : y.advance.cmds = y.cmds := by rw [hadv]
  have hbeats : y.advance.beats = y.beats ++ [y.block.beat] := by rw [hadv]
  exact ⟨1, le_rfl, hcmds, .inr ⟨hidle, _, ⟨_, rfl, hlast⟩, hbeats⟩⟩

/-- How many moves a command other than READ_TEXT makes at most from a stage on: three for a step,
one for its answer. -/
def Stage.bound (p : Phase) : Stage → Nat
  | .decode => if p = .unopened then 103 else 101
  | .initial => 102
  | .fresh k => 3 * k + 4
  | .filling k => 3 * k + 3
  | .filled k => 3 * k + 2
  | .respond _ => 1

theorem Stage.bound_pos (p : Phase) (st : Stage) : 0 < st.bound p := by
  cases st with
  | decode =>
    rw [Stage.bound]
    split <;> decide
  | _ => exact Nat.succ_pos _

theorem Stage.Next.bound_lt {p p' : Phase} {l : Loop} {e : Bool} {st st' : Stage}
    (h : Stage.Next p l e st st') (hl : l ≠ .text) (hp : st = .initial → p' = .opened) :
    st'.bound p' < st.bound p := by
  cases h with
  | answer h => simp only [Stage.bound]; split <;> omega
  | initialise hu => simp [Stage.bound, hu]
  | begin hk ho he => simp only [Stage.bound, ho]; simp; omega
  | opened => simp [Stage.bound, hp rfl]
  | unit hl' he => exact absurd hl' hl
  | _ => simp only [Stage.bound]; omega

/-- A command other than READ_TEXT answers with one beat, or meets a fault, within the bound. -/
theorem System.Does.endsIn_numeric {y : System} {st : Stage} {o : Host.Outcome State Fault Refusal}
    (h : y.Does st o) (hl : y.block.loop ≠ .text) (n : Nat) (hn : st.bound y.block.phase ≤ n) :
    y.EndsIn n Single := by
  induction n generalizing y st with
  | zero => exact absurd (st.bound_pos y.block.phase) (by omega)
  | succ n ih =>
    obtain hst | rfl | rfl := st.respond_or
    · obtain ⟨hcmds, hbeats, hloop⟩ := h.advance_frame hst
      have hend : y.advance.EndsIn n Single := by
        obtain ⟨hdead, -⟩ | ⟨st', hnext, h'⟩ := h.advance hst
        · exact .of_dead hdead n
        · have hlt : st'.bound y.advance.block.phase < st.bound y.block.phase :=
            hnext.bound_lt hl fun hi => System.Does.advance_initial (hi ▸ h)
          exact ih h' (hloop ▸ hl) (by omega)
      exact hend.of_advance hcmds (bs := []) (by simpa using hbeats) fun _ h => h
    · exact h.endsIn_last.mono (Nat.le_add_left 1 n)
    · obtain ⟨-, -, htext⟩ := h.advance_respond
      exact absurd (htext rfl) hl

theorem loop_readText {b : Block} (h : b.opc = encode .readText) : b.loop = .text :=
  loop_of_text (by rw [h]; exact (decodeInvertsEncode _ _).2 rfl)

theorem loop_other {b : Block} {c : CmdWord} (h : b.opc = c) (hc : c ≠ encode .readText) :
    b.loop ≠ .text :=
  loop_ne_text (by
    rw [h]
    exact fun hd => hc ((decodeInvertsEncode c .readText).1 hd))

/-- An idle block with a word next begins its command. -/
theorem accept_does {y : System} {c : CmdWord} {rest : List CmdWord} (hq : y.block.seq = .idle)
    (hc : y.cmds = c :: rest) :
    y.advance.Does .decode (step (y.stateWith y.block)) ∧ y.advance.cmds = rest ∧
      y.advance.beats = y.beats ∧ y.advance.block.opc = c ∧
      y.advance.block.phase = y.block.phase ∧ y.advance.block.eos = y.block.eos ∧
      y.advance.src = y.src ∧ y.advance.origin = y.origin ∧ y.advance.taken = y.taken := by
  have hagree : y.Agrees (y.stateWith y.block) := agrees_iff.2 rfl
  have hadv : y.advance = { y with block := y.block.awake.accept c, cmds := rest } := by
    rw [System.advance, hq, System.move, hc]
  refine ⟨hagree.accept hq hc, ?_⟩
  rw [hadv]
  exact ⟨rfl, rfl, rfl, rfl, rfl, rfl, rfl, rfl⟩

/-- An idle block with everyone ready is at any of its moves after at most one edge more, the one
that releases it from reset. -/
theorem prompt_reaches {y : System} (hq : y.block.seq = .idle) (hc : y.cmds ≠ []) (j : Nat) :
    ∃ k ≤ j + 2, y.prompt k = y.moved (j + 1) := by
  cases hi : y.block.inReset with
  | false => exact ⟨j + 1, Nat.le_succ _, prompt_moved hi (j + 1)⟩
  | true =>
    have hm : y.moves promptChoice y.block.seq = false := by
      rw [hq, System.moves, hi]
      simpa using hc
    have htick : y.tick promptChoice = y.awake := by
      rw [tick_eq y rfl, hm]
      rfl
    refine ⟨j + 2, le_rfl, ?_⟩
    calc y.prompt (j + 2) = (y.tick promptChoice).prompt (j + 1) := rfl
      _ = y.awake.moved (j + 1) := by rw [htick, prompt_moved rfl]
      _ = y.moved (j + 1) := by rw [moved_succ, advance_awake, ← moved_succ]

/-- Settles O59: at most one edge for the release from reset, one to accept the word, and the moves
of the longest command. -/
theorem promptEnvironmentMeansProgress : Obligations.PromptEnvironmentMeansProgress := by
  intro y c rest hq hc hne
  obtain ⟨hdoes, hcmds, hbeats, hopc, -⟩ := accept_does hq hc
  have hloop := loop_other hopc hne
  have hbound : Stage.decode.bound y.advance.block.phase ≤ 103 := by
    rw [Stage.bound]
    split <;> decide
  obtain ⟨j, hj, hc', hend⟩ := hdoes.endsIn_numeric hloop 103 hbound
  obtain ⟨k, hk, hpr⟩ := prompt_reaches hq (by simp [hc]) j
  refine ⟨k, by omega, ?_⟩
  rw [hpr, moved_succ]
  refine ⟨hc'.trans hcmds, hend.imp_right ?_⟩
  rintro ⟨hidle, bs, ⟨b, rfl, -⟩, hb⟩
  exact ⟨hidle, b, hb.trans (by rw [hbeats])⟩

end Sys2Proof.Machine.Signal
end

section
/-! READ_TEXT on a stream that ends and on one that goes on, and fairness
(spec/70_reset_and_hazards.md R183, spec/44_text_and_close.md R123). -/

namespace Sys2Proof.Machine.Signal

/-- The stages from which a READ_TEXT meets the end before the next item. -/
def Stage.AtEnd (p : Phase) (e : Bool) : Stage → Prop
  | .decode => p ≠ .unopened ∧ e = true
  | .initial | .filling _ => False
  | .fresh _ | .filled _ | .respond _ => e = true

theorem Stage.AtEnd.eos {p : Phase} {e : Bool} {st : Stage} (h : st.AtEnd p e) : e = true := by
  cases st with
  | decode => exact And.right h
  | initial => exact False.elim h
  | filling k => exact False.elim h
  | _ => exact h

/-- At end READ_TEXT answers at the next move. -/
theorem Stage.Next.eq_respond {p : Phase} {e : Bool} {st st' : Stage}
    (h : Stage.Next p .text e st st') (hend : st.AtEnd p e) : st' = .respond true := by
  have he := hend.eos
  cases h with
  | answer => rfl
  | finish => rfl
  | result => rfl
  | initialise hu => exact absurd hu (And.left hend)
  | opened => exact False.elim hend
  | item => exact False.elim hend
  | count hl => cases hl
  | counted hl => exact absurd rfl hl
  | begin hk ho hf => exact absurd (hf.symm.trans he) Bool.false_ne_true
  | ask hf => exact absurd (hf.symm.trans he) Bool.false_ne_true
  | unit hl hf => exact absurd (hf.symm.trans he) Bool.false_ne_true

/-- Not at end READ_TEXT does not answer its last beat, nor come to the end but by an item. -/
theorem Stage.Next.not_atEnd {p : Phase} {e : Bool} {st st' : Stage}
    (h : Stage.Next p .text e st st') (hend : ¬ st.AtEnd p e) :
    st' ≠ .respond true ∧ (st.seq ≠ .fill → ∀ p', ¬ st'.AtEnd p' e) := by
  cases h with
  | answer h => exact absurd (h rfl) hend
  | finish h => exact absurd (h rfl) hend
  | result h => exact absurd (h rfl) hend
  | count hl => cases hl
  | counted hl => exact absurd rfl hl
  | initialise hu => simp [Stage.AtEnd]
  | begin hk ho hf => simp [Stage.AtEnd, hf]
  | opened => simp [Stage.seq]
  | ask hf => simp [Stage.AtEnd]
  | item => simp [Stage.seq]
  | unit hl hf => simp [Stage.AtEnd, hf]

/-- The moves that transfer no item leave the source and EOS. -/
theorem System.Does.advance_rest {y : System} {st : Stage} {o : Host.Outcome State Fault Refusal}
    (h : y.Does st o) (hf : st.seq ≠ .fill) :
    y.advance.src = y.src ∧ y.advance.origin = y.origin ∧ y.advance.taken = y.taken ∧
      y.advance.block.eos = y.block.eos := by
  obtain ⟨hi, -⟩ := id h
  have hq := h.seq_eq
  cases st with
  | decode =>
    rw [advance_of_decode hi hq]
    exact ⟨rfl, rfl, rfl, (onDecode_keeps _).eos⟩
  | initial => exact absurd rfl hf
  | filling k => exact absurd rfl hf
  | fresh k =>
    rw [advance_of_step hi hq]
    exact ⟨rfl, rfl, rfl, (onStep_keeps _).eos⟩
  | filled k =>
    rw [advance_of_step hi hq]
    exact ⟨rfl, rfl, rfl, (onStep_keeps _).eos⟩
  | respond last =>
    rw [advance_of_resp hi hq]
    exact ⟨rfl, rfl, rfl, (onTaken_keeps _).eos⟩

/-- EOS after an item tells whether it was an `End` (R80). -/
theorem onItem_eos (b : Block) (item : SrcItem) : (b.onItem item).eos = !isByte item := by
  unfold Block.onItem
  cases item <;> cases b.pending <;> rfl

/-- The moves that transfer an item (R80). -/
theorem System.Does.advance_fetch {y : System} {st : Stage} {o : Host.Outcome State Fault Refusal}
    (h : y.Does st o) (hf : st.seq = .fill) :
    y.advance.src = y.src ∧ y.advance.origin = y.origin ∧ y.advance.taken = y.taken + 1 ∧
      y.advance.block.eos = !isByte y.nextItem := by
  obtain ⟨hi, -⟩ := id h
  rw [advance_of_fill hi (h.seq_eq.trans hf)]
  exact ⟨rfl, rfl, rfl, onItem_eos _ _⟩

/-- At end READ_TEXT is through in two moves (R122). -/
theorem System.Does.endsIn_atEnd {y : System} {st : Stage} {o : Host.Outcome State Fault Refusal}
    (h : y.Does st o) (hl : y.block.loop = .text) (hst : ∀ last, st ≠ .respond last)
    (hend : st.AtEnd y.block.phase y.block.eos) : y.EndsIn 2 Closed := by
  obtain ⟨hcmds, hbeats, -⟩ := h.advance_frame hst
  have hrest : y.advance.EndsIn 1 Closed := by
    obtain ⟨hdead, -⟩ | ⟨st', hnext, h'⟩ := h.advance hst
    · exact .of_dead hdead 1
    · rw [hl] at hnext
      exact (hnext.eq_respond hend ▸ h').endsIn_last.closed
  exact hrest.of_advance hcmds (bs := []) (by simpa using hbeats) fun _ h => h

/-- How many moves READ_TEXT makes at most, from a stage on with `n` items before the `End`: four
for a unit. -/
def Stage.weight (p : Phase) (n : Nat) : Stage → Nat
  | .decode => if p = .unopened then 4 * n + 8 else 4 * n + 6
  | .initial => 4 * n + 7
  | .fresh _ => 4 * n + 5
  | .filling _ => 4 * n + 4
  | .filled _ => 4 * n + 7
  | .respond last => if last then 1 else 4 * n + 6

theorem Stage.weight_pos (p : Phase) (n : Nat) (st : Stage) : 0 < st.weight p n := by
  cases st with
  | decode =>
    rw [Stage.weight]
    split <;> exact Nat.succ_pos _
  | respond last => cases last <;> exact Nat.succ_pos _
  | _ => exact Nat.succ_pos _

theorem Stage.three_lt_weight {p : Phase} {n : Nat} {st : Stage} (h : st.seq = .fill) :
    3 < st.weight p n := by
  cases st with
  | initial => simp only [Stage.weight]; omega
  | filling k => simp only [Stage.weight]; omega
  | _ => cases h

/-- Each move brings READ_TEXT nearer to its end, an item counting for a unit. -/
theorem Stage.Next.weight_lt {p p' : Phase} {e : Bool} {st st' : Stage} {n m : Nat}
    (h : Stage.Next p .text e st st') (hp : st = .initial → p' = .opened)
    (hm : if st.seq = .fill then m < n else m = n) : st'.weight p' m < st.weight p n := by
  cases h with
  | answer h => simp only [Stage.weight, if_true]; split <;> omega
  | initialise hu =>
    obtain rfl : m = n := hm
    simp [Stage.weight, hu]
  | begin hk ho he =>
    obtain rfl : m = n := hm
    simp [Stage.weight, ho]
  | opened =>
    have hm : m < n := hm
    simp only [Stage.weight, hp rfl, reduceCtorEq, if_false]
    omega
  | item =>
    have hm : m < n := hm
    simp only [Stage.weight]
    omega
  | ask he =>
    obtain rfl : m = n := hm
    simp only [Stage.weight]
    omega
  | unit hl he =>
    obtain rfl : m = n := hm
    simp [Stage.weight]
  | finish => simp [Stage.weight]
  | result => simp [Stage.weight]
  | count hl => cases hl
  | counted hl => exact absurd rfl hl

/-- The `n`-th item from here is an `End`. -/
def System.StopsAt (y : System) (n : Nat) : Prop :=
  srcAt y.src (y.origin + y.taken + n) = .endOfStream

theorem System.StopsAt.of_source {y z : System} {n : Nat} (h : y.StopsAt n) (hsrc : z.src = y.src)
    (horigin : z.origin = y.origin) (htaken : z.taken = y.taken) : z.StopsAt n := by
  rw [System.StopsAt, hsrc, horigin, htaken]
  exact h

/-- An item taken is the `End`, or leaves it nearer. -/
theorem System.Does.stopsAt {y : System} {st : Stage} {o : Host.Outcome State Fault Refusal}
    (h : y.Does st o) (hf : st.seq = .fill) {n : Nat} (hn : y.StopsAt n) :
    y.advance.block.eos = true ∨ ∃ m < n, y.advance.StopsAt m := by
  obtain ⟨hsrc, horigin, htaken, heos⟩ := h.advance_fetch hf
  cases n with
  | zero =>
    have hitem : y.nextItem = .endOfStream := hn
    exact .inl (heos.trans (by rw [hitem]; rfl))
  | succ m =>
    refine .inr ⟨m, Nat.lt_succ_self m, ?_⟩
    rw [System.StopsAt, hsrc, horigin, htaken,
      show y.origin + (y.taken + 1) + m = y.origin + y.taken + (m + 1) by omega]
    exact hn

/-- A stage just after an item, at end if the item was the `End`. -/
theorem Stage.Next.atEnd_of_fill {p p' : Phase} {e : Bool} {l : Loop} {st st' : Stage}
    (h : Stage.Next p l e st st') (hf : st.seq = .fill) (hp : st = .initial → p' = .opened) :
    st'.AtEnd p' true ∧ ∀ last, st' ≠ .respond last := by
  cases h with
  | opened => simp [Stage.AtEnd, hp rfl]
  | item => simp [Stage.AtEnd]
  | _ => cases hf

/-- READ_TEXT on a stream that ends is through, or has met a fault, after a number of moves. -/
theorem System.Does.endsIn_text {y : System} {st : Stage} {o : Host.Outcome State Fault Refusal}
    (h : y.Does st o) (hl : y.block.loop = .text) {n : Nat} (hn : y.StopsAt n) (w : Nat)
    (hw : st.weight y.block.phase n ≤ w) : y.EndsIn w Closed := by
  induction w generalizing y st o n with
  | zero => exact absurd (st.weight_pos y.block.phase n) (by omega)
  | succ w ih =>
    obtain hst | rfl | rfl := st.respond_or
    · obtain ⟨hcmds, hbeats, hloop⟩ := h.advance_frame hst
      have hend : y.advance.EndsIn w Closed := by
        obtain ⟨hdead, -⟩ | ⟨st', hnext, h'⟩ := h.advance hst
        · exact .of_dead hdead w
        have hphase : st = .initial → y.advance.block.phase = .opened :=
          fun hi => System.Does.advance_initial (hi ▸ h)
        have hl' := hloop.trans hl
        rw [hl] at hnext
        by_cases hf : st.seq = .fill
        · obtain heos | ⟨m, hm, hm'⟩ := h.stopsAt hf hn
          · obtain ⟨hend, hst'⟩ := hnext.atEnd_of_fill hf hphase
            have hfill := Stage.three_lt_weight (p := y.block.phase) (n := n) hf
            exact (h'.endsIn_atEnd hl' hst' (heos ▸ hend)).mono (by omega)
          · have hlt := hnext.weight_lt (m := m) hphase (by rwa [if_pos hf])
            exact ih h' hl' hm' (by omega)
        · obtain ⟨hsrc, horigin, htaken, -⟩ := h.advance_rest hf
          have hlt := hnext.weight_lt (m := n) hphase (by rw [if_neg hf])
          exact ih h' hl' (hn.of_source hsrc horigin htaken) (by omega)
      exact hend.of_advance hcmds (bs := []) (by simpa using hbeats) fun _ h => h
    · exact h.endsIn_last.closed.mono (Nat.le_add_left 1 w)
    · obtain ⟨hadv, -, -⟩ := h.advance_respond
      obtain ⟨hsrc, horigin, htaken, -⟩ := h.advance_rest (by simp [Stage.seq])
      obtain ⟨t, -, -, h'⟩ := h.taken_more
      have hend := ih h' (h.loop_respond.trans hl) (hn.of_source hsrc horigin htaken) (by
        simp only [Stage.weight, Bool.false_eq_true, if_false] at hw ⊢
        omega)
      exact hend.of_advance (by rw [hadv]) (by rw [hadv]) fun _ hc => hc.cons _

end Sys2Proof.Machine.Signal
end

section
/-! Fairness, waiting, and READ_TEXT on a stream that goes on (spec/70_reset_and_hazards.md R183).
-/

namespace Sys2Proof.Machine.Signal

/-- An edge that makes no move changes at most the reset flag. -/
theorem tick_waits {z : System} {e : Choice} (hr : e.rst = false)
    (hm : z.moves e z.block.seq = false) : (z.tick e).awake = z.awake := by
  rw [tick_eq z hr, hm]
  rfl

theorem tick_inReset (z : System) {e : Choice} (hr : e.rst = false) :
    (z.tick e).block.inReset = false := by
  rw [tick_eq z hr]
  split
  · exact advance_inReset z
  · rfl

theorem run_waits {y : System} {sched : Nat → Choice} (hr : ∀ k, (sched k).rst = false) {k m : Nat}
    (hkm : k ≤ m)
    (hm : ∀ i, k ≤ i → i < m →
      (y.run sched i).moves (sched i) (y.run sched i).block.seq = false) :
    (y.run sched m).awake = (y.run sched k).awake := by
  induction m, hkm using Nat.le_induction with
  | base => rfl
  | succ m hkm ih =>
    rw [System.run, tick_waits (hr m) (hm m hkm m.lt_succ_self)]
    exact ih fun i hki him => hm i hki (Nat.lt_succ_of_lt him)

/-- Under fairness the block makes its next move some time (R183). -/
theorem System.Fair.moves {y : System} {sched : Nat → Choice} (h : y.Fair sched) (k : Nat) :
    ∃ m ≥ k, (y.run sched m).moves (sched m) (y.run sched m).block.seq = true := by
  by_contra hno
  push Not at hno
  have hno' : ∀ i ≥ k, (y.run sched i).moves (sched i) (y.run sched i).block.seq = false :=
    fun i hi => by simpa using hno i hi
  have hstuck : ∀ m ≥ k, (y.run sched m).awake = (y.run sched k).awake := fun m hm =>
    run_waits h.noReset hm fun i hi _ => hno' i hi
  cases hq : (y.run sched k).block.seq with
  | decode => simpa [hq, System.moves] using hno' k le_rfl
  | step => simpa [hq, System.moves] using hno' k le_rfl
  | dead => simpa [hq, System.moves] using hno' k le_rfl
  | fill =>
    obtain ⟨m, hm, hoffer⟩ := h.answers k hq
    have hqm := (seq_of_awake (hstuck m hm)).trans hq
    simpa [hqm, System.moves, hoffer] using hno' m hm
  | resp =>
    obtain ⟨m, hm, htake⟩ := h.takes k hq
    have hqm := (seq_of_awake (hstuck m hm)).trans hq
    simpa [hqm, System.moves, htake] using hno' m hm
  | idle =>
    have hq' := (seq_of_awake (hstuck (k + 1) k.le_succ)).trans hq
    have hempty := hno' (k + 1) k.le_succ
    rw [hq', System.moves, Bool.or_eq_false_iff] at hempty
    obtain ⟨m, hm, hoffer⟩ := h.presents (k + 1) hq' fun hc => by simp [hc] at hempty
    have hqm := (seq_of_awake (hstuck m (by omega))).trans hq
    obtain ⟨m, rfl⟩ := Nat.exists_eq_add_of_le' (Nat.le_of_add_left_le hm)
    have hreset := tick_inReset (y.run sched m) (h.noReset m)
    have hmoves := hno' (m + 1) (by omega)
    rw [hqm] at hmoves
    simp [System.moves, hoffer, System.run, hreset] at hmoves

/-- Under fairness every move is made some time. -/
theorem System.Fair.reaches {y : System} {sched : Nat → Choice} (h : y.Fair sched) (j : Nat) :
    ∃ k, (y.run sched k).awake = (y.moved j).awake := by
  induction j with
  | zero => exact ⟨0, rfl⟩
  | succ j ih =>
    obtain ⟨k, hk⟩ := ih
    have hex : ∃ d, (y.run sched (k + d)).moves (sched (k + d)) (y.run sched (k + d)).block.seq =
        true := by
      obtain ⟨m, hm, hmoves⟩ := h.moves k
      obtain ⟨d, rfl⟩ := Nat.exists_eq_add_of_le hm
      exact ⟨d, hmoves⟩
    have hwait : (y.run sched (k + Nat.find hex)).awake = (y.run sched k).awake :=
      run_waits h.noReset (Nat.le_add_right k _) fun i hki hi => by
        obtain ⟨d, rfl⟩ := Nat.exists_eq_add_of_le hki
        simpa using Nat.find_min hex (show d < Nat.find hex by omega)
    refine ⟨k + Nat.find hex + 1, ?_⟩
    rw [System.run, tick_eq _ (h.noReset _), if_pos (Nat.find_spec hex)]
    exact congrArg System.awake (advance_congr (hwait.trans hk))

/-- Under fairness a command that some number of moves ends is through. -/
theorem System.Fair.completes {y : System} {sched : Nat → Choice} (h : y.Fair sched) {c : CmdWord}
    {rest : List CmdWord} (hq : y.block.seq = .idle) (hc : y.cmds = c :: rest) {m : Nat}
    (hend : y.advance.EndsIn m Closed) :
    ∃ k, (y.run sched k).cmds = rest ∧
      ((y.run sched k).block.seq = .dead ∨
        (y.run sched k).block.seq = .idle ∧
          ∃ bs b, (y.run sched k).beats = y.beats ++ bs ++ [b] ∧ b.last = true) := by
  obtain ⟨-, hcmds, hbeats, -⟩ := accept_does hq hc
  obtain ⟨j, -, hc', hend⟩ := hend
  rw [← moved_succ] at hc' hend
  obtain ⟨k, hk⟩ := h.reaches (j + 1)
  refine ⟨k, (cmds_of_awake hk).trans (hc'.trans hcmds), ?_⟩
  rw [seq_of_awake hk, beats_of_awake hk]
  refine hend.imp_right ?_
  rintro ⟨hidle, bs, ⟨init, b, rfl, hb⟩, hbs⟩
  exact ⟨hidle, init, b, by rw [hbs, hbeats, List.append_assoc], hb⟩

/-- A command is through after some number of moves, READ_TEXT if entered at end or on a stream that
ends. -/
theorem accept_endsIn {y : System} {c : CmdWord} {rest : List CmdWord} (hq : y.block.seq = .idle)
    (hc : y.cmds = c :: rest)
    (h : c ≠ encode .readText ∨ y.block.phase ≠ .unopened ∧ y.block.eos = true ∨
      ∃ n, y.StopsAt n) : ∃ m, y.advance.EndsIn m Closed := by
  obtain ⟨hdoes, -, -, hopc, hphase, heos, hsrc, horigin, htaken⟩ := accept_does hq hc
  by_cases ht : c = encode .readText
  · have hloop := loop_readText (hopc.trans ht)
    obtain hne | hend | ⟨n, hn⟩ := h
    · exact absurd ht hne
    · refine ⟨2, hdoes.endsIn_atEnd hloop (fun _ => Stage.noConfusion) ?_⟩
      rw [hphase, heos]
      exact hend
    · exact ⟨_, hdoes.endsIn_text hloop (hn.of_source hsrc horigin htaken) _ le_rfl⟩
  · exact ⟨_, (hdoes.endsIn_numeric (loop_other hopc ht) _ le_rfl).closed⟩

/-- A request not answered and a beat not taken hold the block (R139). -/
theorem run_held {y : System} {sched : Nat → Choice} (hr : ∀ k, (sched k).rst = false)
    (hm : ∀ z : System, ∀ k, z.moves (sched k) y.block.seq = false) (k : Nat) :
    (y.run sched k).block.seq = y.block.seq ∧ (y.run sched k).beats = y.beats := by
  have hawake : (y.run sched k).awake = y.awake := by
    induction k with
    | zero => rfl
    | succ k ih =>
      rw [System.run, tick_waits (hr k) (by rw [seq_of_awake ih]; exact hm _ k)]
      exact ih
  exact ⟨seq_of_awake hawake, beats_of_awake hawake⟩

/-- READ_TEXT is on its way, not at end, with at most `j` items taken since `y`. -/
structure TextOnTheWay (y : System) (rest : List CmdWord) (j : Nat) (z : System) : Prop where
  cmds : z.cmds = rest
  loop : z.block.loop = .text
  src : z.src = y.src
  origin : z.origin = y.origin
  taken : ∃ i ≤ j, z.taken = y.taken + i
  stage : ∃ st t, z.Does st (.next t) ∧ st ≠ .respond true ∧ ¬ st.AtEnd z.block.phase z.block.eos

/-- While the items are bytes a move keeps READ_TEXT on its way. -/
theorem TextOnTheWay.advance {y z : System} {rest : List CmdWord} {j : Nat}
    (h : TextOnTheWay y rest j z)
    (hbyte : ∀ i ≤ j, isByte (srcAt y.src (y.origin + y.taken + i)) = true) :
    TextOnTheWay y rest (j + 1) z.advance := by
  obtain ⟨hcmds, hloop, hsrc, horigin, ⟨i, hi, htaken⟩, st, t, hdoes, hst, hend⟩ := h
  obtain hresp | rfl | rfl := st.respond_or
  · obtain ⟨hcmds', -, hloop'⟩ := hdoes.advance_frame hresp
    obtain ⟨-, r, hr⟩ | ⟨st', hnext, h'⟩ := hdoes.advance hresp
    · cases hr
    rw [hloop] at hnext
    obtain ⟨hne, hrest⟩ := hnext.not_atEnd hend
    by_cases hf : st.seq = .fill
    · obtain ⟨hsrc', horigin', htaken', heos'⟩ := hdoes.advance_fetch hf
      have hitem : isByte z.nextItem = true := by
        rw [System.nextItem, hsrc, horigin, htaken, ← Nat.add_assoc]
        exact hbyte i hi
      refine ⟨hcmds'.trans hcmds, hloop'.trans hloop, hsrc'.trans hsrc, horigin'.trans horigin,
        ⟨i + 1, by omega, by omega⟩, st', t, h', hne, fun hat => ?_⟩
      have := hat.eos
      rw [heos', hitem] at this
      cases this
    · obtain ⟨hsrc', horigin', htaken', heos'⟩ := hdoes.advance_rest hf
      exact ⟨hcmds'.trans hcmds, hloop'.trans hloop, hsrc'.trans hsrc, horigin'.trans horigin,
        ⟨i, by omega, htaken'.trans htaken⟩, st', t, h', hne, heos' ▸ hrest hf _⟩
  · exact absurd rfl hst
  · obtain ⟨hadv, -, -⟩ := hdoes.advance_respond
    obtain ⟨hsrc', horigin', htaken', heos'⟩ := hdoes.advance_rest (by simp [Stage.seq])
    obtain ⟨u, -, -, h'⟩ := hdoes.taken_more
    have hcmds' : z.advance.cmds = z.cmds := by rw [hadv]
    refine ⟨hcmds'.trans hcmds, hdoes.loop_respond.trans hloop, hsrc'.trans hsrc,
      horigin'.trans horigin, ⟨i, by omega, htaken'.trans htaken⟩, _, _, h', Stage.noConfusion, ?_⟩
    rw [heos']
    exact hend

/-- READ_TEXT accepted outside CLOSED and not at end is on its way. -/
theorem accept_onTheWay {y : System} {rest : List CmdWord} (hq : y.block.seq = .idle)
    (hc : y.cmds = encode .readText :: rest) (hp : y.block.phase ≠ .closed)
    (he : y.block.phase = .opened → y.block.eos = false) : TextOnTheWay y rest 0 y.advance := by
  obtain ⟨hdoes, hcmds, -, hopc, hphase, heos, hsrc, horigin, htaken⟩ := accept_does hq hc
  have hstep : ∃ t, step (y.stateWith y.block) = .next t := by
    have hd : decode (encode .readText) = .ok .readText := (decodeInvertsEncode _ _).2 rfl
    rw [step_of_word rfl hc, execWord_ok hd, exec_readText hp]
    exact ⟨_, rfl⟩
  obtain ⟨t, ht⟩ := hstep
  refine ⟨hcmds, loop_readText hopc, hsrc, horigin, ⟨0, le_rfl, htaken⟩, .decode, t, ht ▸ hdoes,
    Stage.noConfusion, ?_⟩
  rw [hphase, heos]
  rintro ⟨hu, heos⟩
  have hopened : y.block.phase = .opened := by
    cases h : y.block.phase with
    | unopened => exact absurd h hu
    | opened => rfl
    | closed => exact absurd h hp
  exact Bool.false_ne_true ((he hopened).symm.trans heos)

/-- READ_TEXT goes on for as many moves as there are bytes (R123). -/
theorem moved_onTheWay {y : System} {rest : List CmdWord} (hq : y.block.seq = .idle)
    (hc : y.cmds = encode .readText :: rest) (hp : y.block.phase ≠ .closed)
    (he : y.block.phase = .opened → y.block.eos = false) (j : Nat)
    (hbyte : ∀ i ≤ j, isByte (srcAt y.src (y.origin + y.taken + i)) = true) :
    TextOnTheWay y rest j (y.moved (j + 1)) := by
  induction j with
  | zero => exact accept_onTheWay hq hc hp he
  | succ j ih =>
    have hbyte' : ∀ i ≤ j, isByte (srcAt y.src (y.origin + y.taken + i)) = true :=
      fun i hi => hbyte i (Nat.le_succ_of_le hi)
    exact (ih hbyte').advance hbyte'

/-- Settles O60: fairness makes the moves that end a command; a handshake held back makes none;
READ_TEXT is on its way for as long as bytes come. -/
theorem commandsCompleteExactlyUnderFairness :
    Obligations.CommandsCompleteExactlyUnderFairness := by
  refine ⟨fun y sched c rest hfair hq hc hends => ?_, fun y sched hr => ⟨fun hq hno k => ?_,
    fun hq hno k => ?_⟩, fun y sched rest hr hq hc hp he k hbyte => ?_⟩
  · obtain ⟨m, hm⟩ := accept_endsIn hq hc hends
    exact hfair.completes hq hc hm
  · have hheld := run_held (y := y) hr (fun _ k => by rw [hq]; exact hno k) k
    rwa [hq] at hheld
  · have hheld := run_held (y := y) hr (fun _ k => by rw [hq]; exact hno k) k
    rwa [hq] at hheld
  · obtain ⟨j, hj, hawake⟩ := run_moved y hr k
    rw [cmds_of_awake hawake, seq_of_awake hawake]
    cases j with
    | zero => exact .inl rfl
    | succ j =>
      obtain ⟨hcmds, -, -, -, -, st, t, hdoes, -⟩ :=
        moved_onTheWay hq hc hp he j fun i hi => hbyte i (by omega)
      exact .inr ⟨hcmds, hdoes.busy⟩

end Sys2Proof.Machine.Signal
end
